-- ==== Sys2Proof/Word.lean ====
section
/-! DEFINITION. The words of the block and their plainest arithmetic (00_scope.md R8, R9). -/

namespace Sys2Proof

/-- A byte: 8 bits (R8). -/
abbrev Byte := BitVec 8

/-- A command word: 16 bits (30_encoding.md R50). -/
abbrev CmdWord := BitVec 16

/-- A 32-bit word: the response word (R52), the clock's counters (R18), the stopwatch's registers (R20). -/
abbrev Word := BitVec 32

/-- `trunc32(v) = v mod 2^32` (R9). -/
def trunc32 (v : Nat) : Word := BitVec.ofNat 32 v

/-- `wsub32(a, b) = (a - b) mod 2^32`, the wrap-safe subtraction (R9). -/
def wsub32 (a b : Word) : Word := a - b

/-- `zext_32(v)`: an unsigned value of fewer than 32 bits widened with zeros (R9). -/
def zext32 {n : Nat} (v : BitVec n) : Word := v.setWidth 32

/-- A truth value as a 32-bit response: 1 for true, 0 for false (R52). -/
def boolWord (b : Bool) : Word := if b then 1 else 0

/-- `a mod m` of R9: the unique `r` with `0 ≤ r < m` and `m` dividing `a - r`, negative `a` included. -/
def imod (a : Int) (m : Nat) : Nat := (a % (m : Int)).toNat

end Sys2Proof
end

