-- ==== Sys2Proof/Config.lean ====
section
/-! DEFINITION. The implementation parameters of 00_scope.md R6, the choice between the two treatments of the counter
sample (41_clock.md R87), and the free values. -/

namespace Sys2Proof

/-- The two admissible treatments of `CounterSample()` (41_clock.md R87). -/
inductive TimerTreatment where
  /-- (a) each sample is a free value in `[0, PERIOD - 1]`: the spec's default -/
  | draw
  /-- (b) the sample is `TMR.cnt`, stepped by 60_exceptions.md R133 -/
  | coupled
  deriving DecidableEq, Repr

/-- The parameters of 00_scope.md R6, all of them OPEN in the spec. They are arguments of the machine: `State` carries them,
no step changes them, and a statement about every state is a statement about every configuration (assumption log 1). -/
structure Config where
  /-- `N[0] .. N[NFIFO-1]`, the capacities; `NFIFO` is the list's length -/
  caps         : List Nat
  /-- `FRAC_INC` -/
  fracInc      : Nat
  /-- `FRAC_DEN` -/
  fracDen      : Nat
  /-- `FRAC_W` -/
  fracW        : Nat
  /-- `HAS_FINE` -/
  hasFine      : Bool
  /-- `PERIOD` -/
  period       : Nat
  /-- `SCALE` -/
  scale        : Nat
  /-- `NSW` -/
  nsw          : Nat
  /-- `DELAY_FINE_TOL` -/
  delayFineTol : Nat
  /-- which treatment of `CounterSample()` (R87) -/
  timer        : TimerTreatment
  deriving DecidableEq, Repr

/-- FREE VALUE (assumption log 7): what the n-th free counter sample reads, before it is brought into `[0, PERIOD - 1]`
(41_clock.md R87 (a), U2). Nothing constrains it. -/
opaque Config.freeSample : Nat → Nat

/-- FREE VALUE (assumption log 13): when an RXC event merges with a pending one, one received byte is lost
(60_exceptions.md R121); the spec does not say which. True: the older one is lost. -/
opaque Config.freeKeepsNew : Nat → Bool

end Sys2Proof
end

