-- ==== Sys2Proof/Machine/Parameters.lean ====
section
/-! DEFINITION. What 00_scope.md R6 says of the parameters: derived quantities, legal ranges, and the reference
configuration of `State.reset`. -/

namespace Sys2Proof

/-- `NFIFO`: the number of FIFO instances. -/
def Config.nFifo (c : Config) : Nat := c.caps.length

/-- One capacity is legal: `1 ≤ N[i] ≤ 255` (R6, R14). -/
def Config.legalCap (n : Nat) : Bool := decide (1 ≤ n) && decide (n ≤ 255)

/-- Every parameter is in its legal range (R6, R7). -/
def Config.legal (c : Config) : Bool :=
  decide (1 ≤ c.nFifo) && decide (c.nFifo ≤ 4) && c.caps.all Config.legalCap
  && decide (1 ≤ c.fracInc) && decide (c.fracInc ≤ c.fracDen) && decide (1 ≤ c.fracDen)
  && decide (c.fracInc + c.fracDen - 1 < 2 ^ c.fracW)
  && decide (1 ≤ c.period) && decide (1 ≤ c.scale)
  && decide (1 ≤ c.nsw) && decide (c.nsw ≤ 4)
  && decide (c.delayFineTol < 2 ^ 31)

/-- The configuration `State.reset` carries (assumption log 1, DESIGN CHOICE: the spec leaves every value OPEN). As many
instances of each unit as R6 allows, and fine time, so that every operation on every instance exists; capacity 4, 125/128,
PERIOD 256, SCALE 4 and tolerance 8 are the example values of 95_test_vectors.md; the treatment is R87's default. -/
def Config.reference : Config where
  caps         := [4, 4, 4, 4]
  fracInc      := 125
  fracDen      := 128
  fracW        := 8
  hasFine      := true
  period       := 256
  scale        := 4
  nsw          := 4
  delayFineTol := 8
  timer        := .draw

/-- The reference configuration with the instances of the count in 30_encoding.md R57 and of 95_test_vectors.md 2.5:
`NFIFO = 2`, `NSW = 1`. -/
def Config.r57 : Config := { Config.reference with caps := [4, 4], nsw := 1 }

end Sys2Proof
end

