-- ==== Sys2Proof/Syntax.lean ====
section
/-! DEFINITION. The seventeen operations of spec/opcode_table.json, one constructor per row (30_encoding.md R54 to R56, R61). -/

namespace Sys2Proof

/-- The resolution of a stopwatch (10_state.md R20): encoded 0, 1, 2; 3 never occurs. -/
inductive Resolution where
  /-- `FINE`, sub-millisecond, encoded 0 -/
  | fine
  /-- `MILLI`, millisecond, encoded 1 -/
  | milli
  /-- `SECOND`, whole second, encoded 2 -/
  | second
  deriving DecidableEq, Repr

/-- The commands the block executes. `i` is the `INST` field of a FIFO command, `j` of a STOPWATCH command (R51). -/
inductive Instr where
  | isEmpty (i : BitVec 2)
  | peek (i : BitVec 2)
  | remove (i : BitVec 2)
  | add (i : BitVec 2) (b : Byte)
  | count (i : BitVec 2)
  | free (i : BitVec 2)
  | tick
  | millis
  | micros
  | swInit (j : BitVec 2) (r : Resolution)
  | swStart (j : BitVec 2)
  | swStop (j : BitVec 2)
  | swPoll (j : BitVec 2)
  | swElapsed (j : BitVec 2)
  | swReset (j : BitVec 2)
  | irqSuppress
  | irqRestore (f : Bool)
  deriving DecidableEq, Repr

end Sys2Proof
end

