-- ==== Sys2Proof/WellFormed.lean ====
section
/-! DEFINITION. Which instructions exist in a configuration (30_encoding.md R57, 41_clock.md R93, 42_stopwatch.md R98). -/

namespace Sys2Proof

/-- The resolution exists: `FINE` only with `HAS_FINE` (R98). -/
def Resolution.wf (c : Config) : Resolution → Bool
  | .fine => c.hasFine
  | .milli => true
  | .second => true

/-- The instruction names an instance that exists, and needs no fine time that is absent (R57). -/
def Instr.wf (c : Config) : Instr → Bool
  | .isEmpty i => decide (i.toNat < c.nFifo)
  | .peek i => decide (i.toNat < c.nFifo)
  | .remove i => decide (i.toNat < c.nFifo)
  | .add i _ => decide (i.toNat < c.nFifo)
  | .count i => decide (i.toNat < c.nFifo)
  | .free i => decide (i.toNat < c.nFifo)
  | .tick => true
  | .millis => true
  | .micros => c.hasFine
  | .swInit j r => decide (j.toNat < c.nsw) && r.wf c
  | .swStart j => decide (j.toNat < c.nsw)
  | .swStop j => decide (j.toNat < c.nsw)
  | .swPoll j => decide (j.toNat < c.nsw)
  | .swElapsed j => decide (j.toNat < c.nsw)
  | .swReset j => decide (j.toNat < c.nsw)
  | .irqSuppress => true
  | .irqRestore _ => true

/-- The instruction can have two phases (41_clock.md R86, 42_stopwatch.md R97). -/
def Instr.twoPhase : Instr → Bool
  | .micros => true
  | .swStart _ => true
  | .swPoll _ => true
  | .swElapsed _ => true
  | .swReset _ => true
  | .isEmpty _ => false
  | .peek _ => false
  | .remove _ => false
  | .add _ _ => false
  | .count _ => false
  | .free _ => false
  | .tick => false
  | .millis => false
  | .swInit _ _ => false
  | .swStop _ => false
  | .irqSuppress => false
  | .irqRestore _ => false

end Sys2Proof
end

