-- ==== Sys2Proof/Decode.lean ====
section
/-! DEFINITION. The total decoder of 16-bit command words, the encoder, and the opcode map's match and mask values
(30_encoding.md R50 to R57). -/

namespace Sys2Proof

/-- Why a command word is reserved (R57). -/
inductive Reserved where
  /-- an `OP` value no row has -/
  | reservedOp
  /-- a non-zero `ARG` bit where the row requires zero -/
  | nonzeroArg
  /-- `INST` not 0 for CLOCK or CONTEXT, or not below `NFIFO` or `NSW` -/
  | badInstance
  /-- SW_INIT with `rr = 3` -/
  | badResolution
  /-- MICROS or SW_INIT FINE when `HAS_FINE` is false -/
  | noFineTime
  deriving DecidableEq, Repr

/-- `UNIT = w[15:14]` (R50). -/
def CmdWord.unit (w : CmdWord) : BitVec 2 := w.extractLsb' 14 2

/-- `INST = w[13:12]` (R50). -/
def CmdWord.inst (w : CmdWord) : BitVec 2 := w.extractLsb' 12 2

/-- `OP = w[11:8]` (R50). -/
def CmdWord.op (w : CmdWord) : BitVec 4 := w.extractLsb' 8 4

/-- `ARG = w[7:0]` (R50). -/
def CmdWord.arg (w : CmdWord) : Byte := w.extractLsb' 0 8

/-- An operation whose `ARG` must be 0 (R51). -/
def decodeNoArg (arg : Byte) (i : Instr) : Except Reserved Instr :=
  if arg = 0 then .ok i else .error .nonzeroArg

/-- `UNIT = 0`, FIFO (R54). -/
def decodeFifo (c : Config) (i : BitVec 2) (op : BitVec 4) (arg : Byte) : Except Reserved Instr :=
  if i.toNat < c.nFifo then
    match op.toNat with
    | 0 => decodeNoArg arg (.isEmpty i)
    | 1 => decodeNoArg arg (.peek i)
    | 2 => decodeNoArg arg (.remove i)
    | 3 => .ok (.add i arg)
    | 4 => decodeNoArg arg (.count i)
    | 5 => decodeNoArg arg (.free i)
    | _ => .error .reservedOp
  else .error .badInstance

/-- `UNIT = 1`, CLOCK; `INST` must be 0 (R55). -/
def decodeClock (c : Config) (i : BitVec 2) (op : BitVec 4) (arg : Byte) : Except Reserved Instr :=
  if i = 0 then
    match op.toNat with
    | 0 => decodeNoArg arg .tick
    | 1 => decodeNoArg arg .millis
    | 2 => if c.hasFine then decodeNoArg arg .micros else .error .noFineTime
    | _ => .error .reservedOp
  else .error .badInstance

/-- SW_INIT: `rr = ARG[1:0]`, `ARG[7:2] = 0` (R51, R56). -/
def decodeSwInit (c : Config) (j : BitVec 2) (arg : Byte) : Except Reserved Instr :=
  match arg.toNat with
  | 0 => if c.hasFine then .ok (.swInit j .fine) else .error .noFineTime
  | 1 => .ok (.swInit j .milli)
  | 2 => .ok (.swInit j .second)
  | 3 => .error .badResolution
  | _ => .error .nonzeroArg

/-- `UNIT = 2`, STOPWATCH (R56). -/
def decodeStopwatch (c : Config) (j : BitVec 2) (op : BitVec 4) (arg : Byte) : Except Reserved Instr :=
  if j.toNat < c.nsw then
    match op.toNat with
    | 0 => decodeSwInit c j arg
    | 1 => decodeNoArg arg (.swStart j)
    | 2 => decodeNoArg arg (.swStop j)
    | 3 => decodeNoArg arg (.swPoll j)
    | 4 => decodeNoArg arg (.swElapsed j)
    | 5 => decodeNoArg arg (.swReset j)
    | _ => .error .reservedOp
  else .error .badInstance

/-- `UNIT = 3`, CONTEXT; `INST` must be 0; IRQ_RESTORE takes `ARG[0]` and needs `ARG[7:1] = 0` (R51, R56). -/
def decodeContext (i : BitVec 2) (op : BitVec 4) (arg : Byte) : Except Reserved Instr :=
  if i = 0 then
    match op.toNat with
    | 0 => decodeNoArg arg .irqSuppress
    | 1 =>
      match arg.toNat with
      | 0 => .ok (.irqRestore false)
      | 1 => .ok (.irqRestore true)
      | _ => .error .nonzeroArg
    | _ => .error .reservedOp
  else .error .badInstance

/-- The decoder: every one of the 65536 words is exactly one operation or reserved (R57). -/
def decode (c : Config) (w : CmdWord) : Except Reserved Instr :=
  match w.unit.toNat with
  | 0 => decodeFifo c w.inst w.op w.arg
  | 1 => decodeClock c w.inst w.op w.arg
  | 2 => decodeStopwatch c w.inst w.op w.arg
  | _ => decodeContext w.inst w.op w.arg

/-- `word = UNIT * 0x4000 + INST * 0x1000 + OP * 0x0100 + ARG` (R50). -/
def packWord (unit inst op arg : Nat) : CmdWord :=
  BitVec.ofNat 16 (unit * 0x4000 + inst * 0x1000 + op * 0x0100 + arg)

/-- The encoding of a resolution: 0 = `FINE`, 1 = `MILLI`, 2 = `SECOND` (R56). -/
def Resolution.code : Resolution → Nat
  | .fine => 0
  | .milli => 1
  | .second => 2

/-- The command word of an operation (R54 to R56). -/
def encode : Instr → CmdWord
  | .isEmpty i => packWord 0 i.toNat 0 0
  | .peek i => packWord 0 i.toNat 1 0
  | .remove i => packWord 0 i.toNat 2 0
  | .add i b => packWord 0 i.toNat 3 b.toNat
  | .count i => packWord 0 i.toNat 4 0
  | .free i => packWord 0 i.toNat 5 0
  | .tick => packWord 1 0 0 0
  | .millis => packWord 1 0 1 0
  | .micros => packWord 1 0 2 0
  | .swInit j r => packWord 2 j.toNat 0 r.code
  | .swStart j => packWord 2 j.toNat 1 0
  | .swStop j => packWord 2 j.toNat 2 0
  | .swPoll j => packWord 2 j.toNat 3 0
  | .swElapsed j => packWord 2 j.toNat 4 0
  | .swReset j => packWord 2 j.toNat 5 0
  | .irqSuppress => packWord 3 0 0 0
  | .irqRestore f => packWord 3 0 1 f.toNat

/-- A row of the opcode map: a word `w` is the operation when `w AND mask = match` (R54 to R56), and the extra constraint,
where one is given, holds (`Instr.wf`). -/
structure OpRow where
  pattern : CmdWord
  mask    : CmdWord
  deriving DecidableEq, Repr

/-- `w AND mask = match`. -/
def OpRow.selects (r : OpRow) (w : CmdWord) : Bool := (w &&& r.mask) == r.pattern

/-- The match and mask columns of R54 to R56, written out from the tables. -/
def Instr.row : Instr → OpRow
  | .isEmpty _ => ⟨0x0000, 0xCFFF⟩
  | .peek _ => ⟨0x0100, 0xCFFF⟩
  | .remove _ => ⟨0x0200, 0xCFFF⟩
  | .add _ _ => ⟨0x0300, 0xCF00⟩
  | .count _ => ⟨0x0400, 0xCFFF⟩
  | .free _ => ⟨0x0500, 0xCFFF⟩
  | .tick => ⟨0x4000, 0xFFFF⟩
  | .millis => ⟨0x4100, 0xFFFF⟩
  | .micros => ⟨0x4200, 0xFFFF⟩
  | .swInit _ _ => ⟨0x8000, 0xCFFC⟩
  | .swStart _ => ⟨0x8100, 0xCFFF⟩
  | .swStop _ => ⟨0x8200, 0xCFFF⟩
  | .swPoll _ => ⟨0x8300, 0xCFFF⟩
  | .swElapsed _ => ⟨0x8400, 0xCFFF⟩
  | .swReset _ => ⟨0x8500, 0xCFFF⟩
  | .irqSuppress => ⟨0xC000, 0xFFFF⟩
  | .irqRestore _ => ⟨0xC100, 0xFFFE⟩

/-- The command word of an opcode-table word of `nbits` bits: the bits above `nbits` are 0. -/
def tableWord (nbits w : Nat) : CmdWord := BitVec.ofNat 16 (w % 2 ^ nbits)

/-- What the decoder reads from a word numbered as spec/opcode_table.json numbers it, in the reference configuration. -/
def decodeTableWord (nbits w : Nat) : Option Instr :=
  match decode Config.reference (tableWord nbits w) with
  | .ok i => some i
  | .error _ => none

end Sys2Proof
end

