-- ==== Sys2Proof/Machine/State.lean ====
section
/-! DEFINITION. The state of the machine as plain data (10_state.md R13 to R34), what stands around the block (the two issuing
contexts, the timer's counter, the UART's receive register, the schedule), the faults and refusals of 60_exceptions.md R118,
and reset (R30 to R33, 70_reset_and_hazards.md R141). -/

namespace Sys2Proof.Machine

/-- The content of one FIFO's storage (R14, R27): (cell index, byte) pairs, indices strictly rising, no entry equal to what
an unlisted cell reads as (`Memory.wf`). -/
abbrev Memory := List Host.Cell

/-- A FIFO instance (R14). Its capacity `N` is a parameter (`Config.caps`). -/
structure Fifo where
  /-- next write index -/
  head    : Byte
  /-- next read index -/
  tail    : Byte
  storage : Memory
  deriving DecidableEq, Repr

/-- The CLOCK's registers (R18). `frac` is FRAC_W bits wide, with value below `FRAC_DEN` (R19; assumption log 19); `ovf` is
present only when `HAS_FINE` (assumption log 20). -/
structure Clock where
  ms   : Word
  frac : Nat
  ovf  : Word
  deriving DecidableEq, Repr

/-- A STOPWATCH instance (R20). -/
structure Stopwatch where
  res     : Resolution
  acc     : Word
  last    : Word
  running : Bool
  deriving DecidableEq, Repr

/-- The three interrupt sources (60_exceptions.md R119). -/
inductive Source where
  | tov
  | rxc
  | dre
  deriving DecidableEq, Repr

/-- `CTX.pending[s]`, one bit per source (R21). -/
structure Pending where
  tov : Bool
  rxc : Bool
  dre : Bool
  deriving DecidableEq, Repr

/-- The execution-context state (R21). -/
structure Ctx where
  irqSuppressed : Bool
  inHandler     : Bool
  pending       : Pending
  deriving DecidableEq, Repr

/-- `status` of a response (30_encoding.md R52). -/
inductive Status where
  | ok
  | illegal
  deriving DecidableEq, Repr

/-- The response to a command: the pair (`status`, `resp`) of 30_encoding.md R52. -/
structure Response where
  status : Status
  word   : Word
  deriving DecidableEq, Repr

/-- What the machine puts out: the byte written to the UART's data register, and the disabling of the DRE source
(60_exceptions.md R125, R134, U13). -/
inductive Output where
  | sent (b : Byte)
  | dreDisabled
  deriving DecidableEq, Repr

/-- One entry of what a context still has to issue: each line issues ONE command, and says what the context does with the
response (30_encoding.md R62; assumption log 2, 16, 17, 18). -/
inductive Line where
  /-- any command word -/
  | command (w : CmdWord)
  /-- DELAY d, its first MILLIS (41_clock.md R90) -/
  | delay (d : Word)
  /-- a MILLIS of DELAY's loop -/
  | delayPoll (target : Word)
  /-- DELAY_FINE d, its first MICROS (41_clock.md R91) -/
  | delayFine (d : Word)
  /-- a MICROS of DELAY_FINE's loop -/
  | delayFinePoll (target : Word)
  /-- the IRQ_SUPPRESS that opens a CRITICAL, its response kept (43_context.md R114) -/
  | openCritical
  /-- the IRQ_RESTORE that closes the innermost open CRITICAL, with the flag kept (R114) -/
  | closeCritical
  /-- H_TOV: TICK (60_exceptions.md R126) -/
  | tovTick
  /-- H_RXC: ADD of the byte read from the receive register to FIFO 0 (R124) -/
  | rxcAdd (b : Byte)
  /-- H_DRE: ISEMPTY f1, and the choice its response makes (R125) -/
  | dreTest
  /-- H_DRE: PEEK f1, its byte written to the UART's data register (R125) -/
  | drePeek
  /-- H_DRE: REMOVE f1 (R125) -/
  | dreRemove
  deriving DecidableEq, Repr

/-- A context that issues commands: its program, the overflow count a two-phase command carries from its phase A to its
phase B (10_state.md R28 (b)), and the flags its open critical sections will put back (43_context.md R114). -/
structure Thread where
  todo  : List Line
  latch : Option Word
  saved : List Bool
  deriving DecidableEq, Repr

/-- What the environment signals (60_exceptions.md R119): an RXC event brings a byte (R134). -/
inductive Event where
  | tov
  | rxc (b : Byte)
  | dre
  deriving DecidableEq, Repr

/-- What reset leaves unspecified (10_state.md R30, R32, R33, 60_exceptions.md R133; U5, U7, U8, U9), and the content of the
UART's receive register. -/
structure ResetDraw where
  storage       : List Memory
  last          : List Word
  irqSuppressed : Bool
  tmrCnt        : Nat
  uartRx        : Byte
  deriving DecidableEq, Repr

/-- What can happen next (60_exceptions.md R129; assumption log 3, 24). -/
inductive Move where
  /-- the context that holds the port takes its next step -/
  | context
  /-- an interrupt event occurs (R121) -/
  | event (e : Event)
  /-- CounterIncrement (R133) -/
  | increment
  /-- the handler of a pending source is entered, if R123's condition holds -/
  | enter (src : Source)
  /-- reset (70_reset_and_hazards.md R141), after which the normal context issues `program` -/
  | reset (d : ResetDraw) (program : List Line)
  deriving DecidableEq, Repr

/-- The whole machine. -/
structure State where
  /-- the parameters (00_scope.md R6): no step changes them -/
  cfg     : Config
  /-- `FIFO[0 .. NFIFO-1]` (R13) -/
  fifos   : List Fifo
  /-- `CLK` (R18) -/
  clk     : Clock
  /-- `SW[0 .. NSW-1]` (R13) -/
  sws     : List Stopwatch
  /-- `CTX` (R21) -/
  ctx     : Ctx
  /-- `TMR.cnt` (60_exceptions.md R133) -/
  tmrCnt  : Nat
  /-- the byte in the UART's receive register (R124) -/
  uartRx  : Byte
  /-- the normal context -/
  normal  : Thread
  /-- the handler context: idle outside a handler -/
  handler : Thread
  /-- the response of the latest step; none if it delivered none (R34, R52) -/
  resp    : Option Response
  /-- what the machine has put out, oldest first -/
  outputs : List Output
  /-- the moves still to come, next first; when there is none the context moves -/
  sched   : List Move
  /-- how many free values have been drawn -/
  draws   : Nat
  deriving DecidableEq, Repr

/-- Why the machine stops (60_exceptions.md R118). -/
inductive Fault where
  /-- raised by PEEK on an empty FIFO (40_fifo.md R69, U1). Safe: the spec gives the state after it no value. -/
  | peekEmpty
  /-- raised by IRQ_RESTORE 0 while a handler runs (43_context.md R116, U16). Safe: the spec gives the state after it no
  value. -/
  | handlerEnabledInterrupts
  deriving DecidableEq, Repr

/-- Why the model gives no meaning. (`IllegalCommand` of R118 is no refusal of the model: the block answers it and goes on,
30_encoding.md R57, so it is a next state.) -/
inductive Refusal where
  /-- an arm of `exec` whose instruction has no meaning yet (none is left). Safe. -/
  | notModelled (mnemonic : String)
  /-- raised by `step` when a parameter is outside its legal range (00_scope.md R6, 60_exceptions.md R118, U15). Safe. -/
  | badParameters
  deriving DecidableEq, Repr

/-- The three outcomes of a step of this machine. -/
abbrev Result := Host.Outcome State Fault Refusal

/-- A context that issues `todo` from its beginning. -/
def Thread.fresh (todo : List Line) : Thread where
  todo  := todo
  latch := none
  saved := []

/-- A FIFO right after reset (R30). -/
def Fifo.atReset (storage : Memory) : Fifo where
  head    := 0
  tail    := 0
  storage := storage

/-- A stopwatch right after reset (R32). -/
def Stopwatch.atReset (last : Word) : Stopwatch where
  res     := .milli
  acc     := 0
  last    := last
  running := false

/-- The machine right after reset, in configuration `c`, with what reset leaves unspecified drawn as `d` (R30 to R33). The
normal context will issue `program`, which comes from outside (assumption log 2). -/
def State.resetWith (c : Config) (d : ResetDraw) (program : List Line) : State where
  cfg     := c
  fifos   := (List.range c.nFifo).map fun i => Fifo.atReset (d.storage.getD i [])
  clk     := { ms := 0, frac := 0, ovf := 0 }
  sws     := (List.range c.nsw).map fun j => Stopwatch.atReset (d.last.getD j 0)
  ctx     := { irqSuppressed := d.irqSuppressed, inHandler := false,
               pending := { tov := false, rxc := false, dre := false } }
  tmrCnt  := d.tmrCnt
  uartRx  := d.uartRx
  normal  := Thread.fresh program
  handler := Thread.fresh []
  resp    := none
  outputs := []
  sched   := []
  draws   := 0

/-- The values `State.reset` has where the spec leaves the reset value unspecified (DESIGN CHOICE, assumption log 8 to 12). -/
def ResetDraw.zero : ResetDraw where
  storage       := []
  last          := []
  irqSuppressed := false
  tmrCnt        := 0
  uartRx        := 0

/-- The machine right after reset, in the reference configuration, nothing loaded into it. -/
def State.reset : State := State.resetWith Config.reference ResetDraw.zero []

end Sys2Proof.Machine
end

