-- ==== Sys2Proof/Machine/Ops.lean ====
section
/-! DEFINITION. The named operations over the machine: FIFO storage, FIFO indices, the register writes, the counter sample and
the clock readings, the stopwatch's commit, handler entry and return, and what the environment does. -/

namespace Sys2Proof.Machine

/-! ## Storage (20_memory.md R35 to R37) -/

/-- What a cell that no entry lists reads as (DESIGN CHOICE, assumption log 8). -/
def Memory.unlisted : Byte := 0

/-- `CellRead` (R37). -/
def Memory.read (a : Nat) : Memory → Byte
  | [] => Memory.unlisted
  | (b, v) :: m => if a = b then v else Memory.read a m

/-- `CellWrite` (R37), keeping the canonical form. -/
def Memory.write (a : Nat) (v : Byte) : Memory → Memory
  | [] => if v = Memory.unlisted then [] else [(a, v)]
  | (b, u) :: m =>
    if a < b then (if v = Memory.unlisted then (b, u) :: m else (a, v) :: (b, u) :: m)
    else if a = b then (if v = Memory.unlisted then m else (a, v) :: m)
    else (b, u) :: Memory.write a v m

/-- The canonical form, with every index at least `lo`. -/
def Memory.wfFrom : Nat → Memory → Bool
  | _, [] => true
  | lo, (a, v) :: m => decide (lo ≤ a) && decide (v ≠ Memory.unlisted) && Memory.wfFrom (a + 1) m

/-- The canonical form: indices strictly rising, no entry equal to what an unlisted cell reads as. -/
def Memory.wf (m : Memory) : Bool := Memory.wfFrom 0 m

/-- Every listed index is below `bound` (R36: no index outside `[0, M-1]`). -/
def Memory.below (bound : Nat) (m : Memory) : Bool := m.all fun cell => decide (cell.1 < bound)

/-! ## FIFO indices (40_fifo.md R66, R70, R72); `n` is the capacity `N`, `n + 1` the number of cells `M` -/

/-- `inc(k) = (k + 1) mod M` (R66). -/
def Fifo.inc (n : Nat) (k : Byte) : Byte := BitVec.ofNat 8 ((k.toNat + 1) % (n + 1))

/-- ADD (R72): write the cell at `head`, advance `head`, and evict the oldest byte if `head` has reached `tail`. -/
def Fifo.add (n : Nat) (b : Byte) (f : Fifo) : Fifo where
  storage := f.storage.write f.head.toNat b
  head    := Fifo.inc n f.head
  tail    := if Fifo.inc n f.head = f.tail then Fifo.inc n f.tail else f.tail

/-- REMOVE (R70): give up the oldest byte, if there is one. -/
def Fifo.remove (n : Nat) (f : Fifo) : Fifo :=
  if f.head ≠ f.tail then { f with tail := Fifo.inc n f.tail } else f

/-! ## Register writes -/

/-- Deliver a response (30_encoding.md R52). -/
def State.answer (r : Response) (s : State) : State := { s with resp := some r }

/-- Complete a command with `status = OK` and `resp = v`. -/
def State.respond (v : Word) (s : State) : State := s.answer { status := .ok, word := v }

/-- Refuse a command: no state change, `status = ILLEGAL`, `resp = 0` (30_encoding.md R57). -/
def State.refuseCommand (s : State) : State := s.answer { status := .illegal, word := 0 }

/-- Write FIFO instance `i`. -/
def State.setFifo (i : BitVec 2) (f : Fifo) (s : State) : State := { s with fifos := s.fifos.set i.toNat f }

/-- Write STOPWATCH instance `j`. -/
def State.setStopwatch (j : BitVec 2) (w : Stopwatch) (s : State) : State := { s with sws := s.sws.set j.toNat w }

/-- Write the CLOCK's registers. -/
def State.setClock (c : Clock) (s : State) : State := { s with clk := c }

/-- Write `CTX.irq_suppressed`. -/
def State.setSuppressed (b : Bool) (s : State) : State := { s with ctx := { s.ctx with irqSuppressed := b } }

/-- The context that holds the command port (60_exceptions.md R131). -/
def State.thread (s : State) : Thread := if s.ctx.inHandler then s.handler else s.normal

/-- Replace the context that holds the command port. -/
def State.setThread (t : Thread) (s : State) : State :=
  { s with normal := if s.ctx.inHandler then s.normal else t
           handler := if s.ctx.inHandler then t else s.handler }

/-- What the issuing context carries between the two phases of its command (10_state.md R28 (b)). -/
def State.latch (s : State) : Option Word := s.thread.latch

/-- Write what the issuing context carries. -/
def State.setLatch (o : Option Word) (s : State) : State := s.setThread { s.thread with latch := o }

/-! ## The clock and its readings -/

/-- TICK's update (41_clock.md R82). -/
def Clock.tick (c : Config) (k : Clock) : Clock :=
  let f := k.frac + c.fracInc
  let ovf := if c.hasFine then trunc32 (k.ovf.toNat + 1) else k.ovf
  if f ≥ c.fracDen then { ms := trunc32 (k.ms.toNat + 1), frac := f - c.fracDen, ovf := ovf }
  else { ms := k.ms, frac := f, ovf := ovf }

/-- The value of `CounterSample()` at this instant (41_clock.md R87): a free value in `[0, PERIOD - 1]`, or `TMR.cnt`. -/
def State.counterSample (s : State) : Nat :=
  match s.cfg.timer with
  | .draw => Config.freeSample s.draws % s.cfg.period
  | .coupled => s.tmrCnt

/-- The state after a sample: the next free sample is a fresh one (20_memory.md R42, R44). -/
def State.afterSample (s : State) : State :=
  match s.cfg.timer with
  | .draw => { s with draws := s.draws + 1 }
  | .coupled => s

/-- Fine time: `trunc32((o * PERIOD + c) * SCALE)` (41_clock.md R86). -/
def fineTime (c : Config) (o : Word) (sample : Nat) : Word := trunc32 ((o.toNat * c.period + sample) * c.scale)

/-- What asking for a clock reading leads to. -/
inductive Reading where
  /-- phase A of a two-phase reading is done: there is no value yet (41_clock.md R86) -/
  | carries (s : State)
  /-- the reading, and the state it leaves -/
  | now (v : Word) (s : State)

/-- Phase A of MICROS (R86): latch `CLK.ovf` in the issuing context; no response is delivered. -/
def State.finePhaseA (s : State) : State := { s.setLatch (some s.clk.ovf) with resp := none }

/-- The state phase B of MICROS leaves (R86): the sample is taken and nothing is carried any more. -/
def State.finePhaseB (s : State) : State := s.afterSample.setLatch none

/-- The reading phase B of MICROS makes, `o` carried from phase A (R86). -/
def State.fineReading (o : Word) (s : State) : Word := fineTime s.cfg o s.counterSample

/-- `ClockNow(res)` (42_stopwatch.md R97). A context that carries an overflow count is between the phases of a fine reading,
and this is its phase B (assumption log 6, 25). -/
def State.clockNow (r : Resolution) (s : State) : Reading :=
  match s.latch with
  | some o => .now (s.fineReading o) s.finePhaseB
  | none =>
    match r with
    | .fine => .carries s.finePhaseA
    | .milli => .now s.clk.ms s
    | .second => .now s.clk.ms s

/-! ## The stopwatch's commit (42_stopwatch.md R101) -/

/-- The wrap detection: `delta`, computed on integers with `MAX + 1 = 2^32`. -/
def wrapDelta (last now : Word) : Nat :=
  if last.toNat > now.toNat then now.toNat + (2 ^ 32 - last.toNat) else now.toNat - last.toNat

/-- What a poll of a running stopwatch commits. -/
def Stopwatch.commit (now : Word) (w : Stopwatch) : Stopwatch :=
  let delta := wrapDelta w.last now
  match w.res with
  | .second =>
    { w with acc := trunc32 (w.acc.toNat + delta / 1000), last := trunc32 (w.last.toNat + delta / 1000 * 1000) }
  | .fine => { w with acc := trunc32 (w.acc.toNat + delta), last := now }
  | .milli => { w with acc := trunc32 (w.acc.toNat + delta), last := now }

/-! ## Interrupts: pending bits, handler entry, handler return -/

/-- `CTX.pending[s]`. -/
def Pending.get (p : Pending) : Source → Bool
  | .tov => p.tov
  | .rxc => p.rxc
  | .dre => p.dre

/-- `CTX.pending[s] <- b`. -/
def Pending.put (p : Pending) (b : Bool) : Source → Pending
  | .tov => { p with tov := b }
  | .rxc => { p with rxc := b }
  | .dre => { p with dre := b }

/-- Set or clear one pending bit. -/
def State.setPending (src : Source) (b : Bool) (s : State) : State :=
  { s with ctx := { s.ctx with pending := s.ctx.pending.put b src } }

/-- The body of a source's handler (60_exceptions.md R124 to R126), `rx` being the byte in the UART's receive register as the
handler begins (assumption log 12). -/
def Source.body (rx : Byte) : Source → List Line
  | .tov => [.tovTick]
  | .rxc => [.rxcAdd rx]
  | .dre => [.dreTest]

/-- R123's condition. It holds as soon after reset as any other time: with the suppression flag drawn 0 a handler may be entered
before the normal context's first step (DESIGN CHOICE, assumption log 34). -/
def State.canEnter (src : Source) (s : State) : Bool :=
  !s.ctx.irqSuppressed && !s.ctx.inHandler && s.ctx.pending.get src

/-- Handler entry (R123), where its condition holds; where it does not, no handler is entered (assumption log 23). -/
def State.enterHandler (src : Source) (s : State) : State :=
  if s.canEnter src then
    { s with ctx := { irqSuppressed := true, inHandler := true, pending := s.ctx.pending.put false src }
             handler := Thread.fresh (src.body s.uartRx) }
  else s

/-- Handler return (R127). -/
def State.leaveHandler (s : State) : State :=
  { s with ctx := { s.ctx with inHandler := false, irqSuppressed := false }
           handler := Thread.fresh [] }

/-- The byte the UART's receive register holds after an RXC event brought `b` (R121, R124): where the event merges with a
pending one, one of the two bytes is lost, and which is free (assumption log 13). -/
def State.receive (b : Byte) (s : State) : State :=
  if s.ctx.pending.rxc then
    { s with uartRx := if Config.freeKeepsNew s.draws then b else s.uartRx, draws := s.draws + 1 }
  else { s with uartRx := b }

/-- An event occurs (R121). -/
def State.signal (e : Event) (s : State) : State :=
  match e with
  | .tov => s.setPending .tov true
  | .rxc b => (s.receive b).setPending .rxc true
  | .dre => s.setPending .dre true

/-- CounterIncrement (R133). -/
def State.counterIncrement (s : State) : State :=
  if s.tmrCnt = s.cfg.period - 1 then { s.setPending .tov true with tmrCnt := 0 }
  else { s with tmrCnt := s.tmrCnt + 1 }

/-! ## Reset as an event (70_reset_and_hazards.md R141) -/

/-- Storage content from given cells, as the machine holds it: only cells that exist, in canonical form. -/
def Memory.ofCells (bound : Nat) : List Host.Cell → Memory
  | [] => []
  | (a, v) :: m => if a < bound then (Memory.ofCells bound m).write a v else Memory.ofCells bound m

/-- A draw brought into what the state can hold in configuration `c`: storage in canonical form and in range,
`TMR.cnt` in `[0, PERIOD - 1]`. -/
def ResetDraw.clean (c : Config) (d : ResetDraw) : ResetDraw where
  storage       := (List.range c.nFifo).map fun i => Memory.ofCells (c.caps.getD i 0 + 1) (d.storage.getD i [])
  last          := d.last
  irqSuppressed := d.irqSuppressed
  tmrCnt        := d.tmrCnt % c.period
  uartRx        := d.uartRx

/-- Reset: every piece of state takes its reset value. What the environment will do next, what has been put out, and how many
free values have been drawn are not the machine's to reset (assumption log 24). -/
def State.resetEvent (d : ResetDraw) (program : List Line) (s : State) : State :=
  { State.resetWith s.cfg (d.clean s.cfg) program with outputs := s.outputs, sched := s.sched, draws := s.draws }

end Sys2Proof.Machine
end

