-- ==== Sys2Proof/Machine/Contexts.lean ====
section
/-! DEFINITION. The two contexts that issue commands: the command each line of a context's program issues, and how the
context goes on with the response (the pseudo-operations of 30_encoding.md R62: 41_clock.md R90, R91, 43_context.md R114,
60_exceptions.md R124 to R126). -/

namespace Sys2Proof.Machine

/-- The command word a line issues; none where a closing line has no open critical section to close (assumption log 18). -/
def Line.word (t : Thread) : Line → Option CmdWord
  | .command w => some w
  | .delay _ => some (encode .millis)
  | .delayPoll _ => some (encode .millis)
  | .delayFine _ => some (encode .micros)
  | .delayFinePoll _ => some (encode .micros)
  | .openCritical => some (encode .irqSuppress)
  | .closeCritical => t.saved.head?.map fun f => encode (.irqRestore f)
  | .tovTick => some (encode .tick)
  | .rxcAdd b => some (encode (.add 0 b))
  | .dreTest => some (encode (.isEmpty 1))
  | .drePeek => some (encode (.peek 1))
  | .dreRemove => some (encode (.remove 1))

/-- The exit test of DELAY_FINE (R91): `now` is within the tolerance window of `target`, on either side. -/
def withinWindow (tol : Nat) (now target : Word) : Bool :=
  decide ((wsub32 now target).toNat ≤ tol) || decide ((wsub32 target now).toNat ≤ tol)

/-- The lines that replace an answered line, ahead of the rest of the program. A pseudo-operation whose command is refused
is given up (assumption log 17). -/
def Line.rest (tol : Nat) (r : Response) : Line → List Line
  | .delay d => if r.status = .ok then [.delayPoll (r.word + d)] else []
  | .delayPoll target => if r.status = .ok ∧ r.word ≠ target then [.delayPoll target] else []
  | .delayFine d => if r.status = .ok then [.delayFinePoll (r.word + d)] else []
  | .delayFinePoll target => if r.status = .ok ∧ withinWindow tol r.word target = false then [.delayFinePoll target] else []
  | .dreTest => if r.status = .ok ∧ r.word = 0 then [.drePeek, .dreRemove] else []
  | .command _ => []
  | .openCritical => []
  | .closeCritical => []
  | .tovTick => []
  | .rxcAdd _ => []
  | .drePeek => []
  | .dreRemove => []

/-- The flags kept for the open critical sections, after an answered line (R114). -/
def Line.keep (r : Response) (saved : List Bool) : Line → List Bool
  | .openCritical => decide (r.word ≠ 0) :: saved
  | .closeCritical => saved.tail
  | .command _ => saved
  | .delay _ => saved
  | .delayPoll _ => saved
  | .delayFine _ => saved
  | .delayFinePoll _ => saved
  | .tovTick => saved
  | .rxcAdd _ => saved
  | .dreTest => saved
  | .drePeek => saved
  | .dreRemove => saved

/-- What an answered line puts out (R125): PEEK's byte goes to the UART's data register, and an empty transmit FIFO makes the
handler disable the DRE source. -/
def Line.output (r : Response) : Line → List Output
  | .drePeek => if r.status = .ok then [.sent (r.word.setWidth 8)] else []
  | .dreTest => if r.status = .ok ∧ r.word ≠ 0 then [.dreDisabled] else []
  | .command _ => []
  | .delay _ => []
  | .delayPoll _ => []
  | .delayFine _ => []
  | .delayFinePoll _ => []
  | .openCritical => []
  | .closeCritical => []
  | .tovTick => []
  | .rxcAdd _ => []
  | .dreRemove => []

/-- The issuing context goes on past its line `l` with the response `r`; `rest` is its program after `l`. -/
def State.goOn (l : Line) (rest : List Line) (r : Response) (s : State) : State :=
  { s.setThread { s.thread with todo := l.rest s.cfg.delayFineTol r ++ rest, saved := l.keep r s.thread.saved } with
    outputs := s.outputs ++ l.output r }

/-- The issuing context drops its first line without issuing a command. -/
def State.skipLine (rest : List Line) (s : State) : State := s.setThread { s.thread with todo := rest }

/-- A context with nothing left to issue: a handler returns (R127); the normal context waits. -/
def State.idle (s : State) : State := if s.ctx.inHandler then s.leaveHandler else s

end Sys2Proof.Machine
end

