-- ==== Sys2Proof/Machine/Operands.lean ====
section
/-! DEFINITION. The operands of a command: the instance its `INST` field selects (30_encoding.md R51). `ARG` is used as it
stands (R53), so it needs no operation here. -/

namespace Sys2Proof.Machine

/-- Run `k` on the FIFO instance `i` and its capacity `N[i]`; an instance that does not exist is refused (R57). -/
def State.onFifo (i : BitVec 2) (s : State) (k : Nat → Fifo → Result) : Result :=
  match s.cfg.caps[i.toNat]?, s.fifos[i.toNat]? with
  | some n, some f => k n f
  | _, _ => .next s.refuseCommand

/-- Run `k` on the STOPWATCH instance `j`; an instance that does not exist is refused (R57). -/
def State.onStopwatch (j : BitVec 2) (s : State) (k : Stopwatch → Result) : Result :=
  match s.sws[j.toNat]? with
  | some w => k w
  | none => .next s.refuseCommand

/-- Run `k` where fine time exists; otherwise the command is reserved and refused (41_clock.md R93, R57). -/
def State.onFineTime (s : State) (k : Result) : Result := if s.cfg.hasFine then k else .next s.refuseCommand

end Sys2Proof.Machine
end

