-- ==== Sys2Proof/Machine/ClockOps.lean ====
section
/-! DEFINITION. The clock operations (41_clock.md R82, R84, R86). -/

namespace Sys2Proof.Machine

/-- TICK (R82). -/
def execTick (s : State) : Result := .next ((s.setClock (s.clk.tick s.cfg)).respond 0)

/-- MILLIS (R84): one whole read. -/
def execMillis (s : State) : Result := .next (s.respond s.clk.ms)

/-- MICROS (R86). Executed by a context that carries nothing, it is phase A; by one that carries phase A's overflow count,
it is phase B and answers. -/
def execMicros (s : State) : Result :=
  s.onFineTime <|
    match s.clockNow .fine with
    | .carries t => .next t
    | .now v t => .next (t.respond v)

end Sys2Proof.Machine
end

