-- ==== Sys2Proof/Machine/ContextOps.lean ====
section
/-! DEFINITION. The context operations (43_context.md R112, R113, R116). -/

namespace Sys2Proof.Machine

/-- IRQ_SUPPRESS (R112): the flag as it was, then set. -/
def execIrqSuppress (s : State) : Result :=
  .next ((s.setSuppressed true).respond (boolWord s.ctx.irqSuppressed))

/-- IRQ_RESTORE (R113); in a handler with `f = 0`, the fault `HandlerEnabledInterrupts` (R116). -/
def execIrqRestore (f : Bool) (s : State) : Result :=
  if s.ctx.inHandler && !f then .fault .handlerEnabledInterrupts
  else .next ((s.setSuppressed f).respond 0)

end Sys2Proof.Machine
end

