-- ==== Sys2Proof/Machine/Flags.lean ====
section
/-! DEFINITION. The conditions the block computes. It stores one flag, `S.running` (10_state.md R23); "empty", "full" and the
count are functions of `head` and `tail` (R16, R17), and no arithmetic leaves a flag. -/

namespace Sys2Proof.Machine

/-- Empty exactly when `head = tail` (R16). -/
def Fifo.isEmpty (f : Fifo) : Bool := f.head == f.tail

/-- `cnt(F) = (head - tail) mod M` on integers (40_fifo.md R67). -/
def Fifo.cnt (n : Nat) (f : Fifo) : Nat := imod ((f.head.toNat : Int) - (f.tail.toNat : Int)) (n + 1)

/-- Full exactly when `(head + 1) mod M = tail` (R17). -/
def Fifo.isFull (n : Nat) (f : Fifo) : Bool := Fifo.inc n f.head == f.tail

/-- `N - cnt(F)` (R74). -/
def Fifo.free (n : Nat) (f : Fifo) : Nat := n - f.cnt n

end Sys2Proof.Machine
end

