-- ==== Sys2Proof/Machine/FifoOps.lean ====
section
/-! DEFINITION. The FIFO operations (40_fifo.md R68 to R74). -/

namespace Sys2Proof.Machine

/-- ISEMPTY (R68). -/
def execIsEmpty (i : BitVec 2) (s : State) : Result :=
  s.onFifo i fun _ f => .next (s.respond (boolWord f.isEmpty))

/-- PEEK (R69): on an empty FIFO the fault `PeekEmpty`. -/
def execPeek (i : BitVec 2) (s : State) : Result :=
  s.onFifo i fun _ f =>
    if f.isEmpty then .fault .peekEmpty else .next (s.respond (zext32 (f.storage.read f.tail.toNat)))

/-- REMOVE (R70). -/
def execRemove (i : BitVec 2) (s : State) : Result :=
  s.onFifo i fun n f => .next ((s.setFifo i (f.remove n)).respond 0)

/-- ADD (R72). -/
def execAdd (i : BitVec 2) (b : Byte) (s : State) : Result :=
  s.onFifo i fun n f => .next ((s.setFifo i (f.add n b)).respond 0)

/-- COUNT (R73). -/
def execCount (i : BitVec 2) (s : State) : Result :=
  s.onFifo i fun n f => .next (s.respond (trunc32 (f.cnt n)))

/-- FREE (R74). -/
def execFree (i : BitVec 2) (s : State) : Result :=
  s.onFifo i fun n f => .next (s.respond (trunc32 (f.free n)))

end Sys2Proof.Machine
end

