-- ==== Sys2Proof/Machine/StopwatchOps.lean ====
section
/-! DEFINITION. The stopwatch operations (42_stopwatch.md R98 to R103). On a FINE stopwatch an operation that reads the clock
has the two phases of MICROS, the stopwatch's registers being updated in phase B (R97). -/

namespace Sys2Proof.Machine

/-- Update STOPWATCH `j` with a clock reading of resolution `r`, and answer 0: after phase A there is nothing to update yet. -/
def State.sampleInto (j : BitVec 2) (r : Resolution) (upd : Word → Stopwatch) (s : State) : Result :=
  match s.clockNow r with
  | .carries t => .next t
  | .now v t => .next ((t.setStopwatch j (upd v)).respond 0)

/-- Poll STOPWATCH `j` (R101) and answer `ans` of it. The test of `S.running` belongs to the first phase: a context that
carries an overflow count has passed it (assumption log 25). -/
def State.pollStopwatch (j : BitVec 2) (ans : Stopwatch → Word) (s : State) : Result :=
  s.onStopwatch j fun w =>
    if w.running || s.latch.isSome then
      match s.clockNow w.res with
      | .carries t => .next t
      | .now v t => .next ((t.setStopwatch j (w.commit v)).respond (ans (w.commit v)))
    else .next (s.respond (ans w))

/-- SW_INIT (R98): `FINE` is refused where there is no fine time. -/
def execSwInit (j : BitVec 2) (r : Resolution) (s : State) : Result :=
  s.onStopwatch j fun w =>
    if r.wf s.cfg then .next ((s.setStopwatch j { w with res := r, acc := 0, running := false }).respond 0)
    else .next s.refuseCommand

/-- SW_START (R99). -/
def execSwStart (j : BitVec 2) (s : State) : Result :=
  s.onStopwatch j fun w => s.sampleInto j w.res fun v => { w with running := true, last := v }

/-- SW_STOP (R100): it does not poll. -/
def execSwStop (j : BitVec 2) (s : State) : Result :=
  s.onStopwatch j fun w => .next ((s.setStopwatch j { w with running := false }).respond 0)

/-- SW_POLL (R101). -/
def execSwPoll (j : BitVec 2) (s : State) : Result := s.pollStopwatch j fun _ => 0

/-- SW_ELAPSED (R102): poll, then answer the accumulator. -/
def execSwElapsed (j : BitVec 2) (s : State) : Result := s.pollStopwatch j fun w => w.acc

/-- SW_RESET (R103): the clock is read even when stopped. -/
def execSwReset (j : BitVec 2) (s : State) : Result :=
  s.onStopwatch j fun w => s.sampleInto j w.res fun v => { w with acc := 0, last := v }

end Sys2Proof.Machine
end

