-- ==== Sys2Proof/Machine/Dispatch.lean ====
section
/-! DEFINITION. One arm per instruction. -/

namespace Sys2Proof.Machine

/-- The meaning of every instruction: each arm is one call of a definition of its own. -/
def exec (i : Instr) (s : State) : Host.Outcome State Fault Refusal :=
  match i with
  | .isEmpty k => Sys2Proof.Machine.execIsEmpty k s
  | .peek k => Sys2Proof.Machine.execPeek k s
  | .remove k => Sys2Proof.Machine.execRemove k s
  | .add k b => Sys2Proof.Machine.execAdd k b s
  | .count k => Sys2Proof.Machine.execCount k s
  | .free k => Sys2Proof.Machine.execFree k s
  | .tick => Sys2Proof.Machine.execTick s
  | .millis => Sys2Proof.Machine.execMillis s
  | .micros => Sys2Proof.Machine.execMicros s
  | .swInit j r => Sys2Proof.Machine.execSwInit j r s
  | .swStart j => Sys2Proof.Machine.execSwStart j s
  | .swStop j => Sys2Proof.Machine.execSwStop j s
  | .swPoll j => Sys2Proof.Machine.execSwPoll j s
  | .swElapsed j => Sys2Proof.Machine.execSwElapsed j s
  | .swReset j => Sys2Proof.Machine.execSwReset j s
  | .irqSuppress => Sys2Proof.Machine.execIrqSuppress s
  | .irqRestore f => Sys2Proof.Machine.execIrqRestore f s

end Sys2Proof.Machine
end

