-- ==== Sys2Proof/Machine/Port.lean ====
section
/-! DEFINITION. The command port and one move of the machine (30_encoding.md R49, 60_exceptions.md R129). -/

namespace Sys2Proof.Machine

/-- The port executes one command word (R49): a reserved word is refused (R57); otherwise it is the instruction it decodes
to. -/
def State.execWord (w : CmdWord) (s : State) : Result :=
  match decode s.cfg w with
  | .error _ => .next s.refuseCommand
  | .ok i => exec i s

/-- After a command's step: if it has answered, the issuing context goes on; if only its phase A is done, the command stays
at the port for its phase B (41_clock.md R86). -/
def Result.afterCommand (l : Line) (rest : List Line) : Result → Result
  | .next t =>
    match t.resp with
    | some r => .next (t.goOn l rest r)
    | none => .next t
  | .fault e => .fault e
  | .refused e => .refused e

/-- The context that holds the port takes its next step. -/
def State.contextStep (s : State) : Result :=
  match s.thread.todo with
  | [] => .next s.idle
  | l :: rest =>
    match l.word s.thread with
    | none => .next (s.skipLine rest)
    | some w => (s.execWord w).afterCommand l rest

/-- A step begins: its move leaves the schedule, and no response stands yet (10_state.md R34). -/
def State.beginStep (rest : List Move) (s : State) : State := { s with sched := rest, resp := none }

/-- One move of the machine (60_exceptions.md R129). -/
def State.move (s : State) : Result :=
  match s.sched with
  | [] => (s.beginStep []).contextStep
  | .context :: ms => (s.beginStep ms).contextStep
  | .event e :: ms => .next ((s.beginStep ms).signal e)
  | .increment :: ms => .next (s.beginStep ms).counterIncrement
  | .enter src :: ms => .next ((s.beginStep ms).enterHandler src)
  | .reset d program :: ms => .next ((s.beginStep ms).resetEvent d program)

/-- One step: a configuration outside R6's ranges has no meaning (60_exceptions.md R118, U15). -/
def State.stepOnce (s : State) : Result := if s.cfg.legal then s.move else .refused .badParameters

/-- `s` with the command word `w` next at the port: the context that holds the port issues it first, beginning a command, and
the next move is that context's (assumption log 2). -/
def State.place (w : CmdWord) (s : State) : State :=
  { s.setThread { s.thread with todo := .command w :: s.thread.todo, latch := none } with sched := .context :: s.sched }

end Sys2Proof.Machine
end

