-- ==== Sys2Proof/Safety.lean ====
section
/-! DEFINITION. The terms claims are made in: a FIFO's content, the invariants of reachable states, runs of commands and of
steps, and what a run of commands does to the clock. -/

namespace Sys2Proof.Machine

/-- The content of a FIFO, oldest byte first: `storage[(tail + k) mod M]` for `k = 0 .. cnt - 1` (10_state.md R16). -/
def Fifo.content (n : Nat) (f : Fifo) : List Byte :=
  (List.range (f.cnt n)).map fun k => f.storage.read ((f.tail.toNat + k) % (n + 1))

/-- Both indices lie in `[0, M-1]` (R15). -/
structure Fifo.IndicesOk (n : Nat) (f : Fifo) : Prop where
  head : f.head.toNat < n + 1
  tail : f.tail.toNat < n + 1

/-- A FIFO of capacity `n` as a run can leave it: legal capacity, R15, and storage in canonical form inside its cells (R36). -/
structure Fifo.Ok (n : Nat) (f : Fifo) : Prop where
  cap     : Config.legalCap n = true
  indices : f.IndicesOk n
  wf      : f.storage.wf = true
  below   : f.storage.below (n + 1) = true

/-- FIFO instance `i` exists, with capacity `n` and registers `f`. -/
structure State.FifoAt (s : State) (i : BitVec 2) (n : Nat) (f : Fifo) : Prop where
  cap  : s.cfg.caps[i.toNat]? = some n
  fifo : s.fifos[i.toNat]? = some f

/-- What every reachable state satisfies. -/
structure State.Inv (s : State) : Prop where
  /-- the parameters are legal (00_scope.md R6) -/
  legal         : s.cfg.legal = true
  /-- there are NFIFO FIFO instances (10_state.md R13) -/
  fifoCount     : s.fifos.length = s.cfg.nFifo
  /-- every FIFO is as a run can leave it (R15, R36) -/
  fifoOk        : ∀ (k n : Nat) (f : Fifo), s.cfg.caps[k]? = some n → s.fifos[k]? = some f → f.Ok n
  /-- `CLK.frac < FRAC_DEN` (R19) -/
  frac          : s.clk.frac < s.cfg.fracDen
  /-- without `HAS_FINE` the overflow counter does not exist: the field stays 0 (41_clock.md R93) -/
  ovfAbsent     : s.cfg.hasFine = false → s.clk.ovf = 0
  /-- there are NSW stopwatches (R13) -/
  swCount       : s.sws.length = s.cfg.nsw
  /-- no FINE stopwatch without fine time (42_stopwatch.md R98) -/
  swRes         : ∀ (k : Nat) (w : Stopwatch), s.sws[k]? = some w → w.res = .fine → s.cfg.hasFine = true
  /-- a handler runs with interrupts suppressed (43_context.md R116) -/
  handlerMasked : s.ctx.inHandler = true → s.ctx.irqSuppressed = true
  /-- outside a handler the handler context is idle -/
  handlerIdle   : s.ctx.inHandler = false → s.handler = Thread.fresh []
  /-- `TMR.cnt` lies in `[0, PERIOD - 1]` (60_exceptions.md R133) -/
  counter       : s.tmrCnt < s.cfg.period

/-- The line's command, in configuration `c`, decodes to an instruction that can have two phases. -/
def Line.TwoPhase (c : Config) (t : Thread) (l : Line) : Prop :=
  ∃ w i, l.word t = some w ∧ decode c w = .ok i ∧ i.twoPhase = true

/-- A context carries an overflow count only while its next line's command is between its two phases (10_state.md R28). -/
def Thread.LatchOk (c : Config) (t : Thread) : Prop :=
  t.latch ≠ none → ∃ l rest, t.todo = l :: rest ∧ l.TwoPhase c t

/-- Both contexts keep R28 (b)'s discipline. -/
structure State.LatchOk (s : State) : Prop where
  normal  : s.normal.LatchOk s.cfg
  handler : s.handler.LatchOk s.cfg

/-- Go on from a next state; a stop stays a stop. -/
def Result.andThen (r : Result) (k : State → Result) : Result :=
  match r with
  | .next t => k t
  | .fault e => .fault e
  | .refused e => .refused e

/-- Commands executed one after another, stopping where one stops. -/
def State.execAll : List Instr → State → Result
  | [], s => .next s
  | i :: is, s => Result.andThen (exec i s) (State.execAll is)

/-- `k` steps, stopping where one stops. -/
def State.steps : Nat → State → Result
  | 0, s => .next s
  | k + 1, s => Result.andThen (step s) (State.steps k)

/-- The byte a command adds to FIFO instance `i`, if it is an ADD to it. -/
def Instr.addedTo (i : BitVec 2) (o : Instr) : Option Byte :=
  match o with
  | .add k b => if k = i then some b else none
  | _ => none

/-- A command run to its completion: one that has answered nothing has done its phase A, and is issued again for its phase B
(30_encoding.md R52, 41_clock.md R86). -/
def State.complete (i : Instr) (s : State) : Result :=
  Result.andThen (exec i s) fun t =>
    match t.resp with
    | some _ => .next t
    | none => exec i t

/-- Commands run to their completion one after another, stopping where one stops. -/
def State.completeAll : List Instr → State → Result
  | [], s => .next s
  | i :: is, s => Result.andThen (s.complete i) (State.completeAll is)

/-- How many times a TICK advances `CLK.ms`: once if the accumulator crosses (R82). -/
def Clock.crossing (c : Config) (k : Clock) : Nat := if k.frac + c.fracInc ≥ c.fracDen then 1 else 0

/-- How many times a run of commands advances `CLK.ms`: once for each TICK at which the accumulator crosses (R82, R85). -/
def Clock.advances (c : Config) : List Instr → Clock → Nat
  | [], _ => 0
  | i :: is, k => if i = .tick then k.crossing c + Clock.advances c is (k.tick c) else Clock.advances c is k

/-- The command polls STOPWATCH `j` (42_stopwatch.md R101, R102). -/
abbrev Instr.Polls (j : BitVec 2) (i : Instr) : Prop := i = .swPoll j ∨ i = .swElapsed j

/-- The command writes the registers of STOPWATCH `j` otherwise than by a poll (R98 to R100, R103). -/
def Instr.SetsUp (j : BitVec 2) (i : Instr) : Prop :=
  i = .swStart j ∨ i = .swStop j ∨ i = .swReset j ∨ ∃ r, i = .swInit j r

/-- The time unpolled right after a poll that found `u` ms unpolled: `SECOND` carries the remainder (R101). -/
def Resolution.carried : Resolution → Nat → Nat
  | .second, u => u % 1000
  | .milli, _ => 0
  | .fine, _ => 0

/-- In a run of commands that begins with `u` ms unpolled, the time unpolled is below the wrap period of 2^32 ms at each poll
of STOPWATCH `j` and at the end (R106, 70_reset_and_hazards.md R153). What a `SECOND` poll carries over counts as unpolled. -/
def Clock.PolledInTime (c : Config) (j : BitVec 2) (r : Resolution) : List Instr → Clock → Nat → Prop
  | [], _, u => u < 2 ^ 32
  | i :: is, k, u =>
    if i = .tick then Clock.PolledInTime c j r is (k.tick c) (u + k.crossing c)
    else if Instr.Polls j i then u < 2 ^ 32 ∧ Clock.PolledInTime c j r is k (Resolution.carried r u)
    else Clock.PolledInTime c j r is k u

/-- What one command's poll of STOPWATCH `j` commits in `s`: R101's `delta`, if it polls it. -/
def State.pollDelta (j : BitVec 2) (i : Instr) (s : State) : Nat :=
  match i, s.sws[j.toNat]? with
  | .swPoll k, some w => if k = j then wrapDelta w.last s.clk.ms else 0
  | .swElapsed k, some w => if k = j then wrapDelta w.last s.clk.ms else 0
  | _, _ => 0

/-- The sum of the deltas that the polls of STOPWATCH `j` commit in a run of commands (R106). -/
def State.pollDeltas (j : BitVec 2) : List Instr → State → Nat
  | [], _ => 0
  | i :: is, s =>
    s.pollDelta j i +
      match s.complete i with
      | .next t => State.pollDeltas j is t
      | .fault _ => 0
      | .refused _ => 0

/-- Properly nested critical sections (43_context.md R114, R115) around commands of any unit but CONTEXT. -/
inductive Nested : List Line → Prop where
  | empty : Nested []
  | body (w : CmdWord) : w.unit ≠ 3 → Nested [.command w]
  | critical (ls : List Line) : Nested ls → Nested (.openCritical :: ls ++ [.closeCritical])
  | append (ls ms : List Line) : Nested ls → Nested ms → Nested (ls ++ ms)

end Sys2Proof.Machine
end

