-- ==== Sys2Proof/Certificates/Slice0/Obligations.lean ====
section
/-! DEFINITION. The statements for the provers. Each docstring names the rule of spec/ it formalises. -/

open Sys2Proof Sys2Proof.Machine

/-! ## The encoding -/

/-- Every well-formed instruction's word decodes to it, with every operand at every value (R50 to R56). -/
def Obligations.DecodeOfEncodeIsTheInstruction : Prop :=
  ∀ (c : Config) (i : Instr), i.wf c = true → decode c (encode i) = .ok i

/-- A word the decoder accepts is the encoding of a well-formed instruction: no two words mean the same (R57). -/
def Obligations.DecodedWordsAreTheEncodings : Prop :=
  ∀ (c : Config) (w : CmdWord) (i : Instr), decode c w = .ok i → i.wf c = true ∧ encode i = w

/-- A decoded word is selected by its row of the opcode map, and by no other row (R54 to R56). -/
def Obligations.DecodedWordMatchesOnlyItsRow : Prop :=
  ∀ (c : Config) (w : CmdWord) (i i' : Instr),
    decode c w = .ok i → i.row.selects w = true ∧ (i'.row.selects w = true → i'.row = i.row)

/-- A few words of 95_test_vectors.md 2.5 and R59, with the instances of R57's count (`NFIFO = 2`, `NSW = 1`). -/
def Obligations.SampleWordsDecode : Prop :=
  decode Config.r57 0x0100 = .ok (.peek 0) ∧ decode Config.r57 0x1341 = .ok (.add 1 0x41) ∧
  decode Config.r57 0x4100 = .ok .millis ∧ decode Config.r57 0x8002 = .ok (.swInit 0 .second) ∧
  decode Config.r57 0xC101 = .ok (.irqRestore true) ∧ decode Config.r57 0x2000 = .error .badInstance ∧
  decode Config.r57 0x8003 = .error .badResolution ∧ decode Config.r57 0x9400 = .error .badInstance ∧
  decode { Config.r57 with nsw := 2 } 0x9400 = .ok (.swElapsed 1) ∧
  decode { Config.r57 with hasFine := false } 0x4200 = .error .noFineTime

/-- A word that encodes no instruction of the configuration is refused: no state of any unit changes, the response is
`ILLEGAL` and 0, and the issuing context goes on to its next command (R57, R118). The second clause is the model's choice
(assumption log 27), no rule of the spec: `exec` answers the same of an instruction that the configuration does not have,
to which no word decodes. -/
def Obligations.ReservedCommandIsRefusedAndTheBlockGoesOn : Prop :=
  (∀ (s : State) (w : CmdWord) (rest : List Line) (ms : List Move),
    (∀ i : Instr, i.wf s.cfg = true → encode i ≠ w) → s.cfg.legal = true →
    (s.sched = .context :: ms ∨ s.sched = [] ∧ ms = []) → s.thread.todo = .command w :: rest →
      step s = .next { s.setThread { s.thread with todo := rest } with
        sched := ms, resp := some { status := .illegal, word := 0 } }) ∧
  ∀ (s : State) (i : Instr), s.Inv → i.wf s.cfg = false →
    exec i s = .next { s with resp := some { status := .illegal, word := 0 } }

/-! ## Reset -/

/-- R31, with what R30, R32 and R33 give values for: the clock at zero, FIFOs empty, stopwatches stopped in `MILLI` with
nothing accumulated, normal context, nothing pending; and what they leave unspecified is whatever the draw `d` says. -/
def Obligations.ResetZeroesTheClockAndEmptiesTheUnits : Prop :=
  ∀ (c : Config) (d : ResetDraw) (p : List Line),
    (State.resetWith c d p).clk.ms = 0 ∧ (State.resetWith c d p).clk.frac = 0 ∧ (State.resetWith c d p).clk.ovf = 0 ∧
    (State.resetWith c d p).fifos.length = c.nFifo ∧
    (∀ (k : Nat) (f : Fifo), (State.resetWith c d p).fifos[k]? = some f →
      f.head = 0 ∧ f.tail = 0 ∧ (∀ n, f.content n = []) ∧ f.storage = d.storage.getD k []) ∧
    (State.resetWith c d p).sws.length = c.nsw ∧
    (∀ (k : Nat) (w : Stopwatch), (State.resetWith c d p).sws[k]? = some w →
      w.running = false ∧ w.acc = 0 ∧ w.res = .milli ∧ w.last = d.last.getD k 0) ∧
    (State.resetWith c d p).ctx.inHandler = false ∧ (State.resetWith c d p).ctx.irqSuppressed = d.irqSuppressed ∧
    ∀ src, (State.resetWith c d p).ctx.pending.get src = false

/-- The invariant holds at reset, for every legal configuration and every draw brought into range, and of `State.reset`. -/
def Obligations.InvariantHoldsAtReset : Prop :=
  State.reset.Inv ∧
  ∀ (c : Config) (d : ResetDraw) (p : List Line), c.legal = true → (State.resetWith c (d.clean c) p).Inv

/-- R141 as a step: from any state, reset gives the reset state of the machine's configuration. -/
def Obligations.ResetMoveResetsTheMachine : Prop :=
  ∀ (s : State) (d : ResetDraw) (p : List Line) (ms : List Move),
    s.cfg.legal = true → s.sched = .reset d p :: ms →
      step s = .next { State.resetWith s.cfg (d.clean s.cfg) p with
        outputs := s.outputs, sched := ms, draws := s.draws }

/-! ## Invariants that every step keeps -/

/-- The invariant (legal parameters, FIFO indices in range, storage canonical and inside its cells, `frac < FRAC_DEN`, no FINE
stopwatch without fine time, handlers masked, the counter in range) is kept by every step. -/
def Obligations.EveryStepKeepsTheInvariant : Prop :=
  ∀ s t : State, s.Inv → step s = .next t → t.Inv

/-- R28 (b): an overflow count is carried only while the context's next command is between its two phases; every step keeps
this. -/
def Obligations.EveryStepKeepsTheLatchDiscipline : Prop :=
  ∀ s t : State, s.Inv → s.LatchOk → step s = .next t → t.LatchOk

/-- R15: `head` and `tail` of every FIFO stay in `[0, M-1]`, whatever the step. -/
def Obligations.EveryStepKeepsFifoIndicesInRange : Prop :=
  (∀ (c : Config) (d : ResetDraw) (p : List Line) (k n : Nat) (f : Fifo),
    (State.resetWith c d p).fifos[k]? = some f → f.IndicesOk n) ∧
  ∀ s t : State,
    (∀ (k n : Nat) (f : Fifo), s.cfg.caps[k]? = some n → s.fifos[k]? = some f → f.IndicesOk n) → step s = .next t →
    ∀ (k n : Nat) (f : Fifo), t.cfg.caps[k]? = some n → t.fifos[k]? = some f → f.IndicesOk n

/-- No step changes the parameters (10_state.md R25), the number of FIFOs or the number of stopwatches (R13) of a machine
that has the number its parameters say. -/
def Obligations.NoStepChangesParametersOrInstances : Prop :=
  ∀ s t : State, step s = .next t →
    t.cfg = s.cfg ∧ (s.fifos.length = s.cfg.nFifo → t.fifos.length = s.fifos.length) ∧
    (s.sws.length = s.cfg.nsw → t.sws.length = s.sws.length)

/-! ## The FIFO -/

/-- R66: `inc` on every index, and (R80) `M` applications of it return an index to its start. -/
def Obligations.IncIsAdditionOfOneModuloM : Prop :=
  ∀ (n : Nat) (k : Byte), Config.legalCap n = true → k.toNat < n + 1 →
    (Fifo.inc n k).toNat = (k.toNat + 1) % (n + 1) ∧
    (k.toNat < n → (Fifo.inc n k).toNat = k.toNat + 1) ∧ (k.toNat = n → Fifo.inc n k = 0) ∧
    (Fifo.inc n)^[n + 1] k = k

/-- R67 and R75: the two cases of the count, and its bound. -/
def Obligations.CountIsTheModularDifferenceAndAtMostN : Prop :=
  ∀ (n : Nat) (f : Fifo), f.IndicesOk n →
    (f.tail.toNat ≤ f.head.toNat → f.cnt n = f.head.toNat - f.tail.toNat) ∧
    (f.head.toNat < f.tail.toNat → f.cnt n = f.head.toNat + (n + 1) - f.tail.toNat) ∧
    f.cnt n ≤ n

/-- ISEMPTY (R68). -/
def Obligations.IsEmptyAnswersWhetherHeadIsTail : Prop :=
  ∀ (s : State) (i : BitVec 2) (n : Nat) (f : Fifo), s.FifoAt i n f →
    decode s.cfg (packWord 0 i.toNat 0 0) = .ok (.isEmpty i) ∧
    exec (.isEmpty i) s = .next { s with resp := some { status := .ok, word := if f.head = f.tail then 1 else 0 } }

/-- PEEK (R69): the byte at `tail`, zero-extended; nothing changes; on an empty FIFO the fault. -/
def Obligations.PeekAnswersTheOldestByteOrFaults : Prop :=
  ∀ (s : State) (i : BitVec 2) (n : Nat) (f : Fifo), s.FifoAt i n f →
    decode s.cfg (packWord 0 i.toNat 1 0) = .ok (.peek i) ∧
    (f.head ≠ f.tail → exec (.peek i) s =
      .next { s with resp := some { status := .ok, word := zext32 (f.storage.read f.tail.toNat) } }) ∧
    (f.head = f.tail → exec (.peek i) s = .fault .peekEmpty)

/-- REMOVE (R70): `tail` advances if the FIFO is not empty; nothing else of the machine changes. -/
def Obligations.RemoveAdvancesTailUnlessEmpty : Prop :=
  ∀ (s : State) (i : BitVec 2) (n : Nat) (f : Fifo), s.FifoAt i n f →
    decode s.cfg (packWord 0 i.toNat 2 0) = .ok (.remove i) ∧
    (f.head ≠ f.tail → exec (.remove i) s =
      .next { s with fifos := s.fifos.set i.toNat { f with tail := Fifo.inc n f.tail },
                     resp := some { status := .ok, word := 0 } }) ∧
    (f.head = f.tail → exec (.remove i) s = .next { s with resp := some { status := .ok, word := 0 } })

/-- ADD (R72): the byte goes into the cell at the old `head`, `head` advances, and `tail` advances exactly when the FIFO was
full; every other cell keeps its byte; it never fails. -/
def Obligations.AddStoresAdvancesAndEvictsWhenFull : Prop :=
  ∀ (s : State) (i : BitVec 2) (b : Byte) (n : Nat) (f : Fifo), s.FifoAt i n f → f.Ok n →
    decode s.cfg (packWord 0 i.toNat 3 b.toNat) = .ok (.add i b) ∧
    ∃ f' : Fifo,
      exec (.add i b) s =
        .next { s with fifos := s.fifos.set i.toNat f', resp := some { status := .ok, word := 0 } } ∧
      f'.head = Fifo.inc n f.head ∧
      f'.tail = (if f.cnt n = n then Fifo.inc n f.tail else f.tail) ∧
      f'.storage.read f.head.toNat = b ∧
      (∀ k, k ≠ f.head.toNat → f'.storage.read k = f.storage.read k) ∧
      f'.cnt n = (if f.cnt n = n then n else f.cnt n + 1)

/-- COUNT and FREE (R73, R74), through the two cases of R67; and R76: ISEMPTY answers 1 exactly when COUNT answers 0, and
the answers of FREE and COUNT add up to `N`. -/
def Obligations.CountAndFreeAnswerTheCountAndItsComplement : Prop :=
  ∀ (s : State) (i : BitVec 2) (n : Nat) (f : Fifo), s.FifoAt i n f → f.Ok n →
    decode s.cfg (packWord 0 i.toNat 4 0) = .ok (.count i) ∧ decode s.cfg (packWord 0 i.toNat 5 0) = .ok (.free i) ∧
    ∃ k : Nat,
      k = (if f.tail.toNat ≤ f.head.toNat then f.head.toNat - f.tail.toNat
           else f.head.toNat + (n + 1) - f.tail.toNat) ∧ k ≤ n ∧
      exec (.count i) s = .next { s with resp := some { status := .ok, word := BitVec.ofNat 32 k } } ∧
      exec (.free i) s = .next { s with resp := some { status := .ok, word := BitVec.ofNat 32 (n - k) } } ∧
      (BitVec.ofNat 32 (n - k)).toNat + (BitVec.ofNat 32 k).toNat = n ∧
      ∃ e : Word, exec (.isEmpty i) s = .next { s with resp := some { status := .ok, word := e } } ∧
        (e = 1 ↔ BitVec.ofNat 32 k = 0)

/-- R78: the six operations act on the content, oldest byte first, as on a queue of at most `N` bytes that drops its oldest
byte when a byte is added to it full; reset makes it the empty queue. -/
def Obligations.FifoOperationsRefineABoundedQueue : Prop :=
  ∀ (s : State) (i : BitVec 2) (n : Nat) (f : Fifo), s.FifoAt i n f → f.Ok n →
    (f.content n).length ≤ n ∧
    exec (.isEmpty i) s =
      .next { s with resp := some { status := .ok, word := if f.content n = [] then 1 else 0 } } ∧
    (∀ b l, f.content n = b :: l →
      exec (.peek i) s = .next { s with resp := some { status := .ok, word := zext32 b } }) ∧
    (∃ g : Fifo, exec (.remove i) s =
        .next { s with fifos := s.fifos.set i.toNat g, resp := some { status := .ok, word := 0 } } ∧
      g.Ok n ∧ g.content n = (f.content n).tail) ∧
    (∀ b : Byte, ∃ g : Fifo, exec (.add i b) s =
        .next { s with fifos := s.fifos.set i.toNat g, resp := some { status := .ok, word := 0 } } ∧
      g.Ok n ∧
      g.content n = (if (f.content n).length < n then f.content n ++ [b] else (f.content n).tail ++ [b])) ∧
    exec (.count i) s =
      .next { s with resp := some { status := .ok, word := BitVec.ofNat 32 (f.content n).length } } ∧
    exec (.free i) s =
      .next { s with resp := some { status := .ok, word := BitVec.ofNat 32 (n - (f.content n).length) } } ∧
    ∀ m : Memory, (Fifo.atReset m).content n = []

/-- R77: after `k ≥ N` ADDs to an instance with no REMOVE from it between them, whatever other commands stand between them,
the content is exactly the last `N` bytes added, in order; and any number of ADDs can follow each other. -/
def Obligations.AfterNAddsTheContentIsTheLastNBytes : Prop :=
  ∀ (s : State) (i : BitVec 2) (n : Nat) (f : Fifo), s.FifoAt i n f → f.Ok n →
    (∀ (t : State) (is : List Instr), (∀ o ∈ is, o ≠ .remove i) → n ≤ (is.filterMap (Instr.addedTo i)).length →
      State.execAll is s = .next t →
      ∃ g : Fifo, t.FifoAt i n g ∧ g.cnt n = n ∧
        g.content n = (is.filterMap (Instr.addedTo i)).drop ((is.filterMap (Instr.addedTo i)).length - n)) ∧
    ∀ bs : List Byte, ∃ t, State.execAll (bs.map fun b => .add i b) s = .next t

/-- R36, R37, R40, R70: what the six FIFO operations leave unchanged. Only ADD writes storage, in the cell at its instance's
`head`; only ADD writes `head`; only REMOVE and ADD write `tail`; no other instance, no other unit, nothing of the contexts
or the environment changes. -/
def Obligations.FifoOperationsChangeOnlyTheirInstance : Prop :=
  ∀ (s t : State) (i : BitVec 2) (o : Instr),
    (o = .isEmpty i ∨ o = .peek i ∨ o = .remove i ∨ o = .count i ∨ o = .free i ∨ ∃ b, o = .add i b) →
    exec o s = .next t →
      t.cfg = s.cfg ∧ t.clk = s.clk ∧ t.sws = s.sws ∧ t.ctx = s.ctx ∧ t.tmrCnt = s.tmrCnt ∧ t.uartRx = s.uartRx ∧
      t.normal = s.normal ∧ t.handler = s.handler ∧ t.outputs = s.outputs ∧ t.sched = s.sched ∧ t.draws = s.draws ∧
      t.fifos.length = s.fifos.length ∧
      (∀ k, k ≠ i.toNat → t.fifos[k]? = s.fifos[k]?) ∧
      ∀ f g : Fifo, s.fifos[i.toNat]? = some f → t.fifos[i.toNat]? = some g →
        ((∀ b, o ≠ .add i b) → g.head = f.head ∧ ∀ a, g.storage.read a = f.storage.read a) ∧
        ((∀ b, o ≠ .add i b) → o ≠ .remove i → g.tail = f.tail) ∧
        ∀ b, o = .add i b → ∀ a, a ≠ f.head.toNat → g.storage.read a = f.storage.read a

/-- R42: ISEMPTY, PEEK, COUNT, FREE and MILLIS change nothing, and issued twice answer the same twice. -/
def Obligations.ReadsChangeNothingAndRepeat : Prop :=
  ∀ (s t : State) (i : BitVec 2) (o : Instr),
    (o = .isEmpty i ∨ o = .peek i ∨ o = .count i ∨ o = .free i ∨ o = .millis) → exec o s = .next t →
      (∃ r, t = { s with resp := some r }) ∧ exec o t = .next t

/-! ## The clock -/

/-- TICK (R82): the accumulator, the crossing, the two counters; nothing else of the machine changes. -/
def Obligations.TickAdvancesTheClock : Prop :=
  ∀ s : State,
    decode s.cfg 0x4000 = .ok .tick ∧
    exec .tick s = .next { s with
      clk := { ms := if s.clk.frac + s.cfg.fracInc ≥ s.cfg.fracDen then s.clk.ms + 1 else s.clk.ms
               frac := if s.clk.frac + s.cfg.fracInc ≥ s.cfg.fracDen then s.clk.frac + s.cfg.fracInc - s.cfg.fracDen
                       else s.clk.frac + s.cfg.fracInc
               ovf := if s.cfg.hasFine then s.clk.ovf + 1 else s.clk.ovf }
      resp := some { status := .ok, word := 0 } }

/-- R83 and R96: the closed form after `k` TICKs from reset, and that the count is never ahead of the true time and less than
one millisecond behind. -/
def Obligations.TicksFromResetHaveTheClosedForm : Prop :=
  ∀ (c : Config) (d : ResetDraw) (p : List Line) (k : Nat), c.legal = true →
    ∃ (t : State) (m : Nat),
      State.execAll (List.replicate k .tick) (State.resetWith c d p) = .next t ∧
      t.clk.ms = BitVec.ofNat 32 m ∧ m = k * c.fracInc / c.fracDen ∧ t.clk.frac = k * c.fracInc % c.fracDen ∧
      (c.hasFine = true → t.clk.ovf = BitVec.ofNat 32 k) ∧
      m * c.fracDen ≤ k * c.fracInc ∧ k * c.fracInc < (m + 1) * c.fracDen

/-- R19: reset establishes `frac < FRAC_DEN` and a TICK keeps it when `1 ≤ FRAC_INC ≤ FRAC_DEN`, and `CLK.ms` increases by 0
or 1 as a ring value. -/
def Obligations.TickKeepsTheAccumulatorBelowTheDenominator : Prop :=
  (∀ (c : Config) (d : ResetDraw) (p : List Line), 1 ≤ c.fracDen → (State.resetWith c d p).clk.frac < c.fracDen) ∧
  ∀ s : State, 1 ≤ s.cfg.fracInc → s.cfg.fracInc ≤ s.cfg.fracDen → s.clk.frac < s.cfg.fracDen →
    ∃ t : State, exec .tick s = .next t ∧ t.clk.frac < t.cfg.fracDen ∧
      (t.clk.ms = s.clk.ms ∨ t.clk.ms = s.clk.ms + 1) ∧
      (s.clk.ms = 0xFFFFFFFF → t.clk.ms ≠ s.clk.ms → t.clk.ms = 0)

/-- MILLIS (R84): the whole counter, and nothing changes, the suppression flag included. -/
def Obligations.MillisAnswersTheWholeCounter : Prop :=
  ∀ s : State,
    decode s.cfg 0x4100 = .ok .millis ∧
    exec .millis s = .next { s with resp := some { status := .ok, word := s.clk.ms } }

/-- R85: over any run of commands the wrap-safe difference of two MILLIS answers is the number of advances of `CLK.ms`
between them, for fewer than 2^32 advances. -/
def Obligations.WrapSafeDifferenceCountsTheAdvances : Prop :=
  ∀ (s t : State) (is : List Instr), State.execAll is s = .next t →
    ∃ t1 t2 : Word,
      exec .millis s = .next { s with resp := some { status := .ok, word := t1 } } ∧
      exec .millis t = .next { t with resp := some { status := .ok, word := t2 } } ∧
      (wsub32 t2 t1).toNat = Clock.advances s.cfg is s.clk % 2 ^ 32 ∧
      (Clock.advances s.cfg is s.clk < 2 ^ 32 → (wsub32 t2 t1).toNat = Clock.advances s.cfg is s.clk)

/-- MICROS (R86), phase A: the whole overflow counter is latched in the issuing context, no response is delivered, nothing
else changes; without `HAS_FINE` it is refused (R93). -/
def Obligations.MicrosPhaseALatchesTheOverflowCount : Prop :=
  ∀ s : State, s.latch = none →
    (s.cfg.hasFine = true → decode s.cfg 0x4200 = .ok .micros ∧
      exec .micros s = .next { s.setThread { s.thread with latch := some s.clk.ovf } with resp := none }) ∧
    (s.cfg.hasFine = false → decode s.cfg 0x4200 = .error .noFineTime ∧
      exec .micros s = .next { s with resp := some { status := .illegal, word := 0 } })

/-- MICROS (R86, R87), phase B: the answer is `(o * PERIOD + c) * SCALE` modulo 2^32, `o` from phase A, for some
`c` in `[0, PERIOD - 1]`, which is `TMR.cnt` when the timer is coupled; nothing is carried any more, and no register of the
block, of the contexts or of the environment changes. -/
def Obligations.MicrosPhaseBAnswersTheFineTime : Prop :=
  ∀ (s : State) (o : Word),
    s.cfg.hasFine = true → 1 ≤ s.cfg.period → s.tmrCnt < s.cfg.period → s.latch = some o →
    ∃ (c k : Nat),
      c < s.cfg.period ∧ (s.cfg.timer = .coupled → c = s.tmrCnt) ∧
      exec .micros s = .next { s.setThread { s.thread with latch := none } with
        resp := some { status := .ok, word := BitVec.ofNat 32 ((o.toNat * s.cfg.period + c) * s.cfg.scale) }
        draws := k }

/-- R88: an answer made of an overflow count one less than the counter's reading belongs to is too small by
`PERIOD * SCALE`: `T` is the true number of counter increments when phase B reads the coupled counter. -/
def Obligations.MicrosRaceIsShortByOneOverflowPeriod : Prop :=
  ∀ (s : State) (T : Nat),
    s.cfg.hasFine = true → 1 ≤ s.cfg.period → s.cfg.timer = .coupled →
    s.cfg.period ≤ T → s.tmrCnt = T % s.cfg.period → s.latch = some (BitVec.ofNat 32 (T / s.cfg.period - 1)) →
    ∃ (t : State) (v : Word),
      exec .micros s = .next t ∧ t.resp = some { status := .ok, word := v } ∧
      v + BitVec.ofNat 32 (s.cfg.period * s.cfg.scale) = BitVec.ofNat 32 (T * s.cfg.scale)

/-- R89: with no overflow unserved, the answer is `T * SCALE` modulo 2^32, `T` the counter increments since reset; and two
such answers have a correct wrap-safe difference. -/
def Obligations.FineTimeIsARing : Prop :=
  (∀ (s : State) (T : Nat),
    s.cfg.hasFine = true → 1 ≤ s.cfg.period → s.cfg.timer = .coupled →
    s.tmrCnt = T % s.cfg.period → s.latch = some (BitVec.ofNat 32 (T / s.cfg.period)) →
    ∃ t : State, exec .micros s = .next t ∧
      t.resp = some { status := .ok, word := BitVec.ofNat 32 (T * s.cfg.scale) }) ∧
  ∀ (T T' scale : Nat), T ≤ T' → (T' - T) * scale < 2 ^ 32 →
    (wsub32 (BitVec.ofNat 32 (T' * scale)) (BitVec.ofNat 32 (T * scale))).toNat = (T' - T) * scale

/-- What the clock's operations leave unchanged: TICK changes only `CLK`, MILLIS nothing, MICROS only what its issuing context
carries (R40, R42); no storage cell, no FIFO, no stopwatch, nothing of `CTX`. -/
def Obligations.ClockOperationsChangeOnlyTheClock : Prop :=
  ∀ (s t : State) (o : Instr), (o = .tick ∨ o = .millis ∨ o = .micros) → exec o s = .next t →
    t.cfg = s.cfg ∧ t.fifos = s.fifos ∧ t.sws = s.sws ∧ t.ctx = s.ctx ∧ t.tmrCnt = s.tmrCnt ∧ t.uartRx = s.uartRx ∧
    t.outputs = s.outputs ∧ t.sched = s.sched ∧ (o ≠ .tick → t.clk = s.clk) ∧
    (o ≠ .micros → t.normal = s.normal ∧ t.handler = s.handler ∧ t.draws = s.draws) ∧
    (s.ctx.inHandler = true → t.normal = s.normal) ∧ (s.ctx.inHandler = false → t.handler = s.handler) ∧
    t.thread.todo = s.thread.todo ∧ t.thread.saved = s.thread.saved

/-! ## The stopwatch -/

/-- SW_INIT (R98): resolution, accumulator and running flag; `S.last` and everything else as it was; `FINE` refused without
`HAS_FINE`, and `rr = 3` is no instruction. -/
def Obligations.SwInitSetsResolutionAndClears : Prop :=
  ∀ (s : State) (j : BitVec 2) (r : Resolution) (w : Stopwatch), s.sws[j.toNat]? = some w →
    ((r = .fine → s.cfg.hasFine = true) → exec (.swInit j r) s =
      .next { s with sws := s.sws.set j.toNat { res := r, acc := 0, last := w.last, running := false },
                     resp := some { status := .ok, word := 0 } }) ∧
    (r = .fine → s.cfg.hasFine = false → exec (.swInit j r) s =
      .next { s with resp := some { status := .illegal, word := 0 } }) ∧
    ∀ i : Instr, decode s.cfg (packWord 2 j.toNat 0 3) ≠ .ok i

/-- SW_START and SW_RESET (R99, R103) on a `MILLI` or `SECOND` stopwatch: one step, `S.last` the millisecond counter. -/
def Obligations.SwStartAndSwResetSampleTheMilliseconds : Prop :=
  ∀ (s : State) (j : BitVec 2) (w : Stopwatch), s.sws[j.toNat]? = some w → w.res ≠ .fine → s.latch = none →
    exec (.swStart j) s =
      .next { s with sws := s.sws.set j.toNat { w with running := true, last := s.clk.ms },
                     resp := some { status := .ok, word := 0 } } ∧
    exec (.swReset j) s =
      .next { s with sws := s.sws.set j.toNat { w with acc := 0, last := s.clk.ms },
                     resp := some { status := .ok, word := 0 } }

/-- R97, R99, R103 on a `FINE` stopwatch: phase A latches the overflow counter and changes no register; phase B samples the
counter, updates the stopwatch with the fine time, and answers. -/
def Obligations.FineSwStartAndSwResetHaveTwoPhases : Prop :=
  ∀ (s : State) (j : BitVec 2) (w : Stopwatch), s.sws[j.toNat]? = some w → w.res = .fine →
    (s.latch = none →
      exec (.swStart j) s = .next { s.setThread { s.thread with latch := some s.clk.ovf } with resp := none } ∧
      exec (.swReset j) s = .next { s.setThread { s.thread with latch := some s.clk.ovf } with resp := none }) ∧
    ∀ o : Word, s.latch = some o → 1 ≤ s.cfg.period → s.tmrCnt < s.cfg.period →
      ∃ (c k : Nat) (v : Word),
        c < s.cfg.period ∧ (s.cfg.timer = .coupled → c = s.tmrCnt) ∧
        v = BitVec.ofNat 32 ((o.toNat * s.cfg.period + c) * s.cfg.scale) ∧
        exec (.swStart j) s = .next { s.setThread { s.thread with latch := none } with
          sws := s.sws.set j.toNat { w with running := true, last := v },
          resp := some { status := .ok, word := 0 }, draws := k } ∧
        exec (.swReset j) s = .next { s.setThread { s.thread with latch := none } with
          sws := s.sws.set j.toNat { w with acc := 0, last := v },
          resp := some { status := .ok, word := 0 }, draws := k }

/-- SW_STOP (R100): only the running flag; the time since the last poll is not added. -/
def Obligations.SwStopClearsOnlyTheRunningFlag : Prop :=
  ∀ (s : State) (j : BitVec 2) (w : Stopwatch), s.sws[j.toNat]? = some w →
    exec (.swStop j) s =
      .next { s with sws := s.sws.set j.toNat { w with running := false }, resp := some { status := .ok, word := 0 } }

/-- R101 (a), R102, R105: a stopped stopwatch is frozen: SW_POLL and SW_ELAPSED read no clock and write nothing, and
SW_ELAPSED answers the accumulator. -/
def Obligations.StoppedStopwatchIsFrozen : Prop :=
  ∀ (s : State) (j : BitVec 2) (w : Stopwatch), s.sws[j.toNat]? = some w → w.running = false → s.latch = none →
    exec (.swPoll j) s = .next { s with resp := some { status := .ok, word := 0 } } ∧
    exec (.swElapsed j) s = .next { s with resp := some { status := .ok, word := w.acc } }

/-- SW_POLL (R101) of a running `MILLI` stopwatch, and SW_ELAPSED (R102): the wrap-safe delta is added to the accumulator and
`S.last` becomes the current reading. -/
def Obligations.MilliPollCommitsTheWrapSafeDelta : Prop :=
  ∀ (s : State) (j : BitVec 2) (w : Stopwatch),
    s.sws[j.toNat]? = some w → w.running = true → w.res = .milli → s.latch = none →
    exec (.swPoll j) s =
      .next { s with sws := s.sws.set j.toNat { w with acc := w.acc + (s.clk.ms - w.last), last := s.clk.ms },
                     resp := some { status := .ok, word := 0 } } ∧
    exec (.swElapsed j) s =
      .next { s with sws := s.sws.set j.toNat { w with acc := w.acc + (s.clk.ms - w.last), last := s.clk.ms },
                     resp := some { status := .ok, word := w.acc + (s.clk.ms - w.last) } }

/-- SW_POLL and SW_ELAPSED (R101 (c), (d), R102) of a running `SECOND` stopwatch: whole seconds are committed and `S.last`
advances by them, so that the remainder, below 1000 ms, is carried. -/
def Obligations.SecondPollCommitsWholeSecondsAndCarriesTheRest : Prop :=
  ∀ (s : State) (j : BitVec 2) (w : Stopwatch),
    s.sws[j.toNat]? = some w → w.running = true → w.res = .second → s.latch = none →
    ∃ w' : Stopwatch,
      w'.acc = w.acc + BitVec.ofNat 32 ((s.clk.ms - w.last).toNat / 1000) ∧
      w'.last = w.last + BitVec.ofNat 32 ((s.clk.ms - w.last).toNat / 1000 * 1000) ∧
      w'.res = .second ∧ w'.running = true ∧
      (s.clk.ms - w'.last).toNat = (s.clk.ms - w.last).toNat % 1000 ∧
      exec (.swPoll j) s =
        .next { s with sws := s.sws.set j.toNat w', resp := some { status := .ok, word := 0 } } ∧
      exec (.swElapsed j) s =
        .next { s with sws := s.sws.set j.toNat w', resp := some { status := .ok, word := w'.acc } }

/-- R97, R101, R102 on a running `FINE` stopwatch: phase A latches, phase B commits the wrap-safe delta of the fine time. -/
def Obligations.FinePollHasTwoPhases : Prop :=
  ∀ (s : State) (j : BitVec 2) (w : Stopwatch),
    s.sws[j.toNat]? = some w → w.running = true → w.res = .fine →
    (s.latch = none →
      exec (.swPoll j) s = .next { s.setThread { s.thread with latch := some s.clk.ovf } with resp := none } ∧
      exec (.swElapsed j) s = .next { s.setThread { s.thread with latch := some s.clk.ovf } with resp := none }) ∧
    ∀ o : Word, s.latch = some o → 1 ≤ s.cfg.period → s.tmrCnt < s.cfg.period →
      ∃ (c k : Nat) (v : Word),
        c < s.cfg.period ∧ (s.cfg.timer = .coupled → c = s.tmrCnt) ∧
        v = BitVec.ofNat 32 ((o.toNat * s.cfg.period + c) * s.cfg.scale) ∧
        exec (.swPoll j) s = .next { s.setThread { s.thread with latch := none } with
          sws := s.sws.set j.toNat { w with acc := w.acc + (v - w.last), last := v },
          resp := some { status := .ok, word := 0 }, draws := k } ∧
        exec (.swElapsed j) s = .next { s.setThread { s.thread with latch := none } with
          sws := s.sws.set j.toNat { w with acc := w.acc + (v - w.last), last := v },
          resp := some { status := .ok, word := w.acc + (v - w.last) }, draws := k }

/-- R104: the two branches of the wrap detection are the wrap-safe subtraction, and the expression a 32-bit machine can
evaluate gives the same. -/
def Obligations.WrapDetectionIsWrapSafeSubtraction : Prop :=
  ∀ last now : Word,
    wrapDelta last now = (wsub32 now last).toNat ∧
    wrapDelta last now = imod ((now.toNat : Int) - (last.toNat : Int)) (2 ^ 32) ∧
    (last.toNat > now.toNat → wsub32 now last = now + (0xFFFFFFFF - last) + 1)

/-- R106 and R153: in a run of any commands but those that set STOPWATCH `j` up anew, `j` running from before it, accumulated
time and unpolled time together advance by the advances of `CLK.ms`: always modulo 2^32 (for `SECOND`, an accumulated second
counts 1000), and, where `j` is polled before 2^32 ms are unpolled, on integers: for `MILLI` the deltas committed and what is
unpolled at the end are what was unpolled at the beginning and the advances; for `SECOND`, while `S.acc` does not wrap
(R107), `S.acc * 1000` and what is unpolled grow by the advances. (A `SECOND` poll leaves up to 999 ms unpolled, which count
towards the 2^32: after such a poll R106's equation needs the next one that much earlier than R106's words say.) -/
def Obligations.PolledStopwatchLosesNoMillisecond : Prop :=
  ∀ (s t : State) (j : BitVec 2) (w : Stopwatch) (is : List Instr),
    s.sws[j.toNat]? = some w → w.running = true → w.res ≠ .fine → s.latch = none →
    (∀ i ∈ is, ¬ Instr.SetsUp j i) → State.completeAll is s = .next t →
    ∃ w' : Stopwatch, t.sws[j.toNat]? = some w' ∧ w'.running = true ∧ w'.res = w.res ∧
      (w.res = .milli →
        w'.acc = w.acc + BitVec.ofNat 32 (State.pollDeltas j is s) ∧
        w'.acc + (t.clk.ms - w'.last) =
          w.acc + (s.clk.ms - w.last) + BitVec.ofNat 32 (Clock.advances s.cfg is s.clk)) ∧
      (w.res = .second →
        w'.acc * 1000 + (t.clk.ms - w'.last) =
          w.acc * 1000 + (s.clk.ms - w.last) + BitVec.ofNat 32 (Clock.advances s.cfg is s.clk)) ∧
      (Clock.PolledInTime s.cfg j w.res is s.clk (s.clk.ms - w.last).toNat →
        (w.res = .milli →
          State.pollDeltas j is s + (t.clk.ms - w'.last).toNat =
            (s.clk.ms - w.last).toNat + Clock.advances s.cfg is s.clk) ∧
        (w.res = .second →
          w.acc.toNat * 1000 + (s.clk.ms - w.last).toNat + Clock.advances s.cfg is s.clk < 2 ^ 32 * 1000 →
          w'.acc.toNat * 1000 + (t.clk.ms - w'.last).toNat =
            w.acc.toNat * 1000 + (s.clk.ms - w.last).toNat + Clock.advances s.cfg is s.clk))

/-- What the six stopwatch operations leave unchanged: every FIFO and storage cell, the clock, `CTX`, every other stopwatch,
the environment; `S.res` but for SW_INIT (R20, R40). -/
def Obligations.StopwatchOperationsChangeOnlyTheirInstance : Prop :=
  ∀ (s t : State) (j : BitVec 2) (o : Instr),
    (o = .swStart j ∨ o = .swStop j ∨ o = .swPoll j ∨ o = .swElapsed j ∨ o = .swReset j ∨ ∃ r, o = .swInit j r) →
    exec o s = .next t →
      t.cfg = s.cfg ∧ t.fifos = s.fifos ∧ t.clk = s.clk ∧ t.ctx = s.ctx ∧ t.tmrCnt = s.tmrCnt ∧ t.uartRx = s.uartRx ∧
      t.outputs = s.outputs ∧ t.sched = s.sched ∧ t.sws.length = s.sws.length ∧
      (∀ k, k ≠ j.toNat → t.sws[k]? = s.sws[k]?) ∧
      (∀ w w' : Stopwatch, s.sws[j.toNat]? = some w → t.sws[j.toNat]? = some w' →
        ((∀ r, o ≠ .swInit j r) → w'.res = w.res) ∧
        (o = .swStop j → w'.acc = w.acc ∧ w'.last = w.last) ∧
        (o = .swStart j → w'.acc = w.acc) ∧
        (o = .swPoll j ∨ o = .swElapsed j ∨ o = .swReset j → w'.running = w.running)) ∧
      (s.ctx.inHandler = true → t.normal = s.normal) ∧ (s.ctx.inHandler = false → t.handler = s.handler) ∧
      t.thread.todo = s.thread.todo ∧ t.thread.saved = s.thread.saved

/-! ## The context operations -/

/-- IRQ_SUPPRESS (R112) and IRQ_RESTORE (R113, R116): the flag's old value and its new one, nothing else; in a handler
IRQ_RESTORE 0 is the fault. -/
def Obligations.SuppressAndRestoreTheInterruptFlag : Prop :=
  ∀ s : State,
    decode s.cfg 0xC000 = .ok .irqSuppress ∧ decode s.cfg 0xC100 = .ok (.irqRestore false) ∧
    decode s.cfg 0xC101 = .ok (.irqRestore true) ∧
    exec .irqSuppress s =
      .next { s with ctx := { s.ctx with irqSuppressed := true }
                     resp := some { status := .ok, word := if s.ctx.irqSuppressed then 1 else 0 } } ∧
    exec (.irqRestore true) s =
      .next { s with ctx := { s.ctx with irqSuppressed := true }, resp := some { status := .ok, word := 0 } } ∧
    (s.ctx.inHandler = false → exec (.irqRestore false) s =
      .next { s with ctx := { s.ctx with irqSuppressed := false }, resp := some { status := .ok, word := 0 } }) ∧
    (s.ctx.inHandler = true → exec (.irqRestore false) s = .fault .handlerEnabledInterrupts)

/-- R115: after any properly nested sequence of critical sections, commands of the FIFO, CLOCK and STOPWATCH units inside and
between them, the flag is as it was, whatever events, counter increments and handlers fall into the sequence: each
IRQ_RESTORE puts back what its IRQ_SUPPRESS found (R114). First: so it is wherever a run has brought the normal context to
`rest` with no handler running. Second: every run gets there, unless a PEEK in the sequence finds its FIFO empty and stops
the machine; with nothing scheduled, all of `CTX` is then as it was. -/
def Obligations.NestedCriticalSectionsRestoreTheFlag : Prop :=
  ∀ (s : State) (ls rest : List Line),
    Nested ls → s.cfg.legal = true → (∀ d p, .reset d p ∉ s.sched) → s.ctx.inHandler = false →
    s.normal.latch = none → s.normal.todo = ls ++ rest →
    (∀ (k : Nat) (t : State), State.steps k s = .next t → t.ctx.inHandler = false → t.normal.todo = rest →
      t.ctx.irqSuppressed = s.ctx.irqSuppressed ∧ t.normal.saved = s.normal.saved) ∧
    ((∃ (k : Nat) (t : State), State.steps k s = .next t ∧ t.ctx.inHandler = false ∧
        t.ctx.irqSuppressed = s.ctx.irqSuppressed ∧ t.normal = { s.normal with todo := rest } ∧
        (s.sched = [] → t.ctx = s.ctx)) ∨
      ((∃ k, State.steps k s = .fault .peekEmpty) ∧
        ∃ w i, .command w ∈ ls ∧ decode s.cfg w = .ok (.peek i)))

/-- R18, R20, R21, R14 ("written by"): which commands can change which registers. -/
def Obligations.OnlyTheirCommandsWriteTheRegisters : Prop :=
  ∀ (s t : State) (o : Instr), exec o s = .next t →
    (o ≠ .tick → t.clk = s.clk) ∧
    ((∀ i b, o ≠ .add i b) → (∀ i, o ≠ .remove i) → t.fifos = s.fifos) ∧
    (o ≠ .irqSuppress → (∀ f, o ≠ .irqRestore f) → t.ctx.irqSuppressed = s.ctx.irqSuppressed) ∧
    t.ctx.inHandler = s.ctx.inHandler ∧ t.ctx.pending = s.ctx.pending ∧
    t.cfg = s.cfg ∧ t.tmrCnt = s.tmrCnt ∧ t.uartRx = s.uartRx ∧ t.outputs = s.outputs ∧ t.sched = s.sched ∧
    ((∀ j r, o ≠ .swInit j r) → ∀ (k : Nat) (w w' : Stopwatch),
      s.sws[k]? = some w → t.sws[k]? = some w' → w'.res = w.res)

/-! ## Interrupts, contexts and the environment -/

/-- R123: handler entry, where its condition holds: the pending bit cleared, the two flags set, the source's body next, and
nothing of the FIFO, CLOCK or STOPWATCH state or of the normal context changed. That the RXC body's byte is the one in the
receive register at entry is the model's choice (assumption log 12): R124 reads it in the body. -/
def Obligations.HandlerEntryMasksAndClearsPending : Prop :=
  ∀ (s : State) (src : Source) (ms : List Move),
    s.cfg.legal = true → s.sched = .enter src :: ms → s.ctx.irqSuppressed = false → s.ctx.inHandler = false →
    s.ctx.pending.get src = true →
    ∃ t : State, step s = .next t ∧
      t.ctx.inHandler = true ∧ t.ctx.irqSuppressed = true ∧ t.ctx.pending.get src = false ∧
      (∀ src', src' ≠ src → t.ctx.pending.get src' = s.ctx.pending.get src') ∧
      t.handler = { todo := src.body s.uartRx, latch := none, saved := [] } ∧
      t.fifos = s.fifos ∧ t.clk = s.clk ∧ t.sws = s.sws ∧ t.normal = s.normal ∧ t.tmrCnt = s.tmrCnt ∧
      t.uartRx = s.uartRx ∧ t.outputs = s.outputs ∧ t.sched = ms ∧ t.cfg = s.cfg ∧ t.draws = s.draws ∧ t.resp = none

/-- R123, R128, R129: only an entry move goes from no handler to a handler, with interrupts unsuppressed and its source
pending; and an entry move for which R123's condition fails (interrupts suppressed, a handler running, the source not pending)
enters none and changes nothing, so interrupts do not nest and no event is lost. That such a move is a step at all is the
model's choice (assumption log 23). -/
def Obligations.HandlersAreEnteredOnlyUnmaskedAndPending : Prop :=
  (∀ s t : State, step s = .next t → s.ctx.inHandler = false → t.ctx.inHandler = true →
    ∃ (src : Source) (ms : List Move),
      s.sched = .enter src :: ms ∧ s.ctx.irqSuppressed = false ∧ s.ctx.pending.get src = true) ∧
  ∀ (s : State) (src : Source) (ms : List Move), s.cfg.legal = true → s.sched = .enter src :: ms →
    s.ctx.irqSuppressed = true ∨ s.ctx.inHandler = true ∨ s.ctx.pending.get src = false →
      step s = .next { s with sched := ms, resp := none }

/-- R121: an event sets its source's pending bit whatever the flags are, and a second event leaves it at 1; nothing of the
units or the contexts changes; and a pending bit is cleared by the entry of its source's handler and, but for reset, by
nothing else: the step that clears it has R123's condition before it and a handler running after it. The one-bit flag is the
spec's general-knowledge choice (assumption log 14), the byte that a merge leaves is free (log 13). -/
def Obligations.EventsBecomePendingAndOnlyEntryClears : Prop :=
  (∀ (s t : State) (src : Source),
    step s = .next t → s.ctx.pending.get src = true → t.ctx.pending.get src = false →
    ((∃ ms, s.sched = .enter src :: ms) ∧ s.ctx.irqSuppressed = false ∧ s.ctx.inHandler = false ∧
      t.ctx.inHandler = true ∧ t.ctx.irqSuppressed = true ∧ t.handler.todo = src.body s.uartRx) ∨
    ∃ d p ms, s.sched = .reset d p :: ms) ∧
  ∀ (s : State) (e : Event) (ms : List Move), s.cfg.legal = true → s.sched = .event e :: ms →
    ∃ t : State, step s = .next t ∧
      t.ctx.pending = s.ctx.pending.put true (match e with | .tov => .tov | .rxc _ => .rxc | .dre => .dre) ∧
      t.ctx.inHandler = s.ctx.inHandler ∧ t.ctx.irqSuppressed = s.ctx.irqSuppressed ∧
      t.fifos = s.fifos ∧ t.clk = s.clk ∧ t.sws = s.sws ∧ t.normal = s.normal ∧ t.handler = s.handler ∧
      t.outputs = s.outputs ∧
      (∀ b, e = .rxc b → s.ctx.pending.rxc = false → t.uartRx = b) ∧
      (∀ b, e = .rxc b → t.uartRx = b ∨ t.uartRx = s.uartRx) ∧ ((∀ b, e ≠ .rxc b) → t.uartRx = s.uartRx)

/-- R127: a handler with nothing left to issue returns in one step: both flags cleared, the normal context as it was. -/
def Obligations.HandlerReturnUnmasks : Prop :=
  ∀ (s : State) (ms : List Move),
    s.cfg.legal = true → (s.sched = .context :: ms ∨ s.sched = [] ∧ ms = []) → s.ctx.inHandler = true →
    s.handler.todo = [] →
    step s = .next { s with ctx := { s.ctx with inHandler := false, irqSuppressed := false }
                            handler := { todo := [], latch := none, saved := [] }, sched := ms, resp := none }

/-- R46, R129: while a handler runs, no step but reset changes the normal context. -/
def Obligations.NormalContextWaitsWhileAHandlerRuns : Prop :=
  ∀ s t : State, step s = .next t → s.ctx.inHandler = true → (∀ d p ms, s.sched ≠ .reset d p :: ms) →
    t.normal = s.normal

/-- R126 with R123 and R127: a served TOV event is entry, one TICK, and return; the normal context resumes as it was. -/
def Obligations.ServedTimerOverflowTicksOnce : Prop :=
  ∀ (s : State) (ms : List Move),
    s.cfg.legal = true → s.ctx.irqSuppressed = false → s.ctx.inHandler = false → s.ctx.pending.tov = true →
    s.sched = .enter .tov :: .context :: .context :: ms →
    State.steps 3 s = .next { s with
      clk := s.clk.tick s.cfg
      ctx := { s.ctx with pending := { s.ctx.pending with tov := false } }
      handler := { todo := [], latch := none, saved := [] }, sched := ms, resp := none }

/-- R124 with R123 and R127: a served RXC event is entry, one ADD of the receive register's byte to FIFO 0, and return. That
the byte is the one the register holds at entry is the model's choice (assumption log 12). -/
def Obligations.ServedReceiveEventAddsTheByte : Prop :=
  ∀ (s : State) (ms : List Move) (n : Nat) (f : Fifo),
    s.cfg.legal = true → s.ctx.irqSuppressed = false → s.ctx.inHandler = false → s.ctx.pending.rxc = true →
    s.sched = .enter .rxc :: .context :: .context :: ms → s.FifoAt 0 n f →
    State.steps 3 s = .next { s with
      fifos := s.fifos.set 0 (f.add n s.uartRx)
      ctx := { s.ctx with pending := { s.ctx.pending with rxc := false } }
      handler := { todo := [], latch := none, saved := [] }, sched := ms, resp := none }

/-- R125 with R123 and R127: a served DRE event sends the oldest byte of FIFO 1 and removes it, or, if FIFO 1 is empty,
disables the DRE source. -/
def Obligations.ServedTransmitEventSendsTheOldestByte : Prop :=
  ∀ (s : State) (ms : List Move) (n : Nat) (f : Fifo),
    s.cfg.legal = true → s.ctx.irqSuppressed = false → s.ctx.inHandler = false → s.ctx.pending.dre = true →
    s.FifoAt 1 n f →
    (f.head ≠ f.tail →
      s.sched = .enter .dre :: .context :: .context :: .context :: .context :: ms →
      State.steps 5 s = .next { s with
        fifos := s.fifos.set 1 { f with tail := Fifo.inc n f.tail }
        ctx := { s.ctx with pending := { s.ctx.pending with dre := false } }
        handler := { todo := [], latch := none, saved := [] }, sched := ms, resp := none
        outputs := s.outputs ++ [.sent (f.storage.read f.tail.toNat)] }) ∧
    (f.head = f.tail → s.sched = .enter .dre :: .context :: .context :: ms →
      State.steps 3 s = .next { s with
        ctx := { s.ctx with pending := { s.ctx.pending with dre := false } }
        handler := { todo := [], latch := none, saved := [] }, sched := ms, resp := none
        outputs := s.outputs ++ [.dreDisabled] })

/-- R133: CounterIncrement, and the TOV event at its wrap, at any time. -/
def Obligations.CounterIncrementWrapsAndSignals : Prop :=
  ∀ (s : State) (ms : List Move), s.cfg.legal = true → s.sched = .increment :: ms →
    (s.tmrCnt = s.cfg.period - 1 → step s = .next { s with
      tmrCnt := 0, ctx := { s.ctx with pending := { s.ctx.pending with tov := true } }, sched := ms, resp := none }) ∧
    (s.tmrCnt ≠ s.cfg.period - 1 → step s = .next { s with tmrCnt := s.tmrCnt + 1, sched := ms, resp := none })

/-- R90: DELAY starts with a MILLIS, waits for `start + d` modulo 2^32, and leaves its loop exactly when a MILLIS answers the
target; each is one step of the normal context, whatever moves are still to come. -/
def Obligations.DelayLoopEndsExactlyOnEquality : Prop :=
  ∀ (s : State) (d target : Word) (rest : List Line) (ms : List Move),
    s.cfg.legal = true → (s.sched = .context :: ms ∨ s.sched = [] ∧ ms = []) → s.ctx.inHandler = false →
    (s.normal.todo = .delay d :: rest → step s = .next { s with
      normal := { s.normal with todo := .delayPoll (s.clk.ms + d) :: rest }
      sched := ms, resp := some { status := .ok, word := s.clk.ms } }) ∧
    (s.normal.todo = .delayPoll target :: rest → step s = .next { s with
      normal := { s.normal with todo := if s.clk.ms = target then rest else .delayPoll target :: rest }
      sched := ms, resp := some { status := .ok, word := s.clk.ms } })

/-- R91: DELAY_FINE's first MICROS sets the target `now + d` modulo 2^32, and a poll of its loop that answers `now` ends it
exactly when `now` is within the tolerance of the target on either side, in ring distance. Each MICROS has two steps of the
normal context (R86), whatever moves are still to come: the first latches `CLK.ovf`, answers nothing and leaves the line; the
second answers. Without fine time DELAY_FINE does not exist (R93), and that its line is then given up is the model's choice
(assumption log 17). -/
def Obligations.DelayFineLoopEndsWithinTheWindow : Prop :=
  ∀ (s : State) (l : Line) (d target : Word) (rest : List Line) (ms : List Move),
    s.cfg.legal = true → (s.sched = .context :: ms ∨ s.sched = [] ∧ ms = []) → s.ctx.inHandler = false →
    (l = .delayFine d ∨ l = .delayFinePoll target) → s.normal.todo = l :: rest →
    (s.cfg.hasFine = true → s.normal.latch = none →
      step s = .next { s with normal := { s.normal with latch := some s.clk.ovf }, sched := ms, resp := none }) ∧
    (∀ o : Word, s.cfg.hasFine = true → s.tmrCnt < s.cfg.period → s.normal.latch = some o →
      ∃ (c k : Nat) (now : Word) (todo : List Line),
        c < s.cfg.period ∧ (s.cfg.timer = .coupled → c = s.tmrCnt) ∧
        now = BitVec.ofNat 32 ((o.toNat * s.cfg.period + c) * s.cfg.scale) ∧
        step s = .next { s with
          normal := { s.normal with todo := todo, latch := none }
          sched := ms, resp := some { status := .ok, word := now }, draws := k } ∧
        (l = .delayFine d → todo = .delayFinePoll (now + d) :: rest) ∧
        (l = .delayFinePoll target → todo =
          if (now - target).toNat ≤ s.cfg.delayFineTol ∨ (target - now).toNat ≤ s.cfg.delayFineTol then rest
          else .delayFinePoll target :: rest)) ∧
    (s.cfg.hasFine = false → step s = .next { s with
      normal := { s.normal with todo := rest }, sched := ms, resp := some { status := .illegal, word := 0 } })

/-! ## The step -/

/-- When the word at the port decodes to an instruction, the step is `exec` of it at the state with the move taken and no
response standing; after an answer the issuing context goes on past the line, and without one the line stays for phase B. -/
def Obligations.StepRunsTheDecodedInstruction : Prop :=
  ∀ (s : State) (w : CmdWord) (i : Instr) (rest : List Line) (ms : List Move),
    s.cfg.legal = true → (s.sched = .context :: ms ∨ s.sched = [] ∧ ms = []) →
    s.thread.todo = .command w :: rest → decode s.cfg w = .ok i →
    step s =
      match exec i { s with sched := ms, resp := none } with
      | .next t =>
        match t.resp with
        | some _ => .next (t.setThread { t.thread with todo := rest })
        | none => .next t
      | .fault e => .fault e
      | .refused e => .refused e

/-- R6, R118: a configuration outside the legal ranges has no meaning. -/
def Obligations.IllegalParametersAreRefused : Prop :=
  ∀ s : State, s.cfg.legal = false → step s = .refused .badParameters
end

