-- ==== Sys2Proof/Laws/Clock.lean ====
section
/-! SUPPORT. The laws of the clock's update, of the wrap detection and of fine time (41_clock.md R82, R86, 42_stopwatch.md
R101, R104). -/

namespace Sys2Proof.Machine

theorem trunc32_toNat (v : Nat) : (trunc32 v).toNat = v % 2 ^ 32 := by simp [trunc32]

theorem trunc32_add (a b : Nat) : trunc32 (a + b) = trunc32 a + trunc32 b := by simp [trunc32, BitVec.ofNat_add]

@[simp] theorem trunc32_of_toNat (w : Word) : trunc32 w.toNat = w := by simp [trunc32]

/-- The two branches of the wrap detection are the wrap-safe subtraction (R104). -/
theorem wrapDelta_eq (last now : Word) : wrapDelta last now = (wsub32 now last).toNat := by
  have := last.isLt; have := now.isLt
  unfold wrapDelta wsub32
  rw [BitVec.toNat_sub]
  split_ifs <;> omega

/-- TICK's accumulator: it stays below the denominator and crosses at most once (R19, R82 (b)). -/
theorem Clock.tick_frac {c : Config} {k : Clock} (hk : k.frac < c.fracDen) (hc : c.fracInc ≤ c.fracDen) :
    (k.tick c).frac < c.fracDen := by
  unfold Clock.tick
  by_cases h : k.frac + c.fracInc ≥ c.fracDen
  · simp only [h, if_true]; omega
  · simp only [h, if_false]; omega

/-- TICK's millisecond counter: it advances by one exactly when the accumulator crosses. -/
theorem Clock.tick_ms (c : Config) (k : Clock) :
    (k.tick c).ms = k.ms + trunc32 (k.crossing c) := by
  unfold Clock.tick Clock.crossing
  by_cases h : k.frac + c.fracInc ≥ c.fracDen <;> simp only [h, if_true, if_false, trunc32_add, trunc32_of_toNat]
  exact (BitVec.add_zero _).symm

theorem Clock.tick_ovf (c : Config) (k : Clock) :
    (k.tick c).ovf = if c.hasFine then k.ovf + 1 else k.ovf := by
  unfold Clock.tick
  by_cases h : k.frac + c.fracInc ≥ c.fracDen <;> simp only [h, if_true, if_false, trunc32_add, trunc32_of_toNat] <;> rfl

/-- Fine time in 32-bit arithmetic. -/
theorem fineTime_eq (c : Config) (o : Word) (k : Nat) :
    fineTime c o k = (o * trunc32 c.period + trunc32 k) * trunc32 c.scale := by
  apply BitVec.eq_of_toNat_eq
  simp [fineTime, trunc32, BitVec.toNat_mul, BitVec.toNat_add, Nat.mul_mod, Nat.add_mod]

/-- What a commit leaves alone. -/
@[simp] theorem Stopwatch.commit_res (v : Word) (w : Stopwatch) : (w.commit v).res = w.res := by
  unfold Stopwatch.commit; cases h : w.res <;> simp

@[simp] theorem Stopwatch.commit_running (v : Word) (w : Stopwatch) : (w.commit v).running = w.running := by
  unfold Stopwatch.commit; cases w.res <;> rfl

/-- A commit of a stopwatch that counts units of the clock (R101, R104). -/
theorem Stopwatch.commit_unit {w : Stopwatch} (v : Word) (h : w.res ≠ .second) :
    w.commit v = { w with acc := w.acc + (v - w.last), last := v } := by
  unfold Stopwatch.commit
  cases hr : w.res <;> first | exact absurd hr h | simp [wrapDelta_eq, wsub32, trunc32_add, -BitVec.toNat_sub]

/-- A commit of a `SECOND` stopwatch (R101, R104): whole seconds, the remainder left unpolled. -/
theorem Stopwatch.commit_second {w : Stopwatch} (v : Word) (h : w.res = .second) :
    w.commit v = { w with acc := w.acc + trunc32 ((v - w.last).toNat / 1000)
                          last := w.last + trunc32 ((v - w.last).toNat / 1000 * 1000) } := by
  simp [Stopwatch.commit, h, wrapDelta_eq, wsub32, trunc32_add, -BitVec.toNat_sub]

/-- A poll in time finds less than the wrap period unpolled, from the first. -/
theorem Clock.PolledInTime.lt {c : Config} {j : BitVec 2} {r : Resolution} :
    ∀ {is : List Instr} {k : Clock} {u : Nat}, Clock.PolledInTime c j r is k u → u < 2 ^ 32
  | [], _, _, h => h
  | i :: is, k, u, h => by
    unfold Clock.PolledInTime at h
    split_ifs at h
    · exact Nat.lt_of_le_of_lt (Nat.le_add_right _ _) (Clock.PolledInTime.lt h)
    · exact h.1
    · exact Clock.PolledInTime.lt h

end Sys2Proof.Machine
end

