-- ==== Sys2Proof/Laws/Encoding.lean ====
section
/-! SUPPORT. The laws of the command word's fields (30_encoding.md R50): a packed word has the fields it was packed from, and
every word is the packing of its fields. -/

namespace Sys2Proof

theorem packWord_toNat {u k o a : Nat} (hu : u < 4) (hk : k < 4) (ho : o < 16) (ha : a < 256) :
    (packWord u k o a).toNat = u * 0x4000 + k * 0x1000 + o * 0x0100 + a := by
  simp only [packWord, BitVec.toNat_ofNat]; omega

theorem packWord_unit {u k o a : Nat} (hu : u < 4) (hk : k < 4) (ho : o < 16) (ha : a < 256) :
    (packWord u k o a).unit.toNat = u := by
  simp only [CmdWord.unit, BitVec.extractLsb'_toNat, packWord_toNat hu hk ho ha, Nat.shiftRight_eq_div_pow]; omega

theorem packWord_inst {u k o a : Nat} (hu : u < 4) (hk : k < 4) (ho : o < 16) (ha : a < 256) :
    (packWord u k o a).inst.toNat = k := by
  simp only [CmdWord.inst, BitVec.extractLsb'_toNat, packWord_toNat hu hk ho ha, Nat.shiftRight_eq_div_pow]; omega

theorem packWord_op {u k o a : Nat} (hu : u < 4) (hk : k < 4) (ho : o < 16) (ha : a < 256) :
    (packWord u k o a).op.toNat = o := by
  simp only [CmdWord.op, BitVec.extractLsb'_toNat, packWord_toNat hu hk ho ha, Nat.shiftRight_eq_div_pow]; omega

theorem packWord_arg {u k o a : Nat} (hu : u < 4) (hk : k < 4) (ho : o < 16) (ha : a < 256) :
    (packWord u k o a).arg.toNat = a := by
  simp only [CmdWord.arg, BitVec.extractLsb'_toNat, packWord_toNat hu hk ho ha, Nat.shiftRight_eq_div_pow]; omega

/-- Decoding a packed word goes to its unit's table, with the fields it was packed from. -/
theorem decode_packWord (c : Config) {u o a : Nat} (k : BitVec 2) (hu : u < 4) (ho : o < 16) (ha : a < 256) :
    decode c (packWord u k.toNat o a) =
      match u with
      | 0 => decodeFifo c k (BitVec.ofNat 4 o) (BitVec.ofNat 8 a)
      | 1 => decodeClock c k (BitVec.ofNat 4 o) (BitVec.ofNat 8 a)
      | 2 => decodeStopwatch c k (BitVec.ofNat 4 o) (BitVec.ofNat 8 a)
      | _ => decodeContext k (BitVec.ofNat 4 o) (BitVec.ofNat 8 a) := by
  have hk := k.isLt
  have e2 : (packWord u k.toNat o a).inst = k := BitVec.eq_of_toNat_eq (packWord_inst hu hk ho ha)
  have e3 : (packWord u k.toNat o a).op = BitVec.ofNat 4 o :=
    BitVec.eq_of_toNat_eq (by rw [packWord_op hu hk ho ha, BitVec.toNat_ofNat]; omega)
  have e4 : (packWord u k.toNat o a).arg = BitVec.ofNat 8 a :=
    BitVec.eq_of_toNat_eq (by rw [packWord_arg hu hk ho ha, BitVec.toNat_ofNat]; omega)
  simp only [decode, packWord_unit hu hk ho ha, e2, e3, e4]
  rcases u with _ | _ | _ | u <;> rfl

/-- Every word is the packing of its four fields. -/
theorem packWord_fields (w : CmdWord) : packWord w.unit.toNat w.inst.toNat w.op.toNat w.arg.toNat = w := by
  apply BitVec.eq_of_toNat_eq
  rw [packWord_toNat w.unit.isLt w.inst.isLt w.op.isLt w.arg.isLt]
  simp only [CmdWord.unit, CmdWord.inst, CmdWord.op, CmdWord.arg, BitVec.extractLsb'_toNat, Nat.shiftRight_eq_div_pow]
  have := w.isLt
  omega

theorem decodeNoArg_ok {a : Byte} {i j : Instr} (h : decodeNoArg a i = .ok j) : a = 0 ∧ i = j := by
  unfold decodeNoArg at h; split_ifs at h with ha; exact ⟨ha, by cases h; rfl⟩

end Sys2Proof
end

