-- ==== Sys2Proof/Laws/Memory.lean ====
section
/-! SUPPORT. The laws of a FIFO's storage: reads after writes, and the canonical form kept (20_memory.md R36, R37). -/

namespace Sys2Proof.Machine

theorem Memory.wfFrom_mono {lo lo' : Nat} {m : Memory} (h : lo' ≤ lo) (hm : Memory.wfFrom lo m = true) :
    Memory.wfFrom lo' m = true := by
  cases m with
  | nil => rfl
  | cons cell m => simp [Memory.wfFrom] at hm ⊢; exact ⟨⟨by omega, hm.1.2⟩, hm.2⟩

/-- Below the first index of a canonical storage nothing is listed. -/
theorem Memory.read_of_lt {lo a : Nat} {m : Memory} (hm : Memory.wfFrom lo m = true) (h : a < lo) :
    m.read a = Memory.unlisted := by
  induction m generalizing lo with
  | nil => rfl
  | cons cell m ih =>
    simp [Memory.wfFrom] at hm
    rw [Memory.read, if_neg (by omega)]
    exact ih hm.2 (by omega)

/-- A write leaves every other cell alone. -/
theorem Memory.read_write_other {a b : Nat} (v : Byte) (m : Memory) (h : a ≠ b) :
    (m.write b v).read a = m.read a := by
  induction m with
  | nil => simp only [Memory.write]; split <;> simp [Memory.read, h]
  | cons cell m ih => simp only [Memory.write]; split_ifs <;> simp_all [Memory.read]

theorem Memory.wfFrom_write {lo a : Nat} {m : Memory} (v : Byte) (hm : Memory.wfFrom lo m = true) (h : lo ≤ a) :
    Memory.wfFrom lo (m.write a v) = true := by
  induction m generalizing lo with
  | nil => simp only [Memory.write]; split_ifs <;> simp_all [Memory.wfFrom]
  | cons cell m ih =>
    have hm' := hm
    simp only [Memory.wfFrom, Bool.and_eq_true, decide_eq_true_eq] at hm
    simp only [Memory.write]
    split_ifs with h1 h2 h3 h4
    · exact hm'
    · simpa [Memory.wfFrom, h, h2] using ⟨⟨h1, hm.1.2⟩, hm.2⟩
    · exact Memory.wfFrom_mono (by omega) hm.2
    · subst h3; simpa [Memory.wfFrom, h, h4] using hm.2
    · simpa [Memory.wfFrom, hm.1] using ih hm.2 (by omega)

/-- A write keeps the canonical form. -/
theorem Memory.wf_write {m : Memory} (a : Nat) (v : Byte) (hm : m.wf = true) : (m.write a v).wf = true :=
  Memory.wfFrom_write v hm (Nat.zero_le a)

/-- A read after a write to the same cell gives the byte written. -/
theorem Memory.read_write_same {m : Memory} (a : Nat) (v : Byte) (hm : m.wf = true) : (m.write a v).read a = v := by
  unfold Memory.wf at hm
  generalize 0 = lo at hm
  induction m generalizing lo with
  | nil => simp only [Memory.write]; split_ifs <;> simp_all [Memory.read]
  | cons cell m ih =>
    have hm' := hm
    simp only [Memory.wfFrom, Bool.and_eq_true, decide_eq_true_eq] at hm
    simp only [Memory.write]
    split_ifs with h1 h2 h3 h4
    · rw [h2, Memory.read, if_neg (by omega)]
      exact Memory.read_of_lt hm.2 (by omega)
    · simp [Memory.read]
    · rw [h4]; exact Memory.read_of_lt hm.2 (by omega)
    · simp [Memory.read]
    · rw [Memory.read, if_neg h3]; exact ih _ hm.2

theorem Memory.below_cons (bound : Nat) (cell : Host.Cell) (m : Memory) :
    Memory.below bound (cell :: m) = true ↔ cell.1 < bound ∧ m.below bound = true := by
  simp only [Memory.below, List.all_cons, Bool.and_eq_true, decide_eq_true_eq]

/-- A write inside the cells lists no index outside them. -/
theorem Memory.below_write {m : Memory} {bound a : Nat} (v : Byte) (hm : m.below bound = true) (h : a < bound) :
    (m.write a v).below bound = true := by
  induction m with
  | nil => simp only [Memory.write]; split_ifs <;> simp [Memory.below, h]
  | cons cell m ih =>
    obtain ⟨h1, h2⟩ := (Memory.below_cons _ _ _).mp hm
    simp only [Memory.write]
    split_ifs
    · exact hm
    · exact (Memory.below_cons _ _ _).mpr ⟨h, hm⟩
    · exact h2
    · exact (Memory.below_cons _ _ _).mpr ⟨h, h2⟩
    · exact (Memory.below_cons _ _ _).mpr ⟨h1, ih h2⟩

theorem Memory.ofCells_wf (bound : Nat) (cells : List Host.Cell) : (Memory.ofCells bound cells).wf = true := by
  induction cells with
  | nil => rfl
  | cons cell cells ih => simp only [Memory.ofCells]; split_ifs <;> simp [ih, Memory.wf_write]

theorem Memory.ofCells_below (bound : Nat) (cells : List Host.Cell) : (Memory.ofCells bound cells).below bound = true := by
  induction cells with
  | nil => rfl
  | cons cell cells ih =>
    simp only [Memory.ofCells]
    split_ifs with h
    · exact Memory.below_write _ ih h
    · exact ih

end Sys2Proof.Machine
end

