-- ==== Sys2Proof/Laws/Fifo.lean ====
section
/-! SUPPORT. The laws of the FIFO's indices and of ADD and REMOVE on one instance (40_fifo.md R66, R67, R70, R72). -/

namespace Sys2Proof.Machine

theorem Config.legalCap_iff (n : Nat) : Config.legalCap n = true ↔ 1 ≤ n ∧ n ≤ 255 := by simp [Config.legalCap]

/-- `inc` on the integers its registers hold: with `M ≤ 256` nothing is lost to the width. -/
theorem Fifo.inc_toNat {n : Nat} (hn : n ≤ 255) (k : Byte) : (Fifo.inc n k).toNat = (k.toNat + 1) % (n + 1) := by
  have : (k.toNat + 1) % (n + 1) < n + 1 := Nat.mod_lt _ (by omega)
  simp [Fifo.inc, BitVec.toNat_ofNat]; omega

theorem Fifo.inc_lt {n : Nat} (hn : n ≤ 255) (k : Byte) : (Fifo.inc n k).toNat < n + 1 := by
  rw [Fifo.inc_toNat hn]; exact Nat.mod_lt _ (by omega)

/-- `inc(k) = k + 1` when `k < M - 1`, and `inc(M - 1) = 0` (R66). -/
theorem Fifo.inc_cases {n : Nat} (hn : n ≤ 255) {k : Byte} (hk : k.toNat < n + 1) :
    (k.toNat < n ∧ (Fifo.inc n k).toNat = k.toNat + 1) ∨ (k.toNat = n ∧ (Fifo.inc n k).toNat = 0) := by
  rw [Fifo.inc_toNat hn]
  rcases Nat.lt_or_ge k.toNat n with h | h
  · exact .inl ⟨h, Nat.mod_eq_of_lt (by omega)⟩
  · have : k.toNat = n := by omega
    exact .inr ⟨this, by rw [this, Nat.mod_self]⟩

/-- The two cases of R67. -/
theorem Fifo.cnt_eq {n : Nat} {f : Fifo} (h : f.IndicesOk n) :
    f.cnt n = if f.tail.toNat ≤ f.head.toNat then f.head.toNat - f.tail.toNat else f.head.toNat + (n + 1) - f.tail.toNat := by
  have := h.head; have := h.tail
  unfold Fifo.cnt imod
  split_ifs with hle
  · rw [Int.emod_eq_of_lt (by omega) (by omega)]; omega
  · rw [← Int.add_emod_right, Int.emod_eq_of_lt (by omega) (by omega)]; omega

theorem Fifo.cnt_le {n : Nat} {f : Fifo} (h : f.IndicesOk n) : f.cnt n ≤ n := by
  have := h.head; have := h.tail
  rw [Fifo.cnt_eq h]; split_ifs <;> omega

theorem Fifo.isEmpty_iff (f : Fifo) : f.isEmpty = true ↔ f.head = f.tail := by simp [Fifo.isEmpty]

theorem Fifo.Ok.cap_le {n : Nat} {f : Fifo} (h : f.Ok n) : n ≤ 255 := ((Config.legalCap_iff n).mp h.cap).2

/-- ADD leaves a FIFO as a run can leave it. -/
theorem Fifo.add_ok {n : Nat} {f : Fifo} (b : Byte) (h : f.Ok n) : (f.add n b).Ok n where
  cap := h.cap
  indices :=
    { head := Fifo.inc_lt h.cap_le _
      tail := by
        simp only [Fifo.add]; split_ifs
        · exact Fifo.inc_lt h.cap_le _
        · exact h.indices.tail }
  wf := Memory.wf_write _ _ h.wf
  below := Memory.below_write _ h.below h.indices.head

/-- REMOVE leaves a FIFO as a run can leave it. -/
theorem Fifo.remove_ok {n : Nat} {f : Fifo} (h : f.Ok n) : (f.remove n).Ok n := by
  unfold Fifo.remove
  split_ifs
  · exact ⟨h.cap, ⟨h.indices.head, Fifo.inc_lt h.cap_le _⟩, h.wf, h.below⟩
  · exact h

/-- Empty says count 0 (R67, R68). -/
theorem Fifo.head_eq_tail_iff {n : Nat} {f : Fifo} (h : f.Ok n) : f.head = f.tail ↔ f.cnt n = 0 := by
  have hh := h.indices.head
  have ht := h.indices.tail
  rw [Fifo.cnt_eq h.indices]
  constructor
  · intro e; simp [e]
  · intro e
    apply BitVec.eq_of_toNat_eq
    split_ifs at e <;> omega

/-- The index after `head` is `tail` exactly where the FIFO holds `n` bytes (R67). -/
theorem Fifo.inc_head_eq_tail_iff {n : Nat} {f : Fifo} (h : f.Ok n) : Fifo.inc n f.head = f.tail ↔ f.cnt n = n := by
  have hh := h.indices.head
  have ht := h.indices.tail
  have hc := (Config.legalCap_iff n).mp h.cap
  rw [Fifo.cnt_eq h.indices]
  constructor
  · intro e
    rw [← e] at ht ⊢
    rcases Fifo.inc_cases h.cap_le hh with ⟨_, _⟩ | ⟨_, _⟩ <;> split_ifs <;> omega
  · intro e
    apply BitVec.eq_of_toNat_eq
    rcases Fifo.inc_cases h.cap_le hh with ⟨_, _⟩ | ⟨_, _⟩ <;> split_ifs at e <;> omega

end Sys2Proof.Machine
end

