-- ==== Sys2Proof/Laws/State.lean ====
section
/-! SUPPORT. One lemma per field per update of the state, so that no proof unfolds a record update. -/

namespace Sys2Proof.Machine

@[simp] theorem State.answer_cfg (r : Response) (s : State) : (s.answer r).cfg = s.cfg := rfl
@[simp] theorem State.answer_fifos (r : Response) (s : State) : (s.answer r).fifos = s.fifos := rfl
@[simp] theorem State.answer_clk (r : Response) (s : State) : (s.answer r).clk = s.clk := rfl
@[simp] theorem State.answer_sws (r : Response) (s : State) : (s.answer r).sws = s.sws := rfl
@[simp] theorem State.answer_ctx (r : Response) (s : State) : (s.answer r).ctx = s.ctx := rfl
@[simp] theorem State.answer_tmrCnt (r : Response) (s : State) : (s.answer r).tmrCnt = s.tmrCnt := rfl
@[simp] theorem State.answer_uartRx (r : Response) (s : State) : (s.answer r).uartRx = s.uartRx := rfl
@[simp] theorem State.answer_normal (r : Response) (s : State) : (s.answer r).normal = s.normal := rfl
@[simp] theorem State.answer_handler (r : Response) (s : State) : (s.answer r).handler = s.handler := rfl
@[simp] theorem State.answer_resp (r : Response) (s : State) : (s.answer r).resp = some r := rfl
@[simp] theorem State.answer_outputs (r : Response) (s : State) : (s.answer r).outputs = s.outputs := rfl
@[simp] theorem State.answer_sched (r : Response) (s : State) : (s.answer r).sched = s.sched := rfl
@[simp] theorem State.answer_draws (r : Response) (s : State) : (s.answer r).draws = s.draws := rfl

@[simp] theorem State.respond_cfg (v : Word) (s : State) : (s.respond v).cfg = s.cfg := rfl
@[simp] theorem State.respond_fifos (v : Word) (s : State) : (s.respond v).fifos = s.fifos := rfl
@[simp] theorem State.respond_clk (v : Word) (s : State) : (s.respond v).clk = s.clk := rfl
@[simp] theorem State.respond_sws (v : Word) (s : State) : (s.respond v).sws = s.sws := rfl
@[simp] theorem State.respond_ctx (v : Word) (s : State) : (s.respond v).ctx = s.ctx := rfl
@[simp] theorem State.respond_tmrCnt (v : Word) (s : State) : (s.respond v).tmrCnt = s.tmrCnt := rfl
@[simp] theorem State.respond_uartRx (v : Word) (s : State) : (s.respond v).uartRx = s.uartRx := rfl
@[simp] theorem State.respond_normal (v : Word) (s : State) : (s.respond v).normal = s.normal := rfl
@[simp] theorem State.respond_handler (v : Word) (s : State) : (s.respond v).handler = s.handler := rfl
@[simp] theorem State.respond_resp (v : Word) (s : State) : (s.respond v).resp = some { status := .ok, word := v } := rfl
@[simp] theorem State.respond_outputs (v : Word) (s : State) : (s.respond v).outputs = s.outputs := rfl
@[simp] theorem State.respond_sched (v : Word) (s : State) : (s.respond v).sched = s.sched := rfl
@[simp] theorem State.respond_draws (v : Word) (s : State) : (s.respond v).draws = s.draws := rfl

@[simp] theorem State.refuseCommand_cfg (s : State) : (s.refuseCommand).cfg = s.cfg := rfl
@[simp] theorem State.refuseCommand_fifos (s : State) : (s.refuseCommand).fifos = s.fifos := rfl
@[simp] theorem State.refuseCommand_clk (s : State) : (s.refuseCommand).clk = s.clk := rfl
@[simp] theorem State.refuseCommand_sws (s : State) : (s.refuseCommand).sws = s.sws := rfl
@[simp] theorem State.refuseCommand_ctx (s : State) : (s.refuseCommand).ctx = s.ctx := rfl
@[simp] theorem State.refuseCommand_tmrCnt (s : State) : (s.refuseCommand).tmrCnt = s.tmrCnt := rfl
@[simp] theorem State.refuseCommand_uartRx (s : State) : (s.refuseCommand).uartRx = s.uartRx := rfl
@[simp] theorem State.refuseCommand_normal (s : State) : (s.refuseCommand).normal = s.normal := rfl
@[simp] theorem State.refuseCommand_handler (s : State) : (s.refuseCommand).handler = s.handler := rfl
@[simp] theorem State.refuseCommand_resp (s : State) : (s.refuseCommand).resp = some { status := .illegal, word := 0 } := rfl
@[simp] theorem State.refuseCommand_outputs (s : State) : (s.refuseCommand).outputs = s.outputs := rfl
@[simp] theorem State.refuseCommand_sched (s : State) : (s.refuseCommand).sched = s.sched := rfl
@[simp] theorem State.refuseCommand_draws (s : State) : (s.refuseCommand).draws = s.draws := rfl

@[simp] theorem State.setFifo_cfg (i : BitVec 2) (f : Fifo) (s : State) : (s.setFifo i f).cfg = s.cfg := rfl
@[simp] theorem State.setFifo_fifos (i : BitVec 2) (f : Fifo) (s : State) : (s.setFifo i f).fifos = s.fifos.set i.toNat f := rfl
@[simp] theorem State.setFifo_clk (i : BitVec 2) (f : Fifo) (s : State) : (s.setFifo i f).clk = s.clk := rfl
@[simp] theorem State.setFifo_sws (i : BitVec 2) (f : Fifo) (s : State) : (s.setFifo i f).sws = s.sws := rfl
@[simp] theorem State.setFifo_ctx (i : BitVec 2) (f : Fifo) (s : State) : (s.setFifo i f).ctx = s.ctx := rfl
@[simp] theorem State.setFifo_tmrCnt (i : BitVec 2) (f : Fifo) (s : State) : (s.setFifo i f).tmrCnt = s.tmrCnt := rfl
@[simp] theorem State.setFifo_uartRx (i : BitVec 2) (f : Fifo) (s : State) : (s.setFifo i f).uartRx = s.uartRx := rfl
@[simp] theorem State.setFifo_normal (i : BitVec 2) (f : Fifo) (s : State) : (s.setFifo i f).normal = s.normal := rfl
@[simp] theorem State.setFifo_handler (i : BitVec 2) (f : Fifo) (s : State) : (s.setFifo i f).handler = s.handler := rfl
@[simp] theorem State.setFifo_resp (i : BitVec 2) (f : Fifo) (s : State) : (s.setFifo i f).resp = s.resp := rfl
@[simp] theorem State.setFifo_outputs (i : BitVec 2) (f : Fifo) (s : State) : (s.setFifo i f).outputs = s.outputs := rfl
@[simp] theorem State.setFifo_sched (i : BitVec 2) (f : Fifo) (s : State) : (s.setFifo i f).sched = s.sched := rfl
@[simp] theorem State.setFifo_draws (i : BitVec 2) (f : Fifo) (s : State) : (s.setFifo i f).draws = s.draws := rfl

@[simp] theorem State.setStopwatch_cfg (j : BitVec 2) (w : Stopwatch) (s : State) : (s.setStopwatch j w).cfg = s.cfg := rfl
@[simp] theorem State.setStopwatch_fifos (j : BitVec 2) (w : Stopwatch) (s : State) : (s.setStopwatch j w).fifos = s.fifos := rfl
@[simp] theorem State.setStopwatch_clk (j : BitVec 2) (w : Stopwatch) (s : State) : (s.setStopwatch j w).clk = s.clk := rfl
@[simp] theorem State.setStopwatch_sws (j : BitVec 2) (w : Stopwatch) (s : State) : (s.setStopwatch j w).sws = s.sws.set j.toNat w := rfl
@[simp] theorem State.setStopwatch_ctx (j : BitVec 2) (w : Stopwatch) (s : State) : (s.setStopwatch j w).ctx = s.ctx := rfl
@[simp] theorem State.setStopwatch_tmrCnt (j : BitVec 2) (w : Stopwatch) (s : State) : (s.setStopwatch j w).tmrCnt = s.tmrCnt := rfl
@[simp] theorem State.setStopwatch_uartRx (j : BitVec 2) (w : Stopwatch) (s : State) : (s.setStopwatch j w).uartRx = s.uartRx := rfl
@[simp] theorem State.setStopwatch_normal (j : BitVec 2) (w : Stopwatch) (s : State) : (s.setStopwatch j w).normal = s.normal := rfl
@[simp] theorem State.setStopwatch_handler (j : BitVec 2) (w : Stopwatch) (s : State) : (s.setStopwatch j w).handler = s.handler := rfl
@[simp] theorem State.setStopwatch_resp (j : BitVec 2) (w : Stopwatch) (s : State) : (s.setStopwatch j w).resp = s.resp := rfl
@[simp] theorem State.setStopwatch_outputs (j : BitVec 2) (w : Stopwatch) (s : State) : (s.setStopwatch j w).outputs = s.outputs := rfl
@[simp] theorem State.setStopwatch_sched (j : BitVec 2) (w : Stopwatch) (s : State) : (s.setStopwatch j w).sched = s.sched := rfl
@[simp] theorem State.setStopwatch_draws (j : BitVec 2) (w : Stopwatch) (s : State) : (s.setStopwatch j w).draws = s.draws := rfl

@[simp] theorem State.setClock_cfg (c : Clock) (s : State) : (s.setClock c).cfg = s.cfg := rfl
@[simp] theorem State.setClock_fifos (c : Clock) (s : State) : (s.setClock c).fifos = s.fifos := rfl
@[simp] theorem State.setClock_clk (c : Clock) (s : State) : (s.setClock c).clk = c := rfl
@[simp] theorem State.setClock_sws (c : Clock) (s : State) : (s.setClock c).sws = s.sws := rfl
@[simp] theorem State.setClock_ctx (c : Clock) (s : State) : (s.setClock c).ctx = s.ctx := rfl
@[simp] theorem State.setClock_tmrCnt (c : Clock) (s : State) : (s.setClock c).tmrCnt = s.tmrCnt := rfl
@[simp] theorem State.setClock_uartRx (c : Clock) (s : State) : (s.setClock c).uartRx = s.uartRx := rfl
@[simp] theorem State.setClock_normal (c : Clock) (s : State) : (s.setClock c).normal = s.normal := rfl
@[simp] theorem State.setClock_handler (c : Clock) (s : State) : (s.setClock c).handler = s.handler := rfl
@[simp] theorem State.setClock_resp (c : Clock) (s : State) : (s.setClock c).resp = s.resp := rfl
@[simp] theorem State.setClock_outputs (c : Clock) (s : State) : (s.setClock c).outputs = s.outputs := rfl
@[simp] theorem State.setClock_sched (c : Clock) (s : State) : (s.setClock c).sched = s.sched := rfl
@[simp] theorem State.setClock_draws (c : Clock) (s : State) : (s.setClock c).draws = s.draws := rfl

@[simp] theorem State.setSuppressed_cfg (b : Bool) (s : State) : (s.setSuppressed b).cfg = s.cfg := rfl
@[simp] theorem State.setSuppressed_fifos (b : Bool) (s : State) : (s.setSuppressed b).fifos = s.fifos := rfl
@[simp] theorem State.setSuppressed_clk (b : Bool) (s : State) : (s.setSuppressed b).clk = s.clk := rfl
@[simp] theorem State.setSuppressed_sws (b : Bool) (s : State) : (s.setSuppressed b).sws = s.sws := rfl
@[simp] theorem State.setSuppressed_ctx (b : Bool) (s : State) : (s.setSuppressed b).ctx = { s.ctx with irqSuppressed := b } := rfl
@[simp] theorem State.setSuppressed_tmrCnt (b : Bool) (s : State) : (s.setSuppressed b).tmrCnt = s.tmrCnt := rfl
@[simp] theorem State.setSuppressed_uartRx (b : Bool) (s : State) : (s.setSuppressed b).uartRx = s.uartRx := rfl
@[simp] theorem State.setSuppressed_normal (b : Bool) (s : State) : (s.setSuppressed b).normal = s.normal := rfl
@[simp] theorem State.setSuppressed_handler (b : Bool) (s : State) : (s.setSuppressed b).handler = s.handler := rfl
@[simp] theorem State.setSuppressed_resp (b : Bool) (s : State) : (s.setSuppressed b).resp = s.resp := rfl
@[simp] theorem State.setSuppressed_outputs (b : Bool) (s : State) : (s.setSuppressed b).outputs = s.outputs := rfl
@[simp] theorem State.setSuppressed_sched (b : Bool) (s : State) : (s.setSuppressed b).sched = s.sched := rfl
@[simp] theorem State.setSuppressed_draws (b : Bool) (s : State) : (s.setSuppressed b).draws = s.draws := rfl

@[simp] theorem State.setPending_cfg (src : Source) (b : Bool) (s : State) : (s.setPending src b).cfg = s.cfg := rfl
@[simp] theorem State.setPending_fifos (src : Source) (b : Bool) (s : State) : (s.setPending src b).fifos = s.fifos := rfl
@[simp] theorem State.setPending_clk (src : Source) (b : Bool) (s : State) : (s.setPending src b).clk = s.clk := rfl
@[simp] theorem State.setPending_sws (src : Source) (b : Bool) (s : State) : (s.setPending src b).sws = s.sws := rfl
@[simp] theorem State.setPending_ctx (src : Source) (b : Bool) (s : State) : (s.setPending src b).ctx = { s.ctx with pending := s.ctx.pending.put b src } := rfl
@[simp] theorem State.setPending_tmrCnt (src : Source) (b : Bool) (s : State) : (s.setPending src b).tmrCnt = s.tmrCnt := rfl
@[simp] theorem State.setPending_uartRx (src : Source) (b : Bool) (s : State) : (s.setPending src b).uartRx = s.uartRx := rfl
@[simp] theorem State.setPending_normal (src : Source) (b : Bool) (s : State) : (s.setPending src b).normal = s.normal := rfl
@[simp] theorem State.setPending_handler (src : Source) (b : Bool) (s : State) : (s.setPending src b).handler = s.handler := rfl
@[simp] theorem State.setPending_resp (src : Source) (b : Bool) (s : State) : (s.setPending src b).resp = s.resp := rfl
@[simp] theorem State.setPending_outputs (src : Source) (b : Bool) (s : State) : (s.setPending src b).outputs = s.outputs := rfl
@[simp] theorem State.setPending_sched (src : Source) (b : Bool) (s : State) : (s.setPending src b).sched = s.sched := rfl
@[simp] theorem State.setPending_draws (src : Source) (b : Bool) (s : State) : (s.setPending src b).draws = s.draws := rfl

@[simp] theorem State.setThread_cfg (t : Thread) (s : State) : (s.setThread t).cfg = s.cfg := rfl
@[simp] theorem State.setThread_fifos (t : Thread) (s : State) : (s.setThread t).fifos = s.fifos := rfl
@[simp] theorem State.setThread_clk (t : Thread) (s : State) : (s.setThread t).clk = s.clk := rfl
@[simp] theorem State.setThread_sws (t : Thread) (s : State) : (s.setThread t).sws = s.sws := rfl
@[simp] theorem State.setThread_ctx (t : Thread) (s : State) : (s.setThread t).ctx = s.ctx := rfl
@[simp] theorem State.setThread_tmrCnt (t : Thread) (s : State) : (s.setThread t).tmrCnt = s.tmrCnt := rfl
@[simp] theorem State.setThread_uartRx (t : Thread) (s : State) : (s.setThread t).uartRx = s.uartRx := rfl
@[simp] theorem State.setThread_normal (t : Thread) (s : State) : (s.setThread t).normal = if s.ctx.inHandler then s.normal else t := rfl
@[simp] theorem State.setThread_handler (t : Thread) (s : State) : (s.setThread t).handler = if s.ctx.inHandler then t else s.handler := rfl
@[simp] theorem State.setThread_resp (t : Thread) (s : State) : (s.setThread t).resp = s.resp := rfl
@[simp] theorem State.setThread_outputs (t : Thread) (s : State) : (s.setThread t).outputs = s.outputs := rfl
@[simp] theorem State.setThread_sched (t : Thread) (s : State) : (s.setThread t).sched = s.sched := rfl
@[simp] theorem State.setThread_draws (t : Thread) (s : State) : (s.setThread t).draws = s.draws := rfl

@[simp] theorem State.setLatch_cfg (o : Option Word) (s : State) : (s.setLatch o).cfg = s.cfg := rfl
@[simp] theorem State.setLatch_fifos (o : Option Word) (s : State) : (s.setLatch o).fifos = s.fifos := rfl
@[simp] theorem State.setLatch_clk (o : Option Word) (s : State) : (s.setLatch o).clk = s.clk := rfl
@[simp] theorem State.setLatch_sws (o : Option Word) (s : State) : (s.setLatch o).sws = s.sws := rfl
@[simp] theorem State.setLatch_ctx (o : Option Word) (s : State) : (s.setLatch o).ctx = s.ctx := rfl
@[simp] theorem State.setLatch_tmrCnt (o : Option Word) (s : State) : (s.setLatch o).tmrCnt = s.tmrCnt := rfl
@[simp] theorem State.setLatch_uartRx (o : Option Word) (s : State) : (s.setLatch o).uartRx = s.uartRx := rfl
@[simp] theorem State.setLatch_normal (o : Option Word) (s : State) : (s.setLatch o).normal = if s.ctx.inHandler then s.normal else { s.normal with latch := o } := by
  simp only [State.setLatch, State.setLatch, State.setThread, State.thread]; split <;> simp_all
@[simp] theorem State.setLatch_handler (o : Option Word) (s : State) : (s.setLatch o).handler = if s.ctx.inHandler then { s.handler with latch := o } else s.handler := by
  simp only [State.setLatch, State.setLatch, State.setThread, State.thread]; split <;> simp_all
@[simp] theorem State.setLatch_resp (o : Option Word) (s : State) : (s.setLatch o).resp = s.resp := rfl
@[simp] theorem State.setLatch_outputs (o : Option Word) (s : State) : (s.setLatch o).outputs = s.outputs := rfl
@[simp] theorem State.setLatch_sched (o : Option Word) (s : State) : (s.setLatch o).sched = s.sched := rfl
@[simp] theorem State.setLatch_draws (o : Option Word) (s : State) : (s.setLatch o).draws = s.draws := rfl

@[simp] theorem State.finePhaseA_cfg (s : State) : (s.finePhaseA).cfg = s.cfg := rfl
@[simp] theorem State.finePhaseA_fifos (s : State) : (s.finePhaseA).fifos = s.fifos := rfl
@[simp] theorem State.finePhaseA_clk (s : State) : (s.finePhaseA).clk = s.clk := rfl
@[simp] theorem State.finePhaseA_sws (s : State) : (s.finePhaseA).sws = s.sws := rfl
@[simp] theorem State.finePhaseA_ctx (s : State) : (s.finePhaseA).ctx = s.ctx := rfl
@[simp] theorem State.finePhaseA_tmrCnt (s : State) : (s.finePhaseA).tmrCnt = s.tmrCnt := rfl
@[simp] theorem State.finePhaseA_uartRx (s : State) : (s.finePhaseA).uartRx = s.uartRx := rfl
@[simp] theorem State.finePhaseA_normal (s : State) : (s.finePhaseA).normal = if s.ctx.inHandler then s.normal else { s.normal with latch := some s.clk.ovf } := by
  simp only [State.finePhaseA, State.setLatch, State.setThread, State.thread]; split <;> simp_all
@[simp] theorem State.finePhaseA_handler (s : State) : (s.finePhaseA).handler = if s.ctx.inHandler then { s.handler with latch := some s.clk.ovf } else s.handler := by
  simp only [State.finePhaseA, State.setLatch, State.setThread, State.thread]; split <;> simp_all
@[simp] theorem State.finePhaseA_resp (s : State) : (s.finePhaseA).resp = none := rfl
@[simp] theorem State.finePhaseA_outputs (s : State) : (s.finePhaseA).outputs = s.outputs := rfl
@[simp] theorem State.finePhaseA_sched (s : State) : (s.finePhaseA).sched = s.sched := rfl
@[simp] theorem State.finePhaseA_draws (s : State) : (s.finePhaseA).draws = s.draws := rfl

@[simp] theorem State.beginStep_cfg (ms : List Move) (s : State) : (s.beginStep ms).cfg = s.cfg := rfl
@[simp] theorem State.beginStep_fifos (ms : List Move) (s : State) : (s.beginStep ms).fifos = s.fifos := rfl
@[simp] theorem State.beginStep_clk (ms : List Move) (s : State) : (s.beginStep ms).clk = s.clk := rfl
@[simp] theorem State.beginStep_sws (ms : List Move) (s : State) : (s.beginStep ms).sws = s.sws := rfl
@[simp] theorem State.beginStep_ctx (ms : List Move) (s : State) : (s.beginStep ms).ctx = s.ctx := rfl
@[simp] theorem State.beginStep_tmrCnt (ms : List Move) (s : State) : (s.beginStep ms).tmrCnt = s.tmrCnt := rfl
@[simp] theorem State.beginStep_uartRx (ms : List Move) (s : State) : (s.beginStep ms).uartRx = s.uartRx := rfl
@[simp] theorem State.beginStep_normal (ms : List Move) (s : State) : (s.beginStep ms).normal = s.normal := rfl
@[simp] theorem State.beginStep_handler (ms : List Move) (s : State) : (s.beginStep ms).handler = s.handler := rfl
@[simp] theorem State.beginStep_resp (ms : List Move) (s : State) : (s.beginStep ms).resp = none := rfl
@[simp] theorem State.beginStep_outputs (ms : List Move) (s : State) : (s.beginStep ms).outputs = s.outputs := rfl
@[simp] theorem State.beginStep_sched (ms : List Move) (s : State) : (s.beginStep ms).sched = ms := rfl
@[simp] theorem State.beginStep_draws (ms : List Move) (s : State) : (s.beginStep ms).draws = s.draws := rfl

@[simp] theorem State.leaveHandler_cfg (s : State) : (s.leaveHandler).cfg = s.cfg := rfl
@[simp] theorem State.leaveHandler_fifos (s : State) : (s.leaveHandler).fifos = s.fifos := rfl
@[simp] theorem State.leaveHandler_clk (s : State) : (s.leaveHandler).clk = s.clk := rfl
@[simp] theorem State.leaveHandler_sws (s : State) : (s.leaveHandler).sws = s.sws := rfl
@[simp] theorem State.leaveHandler_ctx (s : State) : (s.leaveHandler).ctx = { s.ctx with inHandler := false, irqSuppressed := false } := rfl
@[simp] theorem State.leaveHandler_tmrCnt (s : State) : (s.leaveHandler).tmrCnt = s.tmrCnt := rfl
@[simp] theorem State.leaveHandler_uartRx (s : State) : (s.leaveHandler).uartRx = s.uartRx := rfl
@[simp] theorem State.leaveHandler_normal (s : State) : (s.leaveHandler).normal = s.normal := rfl
@[simp] theorem State.leaveHandler_handler (s : State) : (s.leaveHandler).handler = Thread.fresh [] := rfl
@[simp] theorem State.leaveHandler_resp (s : State) : (s.leaveHandler).resp = s.resp := rfl
@[simp] theorem State.leaveHandler_outputs (s : State) : (s.leaveHandler).outputs = s.outputs := rfl
@[simp] theorem State.leaveHandler_sched (s : State) : (s.leaveHandler).sched = s.sched := rfl
@[simp] theorem State.leaveHandler_draws (s : State) : (s.leaveHandler).draws = s.draws := rfl

/-! ## The context that holds the port -/

@[simp] theorem State.setThread_thread (t : Thread) (s : State) : (s.setThread t).thread = t := by
  unfold State.thread State.setThread; split <;> simp_all

@[simp] theorem State.answer_thread (r : Response) (s : State) : (s.answer r).thread = s.thread := rfl
@[simp] theorem State.respond_thread (v : Word) (s : State) : (s.respond v).thread = s.thread := rfl
@[simp] theorem State.refuseCommand_thread (s : State) : s.refuseCommand.thread = s.thread := rfl
@[simp] theorem State.setFifo_thread (i : BitVec 2) (f : Fifo) (s : State) : (s.setFifo i f).thread = s.thread := rfl
@[simp] theorem State.setStopwatch_thread (j : BitVec 2) (w : Stopwatch) (s : State) : (s.setStopwatch j w).thread = s.thread := rfl
@[simp] theorem State.setClock_thread (c : Clock) (s : State) : (s.setClock c).thread = s.thread := rfl
@[simp] theorem State.setSuppressed_thread (b : Bool) (s : State) : (s.setSuppressed b).thread = s.thread := rfl
@[simp] theorem State.beginStep_thread (ms : List Move) (s : State) : (s.beginStep ms).thread = s.thread := rfl
@[simp] theorem State.setLatch_thread (o : Option Word) (s : State) : (s.setLatch o).thread = { s.thread with latch := o } := by
  simp [State.setLatch]
@[simp] theorem State.finePhaseA_thread (s : State) : s.finePhaseA.thread = { s.thread with latch := some s.clk.ovf } :=
  State.setLatch_thread (some s.clk.ovf) s
@[simp] theorem State.beginStep_latch (ms : List Move) (s : State) : (s.beginStep ms).latch = s.latch := rfl
@[simp] theorem State.respond_latch (v : Word) (s : State) : (s.respond v).latch = s.latch := rfl

/-! ## A counter sample -/

theorem State.afterSample_eq (s : State) : ∃ k, s.afterSample = { s with draws := k } := by
  unfold State.afterSample; split
  · exact ⟨_, rfl⟩
  · exact ⟨s.draws, rfl⟩

@[simp] theorem State.afterSample_cfg (s : State) : s.afterSample.cfg = s.cfg := by
  obtain ⟨k, h⟩ := s.afterSample_eq; rw [h]
@[simp] theorem State.afterSample_fifos (s : State) : s.afterSample.fifos = s.fifos := by
  obtain ⟨k, h⟩ := s.afterSample_eq; rw [h]
@[simp] theorem State.afterSample_clk (s : State) : s.afterSample.clk = s.clk := by
  obtain ⟨k, h⟩ := s.afterSample_eq; rw [h]
@[simp] theorem State.afterSample_sws (s : State) : s.afterSample.sws = s.sws := by
  obtain ⟨k, h⟩ := s.afterSample_eq; rw [h]
@[simp] theorem State.afterSample_ctx (s : State) : s.afterSample.ctx = s.ctx := by
  obtain ⟨k, h⟩ := s.afterSample_eq; rw [h]
@[simp] theorem State.afterSample_tmrCnt (s : State) : s.afterSample.tmrCnt = s.tmrCnt := by
  obtain ⟨k, h⟩ := s.afterSample_eq; rw [h]
@[simp] theorem State.afterSample_uartRx (s : State) : s.afterSample.uartRx = s.uartRx := by
  obtain ⟨k, h⟩ := s.afterSample_eq; rw [h]
@[simp] theorem State.afterSample_normal (s : State) : s.afterSample.normal = s.normal := by
  obtain ⟨k, h⟩ := s.afterSample_eq; rw [h]
@[simp] theorem State.afterSample_handler (s : State) : s.afterSample.handler = s.handler := by
  obtain ⟨k, h⟩ := s.afterSample_eq; rw [h]
@[simp] theorem State.afterSample_resp (s : State) : s.afterSample.resp = s.resp := by
  obtain ⟨k, h⟩ := s.afterSample_eq; rw [h]
@[simp] theorem State.afterSample_outputs (s : State) : s.afterSample.outputs = s.outputs := by
  obtain ⟨k, h⟩ := s.afterSample_eq; rw [h]
@[simp] theorem State.afterSample_sched (s : State) : s.afterSample.sched = s.sched := by
  obtain ⟨k, h⟩ := s.afterSample_eq; rw [h]
@[simp] theorem State.afterSample_thread (s : State) : s.afterSample.thread = s.thread := by
  obtain ⟨k, h⟩ := s.afterSample_eq; rw [h]; rfl

@[simp] theorem State.finePhaseB_cfg (s : State) : s.finePhaseB.cfg = s.cfg := by simp [State.finePhaseB]
@[simp] theorem State.finePhaseB_fifos (s : State) : s.finePhaseB.fifos = s.fifos := by simp [State.finePhaseB]
@[simp] theorem State.finePhaseB_clk (s : State) : s.finePhaseB.clk = s.clk := by simp [State.finePhaseB]
@[simp] theorem State.finePhaseB_sws (s : State) : s.finePhaseB.sws = s.sws := by simp [State.finePhaseB]
@[simp] theorem State.finePhaseB_ctx (s : State) : s.finePhaseB.ctx = s.ctx := by simp [State.finePhaseB]
@[simp] theorem State.finePhaseB_tmrCnt (s : State) : s.finePhaseB.tmrCnt = s.tmrCnt := by simp [State.finePhaseB]
@[simp] theorem State.finePhaseB_uartRx (s : State) : s.finePhaseB.uartRx = s.uartRx := by simp [State.finePhaseB]
@[simp] theorem State.finePhaseB_normal (s : State) : s.finePhaseB.normal = if s.ctx.inHandler then s.normal else { s.normal with latch := none } := by
  simp [State.finePhaseB]
@[simp] theorem State.finePhaseB_handler (s : State) : s.finePhaseB.handler = if s.ctx.inHandler then { s.handler with latch := none } else s.handler := by
  simp [State.finePhaseB]
@[simp] theorem State.finePhaseB_resp (s : State) : s.finePhaseB.resp = s.resp := by simp [State.finePhaseB]
@[simp] theorem State.finePhaseB_outputs (s : State) : s.finePhaseB.outputs = s.outputs := by simp [State.finePhaseB]
@[simp] theorem State.finePhaseB_sched (s : State) : s.finePhaseB.sched = s.sched := by simp [State.finePhaseB]
/-- Phase B drops the carry word of the context that issues, advances the draw counter, and does nothing else. -/
theorem State.finePhaseB_eq (s : State) :
    ∃ k, s.finePhaseB = { s.setThread { s.thread with latch := none } with draws := k } := by
  obtain ⟨k, hk⟩ := s.afterSample_eq
  exact ⟨k, by simp only [State.finePhaseB, hk]; rfl⟩
@[simp] theorem State.finePhaseB_thread (s : State) : s.finePhaseB.thread = { s.thread with latch := none } := by
  simp [State.finePhaseB]

end Sys2Proof.Machine
end

