-- ==== Sys2Proof/Laws/Ops.lean ====
section
/-! SUPPORT. What each shared operation can do, said once, and the frame of `exec`. -/

namespace Sys2Proof.Machine

/-! ## Operands -/

theorem State.onFifo_eq {s : State} {i : BitVec 2} {n : Nat} {f : Fifo} (h : s.FifoAt i n f) (k : Nat → Fifo → Result) :
    s.onFifo i k = k n f := by
  simp [State.onFifo, h.cap, h.fifo]

theorem State.onFifo_next {s t : State} {i : BitVec 2} {k : Nat → Fifo → Result} (h : s.onFifo i k = .next t) :
    t = s.refuseCommand ∨ ∃ n f, s.FifoAt i n f ∧ k n f = .next t := by
  unfold State.onFifo at h
  split at h
  · rename_i n f hn hf; exact .inr ⟨n, f, ⟨hn, hf⟩, h⟩
  · exact .inl (by cases h; rfl)

theorem State.FifoAt.lt_nFifo {s : State} {i : BitVec 2} {n : Nat} {f : Fifo} (h : s.FifoAt i n f) :
    i.toNat < s.cfg.nFifo := (List.getElem?_eq_some_iff.mp h.cap).1

theorem State.onStopwatch_eq {s : State} {j : BitVec 2} {w : Stopwatch} (h : s.sws[j.toNat]? = some w)
    (k : Stopwatch → Result) : s.onStopwatch j k = k w := by
  simp [State.onStopwatch, h]

theorem State.onStopwatch_next {s t : State} {j : BitVec 2} {k : Stopwatch → Result} (h : s.onStopwatch j k = .next t) :
    t = s.refuseCommand ∨ ∃ w, s.sws[j.toNat]? = some w ∧ k w = .next t := by
  unfold State.onStopwatch at h
  split at h
  · rename_i w hw; exact .inr ⟨w, hw, h⟩
  · exact .inl (by cases h; rfl)

/-! ## Clock readings -/

theorem State.clockNow_carried {s : State} {o : Word} (r : Resolution) (h : s.latch = some o) :
    s.clockNow r = .now (s.fineReading o) s.finePhaseB := by simp [State.clockNow, h]

theorem State.clockNow_fine {s : State} (h : s.latch = none) : s.clockNow .fine = .carries s.finePhaseA := by
  simp [State.clockNow, h]

theorem State.clockNow_millis {s : State} {r : Resolution} (hr : r ≠ .fine) (h : s.latch = none) :
    s.clockNow r = .now s.clk.ms s := by
  cases r <;> simp_all [State.clockNow]

/-- The states in which a reading can leave the machine with a value: as it was, or after phase B. -/
def State.Base (s b : State) : Prop := s.latch = none ∧ b = s ∨ s.latch ≠ none ∧ b = s.finePhaseB

/-- Asking for a reading either is phase A, or gives a value in the one state it can leave. -/
theorem State.clockNow_cases (s : State) (r : Resolution) :
    (r = .fine ∧ s.latch = none ∧ s.clockNow r = .carries s.finePhaseA) ∨
    ∃ b v, s.Base b ∧ s.clockNow r = .now v b ∧ (r = .fine → s.latch ≠ none) := by
  cases h : s.latch with
  | some o => exact .inr ⟨_, _, .inr ⟨by simp [h], rfl⟩, State.clockNow_carried r h, by simp⟩
  | none =>
    by_cases hr : r = .fine
    · subst hr; exact .inl ⟨rfl, rfl, State.clockNow_fine h⟩
    · exact .inr ⟨s, _, .inl ⟨h, rfl⟩, State.clockNow_millis hr h, fun e => absurd e hr⟩

/-- A counter sample lies in `[0, PERIOD - 1]` (R87). -/
theorem State.counterSample_lt {s : State} (h : s.tmrCnt < s.cfg.period) : s.counterSample < s.cfg.period := by
  unfold State.counterSample
  split
  · exact Nat.mod_lt _ (by omega)
  · exact h

theorem State.counterSample_coupled {s : State} (h : s.cfg.timer = .coupled) : s.counterSample = s.tmrCnt := by
  simp [State.counterSample, h]

/-! ## What a command can leave -/

theorem State.sampleInto_next {s t : State} {j : BitVec 2} {r : Resolution} {upd : Word → Stopwatch}
    (h : s.sampleInto j r upd = .next t) :
    (s.latch = none ∧ t = s.finePhaseA) ∨ ∃ b v, s.Base b ∧ t = (b.setStopwatch j (upd v)).respond 0 := by
  unfold State.sampleInto at h
  rcases s.clockNow_cases r with ⟨_, hl, e⟩ | ⟨b, v, hb, e, _⟩ <;> rw [e] at h <;> cases h
  · exact .inl ⟨hl, rfl⟩
  · exact .inr ⟨b, v, hb, rfl⟩

theorem State.pollStopwatch_next {s t : State} {j : BitVec 2} {ans : Stopwatch → Word}
    (h : s.pollStopwatch j ans = .next t) :
    t = s.refuseCommand ∨ (s.latch = none ∧ ∃ v, t = s.respond v) ∨ (s.latch = none ∧ t = s.finePhaseA) ∨
      ∃ b v w, s.Base b ∧ s.sws[j.toNat]? = some w ∧ t = (b.setStopwatch j (w.commit v)).respond (ans (w.commit v)) := by
  rcases State.onStopwatch_next h with h | ⟨w, hw, h⟩
  · exact .inl h
  · refine .inr ?_
    split_ifs at h with hr
    · rcases s.clockNow_cases w.res with ⟨_, hl, e⟩ | ⟨b, v, hb, e, _⟩ <;> rw [e] at h <;> cases h
      · exact .inr (.inl ⟨hl, rfl⟩)
      · exact .inr (.inr ⟨b, v, w, hb, hw, rfl⟩)
    · simp only [Bool.or_eq_true, not_or, Option.not_isSome_iff_eq_none] at hr
      exact .inl ⟨hr.2, _, by cases h; rfl⟩

/-- Everything a command's step can do. -/
inductive ExecStep (s : State) : Instr → State → Prop where
  /-- the configuration does not have the instruction -/
  | refuses (i) : ExecStep s i s.refuseCommand
  /-- it answers and changes nothing -/
  | answers (i v) : (i.twoPhase = true → s.latch = none) → ExecStep s i (s.respond v)
  | removes (k n f) : s.FifoAt k n f → ExecStep s (.remove k) ((s.setFifo k (f.remove n)).respond 0)
  | adds (k b n f) : s.FifoAt k n f → ExecStep s (.add k b) ((s.setFifo k (f.add n b)).respond 0)
  | ticks : ExecStep s .tick ((s.setClock (s.clk.tick s.cfg)).respond 0)
  | suppresses : ExecStep s .irqSuppress ((s.setSuppressed true).respond (boolWord s.ctx.irqSuppressed))
  | restores (f) : (s.ctx.inHandler && !f) = false → ExecStep s (.irqRestore f) ((s.setSuppressed f).respond 0)
  /-- phase A of a two-phase command -/
  | phaseA (i) : i.twoPhase = true → s.latch = none → ExecStep s i s.finePhaseA
  /-- phase B of MICROS -/
  | fineTime (v) : s.latch ≠ none → ExecStep s .micros (s.finePhaseB.respond v)
  | inits (j r w) : s.sws[j.toNat]? = some w → r.wf s.cfg = true →
      ExecStep s (.swInit j r) ((s.setStopwatch j { w with res := r, acc := 0, running := false }).respond 0)
  | stops (j w) : s.sws[j.toNat]? = some w →
      ExecStep s (.swStop j) ((s.setStopwatch j { w with running := false }).respond 0)
  | starts (j w b v) : s.Base b → s.sws[j.toNat]? = some w →
      ExecStep s (.swStart j) ((b.setStopwatch j { w with running := true, last := v }).respond 0)
  | restarts (j w b v) : s.Base b → s.sws[j.toNat]? = some w →
      ExecStep s (.swReset j) ((b.setStopwatch j { w with acc := 0, last := v }).respond 0)
  | polls (j w b v) : s.Base b → s.sws[j.toNat]? = some w →
      ExecStep s (.swPoll j) ((b.setStopwatch j (w.commit v)).respond 0)
  | elapses (j w b v) : s.Base b → s.sws[j.toNat]? = some w →
      ExecStep s (.swElapsed j) ((b.setStopwatch j (w.commit v)).respond (w.commit v).acc)

theorem exec_next_cases {i : Instr} {s t : State} (h : exec i s = .next t) : ExecStep s i t := by
  cases i with
  | isEmpty k =>
    rcases State.onFifo_next h with rfl | ⟨n, f, _, h⟩
    · exact .refuses _
    · cases h; exact .answers _ _ (by simp [Instr.twoPhase])
  | peek k =>
    rcases State.onFifo_next h with rfl | ⟨n, f, _, h⟩
    · exact .refuses _
    · split_ifs at h; cases h; exact .answers _ _ (by simp [Instr.twoPhase])
  | remove k =>
    rcases State.onFifo_next h with rfl | ⟨n, f, hf, h⟩
    · exact .refuses _
    · cases h; exact .removes k n f hf
  | add k b =>
    rcases State.onFifo_next h with rfl | ⟨n, f, hf, h⟩
    · exact .refuses _
    · cases h; exact .adds k b n f hf
  | count k =>
    rcases State.onFifo_next h with rfl | ⟨n, f, _, h⟩
    · exact .refuses _
    · cases h; exact .answers _ _ (by simp [Instr.twoPhase])
  | free k =>
    rcases State.onFifo_next h with rfl | ⟨n, f, _, h⟩
    · exact .refuses _
    · cases h; exact .answers _ _ (by simp [Instr.twoPhase])
  | tick => cases h; exact .ticks
  | millis => cases h; exact .answers _ _ (by simp [Instr.twoPhase])
  | micros =>
    simp only [exec, execMicros, State.onFineTime] at h
    split_ifs at h
    · rcases s.clockNow_cases .fine with ⟨_, hl, e⟩ | ⟨b, v, hb, e, hl⟩ <;> rw [e] at h <;> cases h
      · exact .phaseA _ rfl hl
      · obtain ⟨h0, _⟩ | ⟨h0, rfl⟩ := hb
        · exact absurd h0 (hl rfl)
        · exact .fineTime v h0
    · cases h; exact .refuses _
  | swInit j r =>
    rcases State.onStopwatch_next h with rfl | ⟨w, hw, h⟩
    · exact .refuses _
    · split_ifs at h with hr
      · cases h; exact .inits j r w hw hr
      · cases h; exact .refuses _
  | swStart j =>
    rcases State.onStopwatch_next h with rfl | ⟨w, hw, h⟩
    · exact .refuses _
    · rcases State.sampleInto_next h with ⟨hl, rfl⟩ | ⟨b, v, hb, rfl⟩
      · exact .phaseA _ rfl hl
      · exact .starts j w b v hb hw
  | swStop j =>
    rcases State.onStopwatch_next h with rfl | ⟨w, hw, h⟩
    · exact .refuses _
    · cases h; exact .stops j w hw
  | swPoll j =>
    rcases State.pollStopwatch_next h with rfl | ⟨hl, v, rfl⟩ | ⟨hl, rfl⟩ | ⟨b, v, w, hb, hw, rfl⟩
    · exact .refuses _
    · exact .answers _ _ fun _ => hl
    · exact .phaseA _ rfl hl
    · exact .polls j w b v hb hw
  | swElapsed j =>
    rcases State.pollStopwatch_next h with rfl | ⟨hl, v, rfl⟩ | ⟨hl, rfl⟩ | ⟨b, v, w, hb, hw, rfl⟩
    · exact .refuses _
    · exact .answers _ _ fun _ => hl
    · exact .phaseA _ rfl hl
    · exact .elapses j w b v hb hw
  | swReset j =>
    rcases State.onStopwatch_next h with rfl | ⟨w, hw, h⟩
    · exact .refuses _
    · rcases State.sampleInto_next h with ⟨hl, rfl⟩ | ⟨b, v, hb, rfl⟩
      · exact .phaseA _ rfl hl
      · exact .restarts j w b v hb hw
  | irqSuppress => cases h; exact .suppresses
  | irqRestore f =>
    simp only [exec, execIrqRestore] at h
    split_ifs at h with hf
    cases h; exact .restores f (by simpa using hf)

/-- Phase B: a two-phase command that the configuration has, executed by a context that carries an overflow count, answers,
and the context carries none any more. -/
theorem exec_phaseB {i : Instr} {s : State} (hi : i.twoPhase = true) (hw : i.wf s.cfg = true)
    (hs : s.sws.length = s.cfg.nsw) (hl : s.latch ≠ none) :
    ∃ t, exec i s = .next t ∧ t.latch = none ∧ t.resp ≠ none := by
  obtain ⟨o, ho⟩ := Option.ne_none_iff_exists'.mp hl
  cases i <;> simp only [Instr.twoPhase, Bool.false_eq_true] at hi
  case micros =>
    simp only [exec, execMicros, State.onFineTime, if_pos (show s.cfg.hasFine = true from hw), State.clockNow_carried _ ho]
    exact ⟨_, rfl, by simp [State.latch], by simp⟩
  all_goals
    rename_i j
    simp only [Instr.wf, decide_eq_true_eq, ← hs] at hw
    have hj := List.getElem?_eq_getElem hw
    simp only [exec, execSwStart, execSwPoll, execSwElapsed, execSwReset, State.pollStopwatch,
      State.onStopwatch_eq hj, State.sampleInto, State.clockNow_carried _ ho, ho, Option.isSome_some, Bool.or_true, if_true]
    exact ⟨_, rfl, by simp [State.latch], by simp⟩

/-- A command that has answered nothing has done phase A, and in every state of the same machine whose context carries an
overflow count it answers, and nothing is carried any more: phase B can always follow. -/
theorem exec_phaseA {i : Instr} {s t : State} (h : exec i s = .next t) (hr : t.resp = none) :
    t = s.finePhaseA ∧ s.latch = none ∧ i.twoPhase = true ∧
    ∀ u : State, u.cfg = s.cfg → u.sws.length = s.sws.length → u.latch ≠ none →
      ∃ u', exec i u = .next u' ∧ u'.latch = none ∧ u'.resp ≠ none := by
  have noRefusal : s.finePhaseA ≠ s.refuseCommand := fun e => by simpa using congrArg State.resp e
  cases exec_next_cases h with
  | phaseA _ hi hl =>
    refine ⟨rfl, hl, hi, fun u hc hs hu => ?_⟩
    obtain ⟨o, ho⟩ := Option.ne_none_iff_exists'.mp hu
    cases i <;> simp only [Instr.twoPhase, Bool.false_eq_true] at hi
    case micros =>
      simp only [exec, execMicros, State.onFineTime] at h
      split_ifs at h with hf
      · simp only [exec, execMicros, State.onFineTime, hc, hf, if_true, State.clockNow_carried _ ho]
        exact ⟨_, rfl, by simp [State.latch], by simp⟩
      · injection h with h; exact absurd h.symm noRefusal
    all_goals
      rename_i j
      rcases State.onStopwatch_next h with e | ⟨w, hw, -⟩
      · exact absurd e noRefusal
      · have hj := (List.getElem?_eq_some_iff.mp hw).1
        rw [← hs] at hj
        have hw' := List.getElem?_eq_getElem hj
        simp only [exec, execSwStart, execSwPoll, execSwElapsed, execSwReset, State.pollStopwatch,
          State.onStopwatch_eq hw', State.sampleInto, State.clockNow_carried _ ho, ho, Option.isSome_some, Bool.or_true, if_true]
        exact ⟨_, rfl, by simp [State.latch], by simp⟩
  | _ => simp at hr

/-- A command that answers a context that carried nothing leaves nothing carried. -/
theorem exec_answer_latch {i : Instr} {s t : State} (h : exec i s = .next t) (hr : t.resp ≠ none) (hl : s.latch = none) :
    t.latch = none := by
  unfold State.latch at *
  cases exec_next_cases h with
  | phaseA _ _ _ => simp at hr
  | fineTime v hv => exact absurd hl hv
  | starts k w b v hb hw => rcases hb with ⟨_, rfl⟩ | ⟨_, rfl⟩ <;> simp [hl]
  | restarts k w b v hb hw => rcases hb with ⟨_, rfl⟩ | ⟨_, rfl⟩ <;> simp [hl]
  | polls k w b v hb hw => rcases hb with ⟨_, rfl⟩ | ⟨_, rfl⟩ <;> simp [hl]
  | elapses k w b v hb hw => rcases hb with ⟨_, rfl⟩ | ⟨_, rfl⟩ <;> simp [hl]
  | _ => simp [hl]

/-- `exec` never refuses: a reserved command is answered (assumption log 5, 27). -/
theorem exec_ne_refused {i : Instr} {s : State} {e : Refusal} : exec i s ≠ .refused e := by
  intro h
  cases i <;>
    simp only [exec, execIsEmpty, execPeek, execRemove, execAdd, execCount, execFree, execTick, execMillis, execMicros,
      execSwInit, execSwStart, execSwStop, execSwPoll, execSwElapsed, execSwReset, execIrqSuppress, execIrqRestore,
      State.onFifo, State.onStopwatch, State.onFineTime, State.sampleInto, State.pollStopwatch] at h
  all_goals (repeat' split at h) <;> cases h

/-- The two faults (60_exceptions.md R118), and where each is raised. -/
theorem exec_fault_cases {i : Instr} {s : State} {e : Fault} (h : exec i s = .fault e) :
    (e = .peekEmpty ∧ ∃ k n f, i = .peek k ∧ s.FifoAt k n f ∧ f.head = f.tail) ∨
    (e = .handlerEnabledInterrupts ∧ i = .irqRestore false ∧ s.ctx.inHandler = true) := by
  cases i
  case peek k =>
    simp only [exec, execPeek, State.onFifo] at h
    split at h
    · rename_i n f hn hf
      split_ifs at h with he
      · cases h; exact .inl ⟨rfl, k, n, f, rfl, ⟨hn, hf⟩, (Fifo.isEmpty_iff f).mp he⟩
    · cases h
  case irqRestore f =>
    simp only [exec, execIrqRestore] at h
    split_ifs at h with hf
    simp only [Bool.and_eq_true, Bool.not_eq_true'] at hf
    cases h; exact .inr ⟨rfl, by rw [hf.2], hf.1⟩
  all_goals
    exfalso
    simp only [exec, execIsEmpty, execRemove, execAdd, execCount, execFree, execTick, execMillis, execMicros,
      execSwInit, execSwStart, execSwStop, execSwPoll, execSwElapsed, execSwReset, execIrqSuppress,
      State.onFifo, State.onStopwatch, State.onFineTime, State.sampleInto, State.pollStopwatch] at h
    (repeat' split at h) <;> cases h

/-- What a command's step leaves alone: the parameters, the environment, the schedule, the outputs, `CTX` but for the
suppression flag, the other context, and the issuing context but for the overflow count it carries. -/
structure ExecFrame (s t : State) : Prop where
  cfg       : t.cfg = s.cfg
  tmrCnt    : t.tmrCnt = s.tmrCnt
  uartRx    : t.uartRx = s.uartRx
  outputs   : t.outputs = s.outputs
  sched     : t.sched = s.sched
  inHandler : t.ctx.inHandler = s.ctx.inHandler
  pending   : t.ctx.pending = s.ctx.pending
  normal    : t.normal = if s.ctx.inHandler then s.normal else { s.normal with latch := t.normal.latch }
  handler   : t.handler = if s.ctx.inHandler then { s.handler with latch := t.handler.latch } else s.handler

theorem State.Base.frame {s b : State} (h : s.Base b) : ExecFrame s b := by
  rcases h with ⟨_, rfl⟩ | ⟨_, rfl⟩ <;> constructor <;> simp <;> split <;> simp_all

theorem State.finePhaseA_frame (s : State) : ExecFrame s s.finePhaseA := by
  constructor <;> simp <;> split <;> simp_all

theorem exec_frame {i : Instr} {s t : State} (h : exec i s = .next t) : ExecFrame s t := by
  have refl : ExecFrame s s := by constructor <;> simp
  cases exec_next_cases h with
  | phaseA _ _ _ => exact s.finePhaseA_frame
  | fineTime v hl => exact { State.Base.frame (.inr ⟨hl, rfl⟩) with }
  | starts j w b v hb hw => exact { hb.frame with }
  | restarts j w b v hb hw => exact { hb.frame with }
  | polls j w b v hb hw => exact { hb.frame with }
  | elapses j w b v hb hw => exact { hb.frame with }
  | _ => exact { refl with }

theorem ExecFrame.thread {s t : State} (h : ExecFrame s t) : t.thread = { s.thread with latch := t.thread.latch } := by
  unfold State.thread
  rw [h.inHandler]
  split
  · rename_i hh; have := h.handler; rwa [if_pos hh] at this
  · rename_i hh; have := h.normal; rwa [if_neg hh] at this

end Sys2Proof.Machine
end

