-- ==== Sys2Proof/Laws/PerInstr.lean ====
section
/-! SUPPORT. What is said per instruction: the word of every instruction is selected by its row of the opcode map
(30_encoding.md R54 to R56). -/

namespace Sys2Proof.Laws.TableRow

/-- The instruction's word agrees with its row's match value under its row's mask. -/
def Statement (i : Instr) : Prop := i.row.selects (encode i) = true

theorem isEmpty (i : BitVec 2) : Statement (.isEmpty i) := by unfold Statement; revert i; decide
theorem peek (i : BitVec 2) : Statement (.peek i) := by unfold Statement; revert i; decide
theorem remove (i : BitVec 2) : Statement (.remove i) := by unfold Statement; revert i; decide
theorem add (i : BitVec 2) (b : Byte) : Statement (.add i b) := by unfold Statement; revert i b; decide
theorem count (i : BitVec 2) : Statement (.count i) := by unfold Statement; revert i; decide
theorem free (i : BitVec 2) : Statement (.free i) := by unfold Statement; revert i; decide
theorem tick : Statement .tick := by unfold Statement; decide
theorem millis : Statement .millis := by unfold Statement; decide
theorem micros : Statement .micros := by unfold Statement; decide
theorem swInit (j : BitVec 2) (r : Resolution) : Statement (.swInit j r) := by unfold Statement; cases r <;> revert j <;> decide
theorem swStart (j : BitVec 2) : Statement (.swStart j) := by unfold Statement; revert j; decide
theorem swStop (j : BitVec 2) : Statement (.swStop j) := by unfold Statement; revert j; decide
theorem swPoll (j : BitVec 2) : Statement (.swPoll j) := by unfold Statement; revert j; decide
theorem swElapsed (j : BitVec 2) : Statement (.swElapsed j) := by unfold Statement; revert j; decide
theorem swReset (j : BitVec 2) : Statement (.swReset j) := by unfold Statement; revert j; decide
theorem irqSuppress : Statement .irqSuppress := by unfold Statement; decide
theorem irqRestore (f : Bool) : Statement (.irqRestore f) := by unfold Statement; revert f; decide

end Sys2Proof.Laws.TableRow
end

