-- ==== Sys2Proof/Laws/Step.lean ====
section
/-! SUPPORT. What a step can do, said once: the inversion of `step` and of the context's step. -/

namespace Sys2Proof.Machine

/-- What the context that holds the port can do in its step. -/
inductive ContextStep (s : State) : State → Prop where
  /-- nothing left to issue, in the normal context -/
  | waits : s.thread.todo = [] → s.ctx.inHandler = false → ContextStep s s
  /-- nothing left to issue, in a handler: it returns (R127) -/
  | returns : s.thread.todo = [] → s.ctx.inHandler = true → ContextStep s s.leaveHandler
  /-- a line that has no command to issue -/
  | skips (l rest) : s.thread.todo = l :: rest → l.word s.thread = none → ContextStep s (s.skipLine rest)
  /-- a reserved word is refused, and the context goes on (R57) -/
  | refuses (l rest w e) : s.thread.todo = l :: rest → l.word s.thread = some w → decode s.cfg w = .error e →
      ContextStep s (s.refuseCommand.goOn l rest { status := .illegal, word := 0 })
  /-- a command answers, and the context goes on -/
  | answers (l rest w i t r) : s.thread.todo = l :: rest → l.word s.thread = some w → decode s.cfg w = .ok i →
      exec i s = .next t → t.resp = some r → ContextStep s (t.goOn l rest r)
  /-- a command does its phase A, and stays at the port -/
  | halfway (l rest w i t) : s.thread.todo = l :: rest → l.word s.thread = some w → decode s.cfg w = .ok i →
      exec i s = .next t → t.resp = none → ContextStep s t

theorem State.contextStep_next {s t : State} (h : s.contextStep = .next t) : ContextStep s t := by
  unfold State.contextStep at h
  split at h
  · rename_i hl
    cases h
    cases hh : s.ctx.inHandler
    · have : s.idle = s := by simp [State.idle, hh]
      rw [this]; exact .waits hl hh
    · have : s.idle = s.leaveHandler := by simp [State.idle, hh]
      rw [this]; exact .returns hl hh
  · rename_i l rest hl
    split at h
    · rename_i hw; cases h; exact .skips l rest hl hw
    · rename_i w hw
      unfold State.execWord at h
      split at h
      · rename_i e he
        simp only [Result.afterCommand, State.refuseCommand_resp] at h
        cases h; exact .refuses l rest w e hl hw he
      · rename_i i hi
        cases he : exec i s with
        | fault e => rw [he] at h; cases h
        | refused e => rw [he] at h; cases h
        | next u =>
          rw [he] at h
          simp only [Result.afterCommand] at h
          cases hr : u.resp with
          | none => rw [hr] at h; cases h; exact .halfway l rest w i _ hl hw hi he hr
          | some r => rw [hr] at h; cases h; exact .answers l rest w i u r hl hw hi he hr

/-- What a step can do: one of the moves of R129. -/
theorem step_next_cases {s t : State} (h : step s = .next t) : s.cfg.legal = true ∧
    ((∃ ms, (s.sched = [] ∧ ms = [] ∨ s.sched = .context :: ms) ∧ ContextStep (s.beginStep ms) t) ∨
     (∃ e ms, s.sched = .event e :: ms ∧ t = (s.beginStep ms).signal e) ∨
     (∃ ms, s.sched = .increment :: ms ∧ t = (s.beginStep ms).counterIncrement) ∨
     (∃ src ms, s.sched = .enter src :: ms ∧ t = (s.beginStep ms).enterHandler src) ∨
     ∃ d p ms, s.sched = .reset d p :: ms ∧ t = (s.beginStep ms).resetEvent d p) := by
  unfold step State.stepOnce at h
  split_ifs at h with hl
  refine ⟨hl, ?_⟩
  unfold State.move at h
  split at h
  · rename_i hs; exact .inl ⟨[], .inl ⟨hs, rfl⟩, State.contextStep_next h⟩
  · rename_i ms hs; exact .inl ⟨ms, .inr hs, State.contextStep_next h⟩
  · rename_i e ms hs; cases h; exact .inr (.inl ⟨e, ms, hs, rfl⟩)
  · rename_i ms hs; cases h; exact .inr (.inr (.inl ⟨ms, hs, rfl⟩))
  · rename_i src ms hs; cases h; exact .inr (.inr (.inr (.inl ⟨src, ms, hs, rfl⟩)))
  · rename_i d p ms hs; cases h; exact .inr (.inr (.inr (.inr ⟨d, p, ms, hs, rfl⟩)))

/-- A step with a context move is the context's step. -/
theorem step_context {s : State} {ms : List Move} (hl : s.cfg.legal = true)
    (hs : s.sched = .context :: ms ∨ s.sched = [] ∧ ms = []) : step s = (s.beginStep ms).contextStep := by
  rcases hs with hs | ⟨hs, rfl⟩ <;> simp [step, State.stepOnce, hl, State.move, hs]

/-- A context's step issues the command of its first line. -/
theorem State.contextStep_issue {s : State} {l : Line} {rest : List Line} {w : CmdWord}
    (hl : s.thread.todo = l :: rest) (hw : l.word s.thread = some w) :
    s.contextStep = (s.execWord w).afterCommand l rest := by
  simp [State.contextStep, hl, hw]

theorem State.execWord_ok {s : State} {w : CmdWord} {i : Instr} (h : decode s.cfg w = .ok i) : s.execWord w = exec i s := by
  simp [State.execWord, h]

/-- The step of a context whose first line's command decodes. -/
theorem step_issue {s : State} {ms : List Move} {l : Line} {rest : List Line} {w : CmdWord} {i : Instr}
    (hl : s.cfg.legal = true) (hs : s.sched = .context :: ms ∨ s.sched = [] ∧ ms = []) (ht : s.thread.todo = l :: rest)
    (hw : l.word s.thread = some w) (hd : decode s.cfg w = .ok i) :
    step s = Result.afterCommand l rest (exec i (s.beginStep ms)) := by
  rw [step_context hl hs, State.contextStep_issue (s := s.beginStep ms) (by simpa using ht) (by simpa using hw),
    State.execWord_ok (by simpa using hd)]

/-- A context's step goes on, or its command's fault is the step's. -/
theorem State.contextStep_stop (s : State) : (∃ t, s.contextStep = .next t) ∨
    ∃ l rest w i e, s.thread.todo = l :: rest ∧ l.word s.thread = some w ∧ decode s.cfg w = .ok i ∧ exec i s = .fault e ∧
      s.contextStep = .fault e := by
  unfold State.contextStep
  split
  · exact .inl ⟨_, rfl⟩
  · rename_i l rest hl
    split
    · exact .inl ⟨_, rfl⟩
    · rename_i w hw
      unfold State.execWord
      split
      · exact .inl ⟨_, rfl⟩
      · rename_i i hi
        cases he : exec i s with
        | next u => cases hr : u.resp <;> simp [Result.afterCommand, hr]
        | fault e => exact .inr ⟨l, rest, w, i, e, hl, hw, hi, he, rfl⟩
        | refused e => exact absurd he exec_ne_refused

/-- A step of a legal configuration goes on, or a command's fault is the step's. -/
theorem step_stop {s : State} (hl : s.cfg.legal = true) : (∃ t, step s = .next t) ∨
    ∃ ms l rest w i e, (s.sched = .context :: ms ∨ s.sched = [] ∧ ms = []) ∧ s.thread.todo = l :: rest ∧
      l.word s.thread = some w ∧ decode s.cfg w = .ok i ∧ exec i (s.beginStep ms) = .fault e ∧ step s = .fault e := by
  by_cases hs : ∃ ms, s.sched = .context :: ms ∨ s.sched = [] ∧ ms = []
  · obtain ⟨ms, hs⟩ := hs
    rw [step_context hl hs]
    rcases (s.beginStep ms).contextStep_stop with h | ⟨l, rest, w, i, e, h1, h2, h3, h4, h5⟩
    · exact .inl h
    · exact .inr ⟨ms, l, rest, w, i, e, hs, h1, h2, h3, h4, h5⟩
  · left
    cases hm : s.sched with
    | nil => exact absurd ⟨[], .inr ⟨hm, rfl⟩⟩ hs
    | cons m ms => cases m with
      | context => exact absurd ⟨ms, .inl hm⟩ hs
      | _ => simp [step, State.stepOnce, hl, State.move, hm]

/-! ## Runs -/

@[simp] theorem Result.andThen_next (t : State) (k : State → Result) : Result.andThen (.next t) k = k t := rfl
@[simp] theorem Result.andThen_fault (e : Fault) (k : State → Result) : Result.andThen (.fault e) k = .fault e := rfl
@[simp] theorem Result.andThen_refused (e : Refusal) (k : State → Result) : Result.andThen (.refused e) k = .refused e := rfl

theorem State.steps_zero (s : State) : State.steps 0 s = .next s := rfl

theorem State.steps_succ {s t : State} (k : Nat) (h : step s = .next t) : State.steps (k + 1) s = State.steps k t := by
  show Result.andThen (step s) _ = _
  rw [h]; rfl

theorem State.steps_add (a b : Nat) (s : State) :
    State.steps (a + b) s = Result.andThen (State.steps a s) (State.steps b) := by
  induction a generalizing s with
  | zero => rw [Nat.zero_add]; rfl
  | succ a ih =>
    rw [Nat.succ_add]
    show Result.andThen (step s) _ = Result.andThen (Result.andThen (step s) _) _
    cases step s with
    | next t => exact ih t
    | fault e => rfl
    | refused e => rfl

theorem State.execAll_nil (s : State) : State.execAll [] s = .next s := rfl

theorem State.execAll_cons {i : Instr} {s t : State} (is : List Instr) (h : exec i s = .next t) :
    State.execAll (i :: is) s = State.execAll is t := by
  show Result.andThen (exec i s) _ = _
  rw [h]; rfl

/-- A run of commands that ends in a state has each command answer a next state. -/
theorem State.execAll_cons_next {i : Instr} {is : List Instr} {s t : State} (h : State.execAll (i :: is) s = .next t) :
    ∃ u, exec i s = .next u ∧ State.execAll is u = .next t := by
  have h : Result.andThen (exec i s) (State.execAll is) = .next t := h
  cases he : exec i s with
  | next u => rw [he] at h; exact ⟨u, rfl, h⟩
  | fault e => rw [he] at h; cases h
  | refused e => rw [he] at h; cases h

/-- A command run to its completion answers at once, or does both its phases. -/
theorem State.complete_cases {i : Instr} {s t : State} (h : s.complete i = .next t) :
    (exec i s = .next t ∧ t.resp ≠ none) ∨
    (i.twoPhase = true ∧ exec i s = .next s.finePhaseA ∧ exec i s.finePhaseA = .next t ∧ t.latch = none) := by
  unfold State.complete at h
  cases he : exec i s with
  | fault e => rw [he] at h; cases h
  | refused e => rw [he] at h; cases h
  | next u =>
    rw [he, Result.andThen_next] at h
    cases hr : u.resp with
    | some r => rw [hr] at h; cases h; exact .inl ⟨rfl, by simp [hr]⟩
    | none =>
      rw [hr] at h
      obtain ⟨rfl, -, hi, hB⟩ := exec_phaseA he hr
      obtain ⟨u', e1, e2, -⟩ := hB s.finePhaseA (by simp) (by simp) (by simp [State.latch])
      have h : exec i s.finePhaseA = .next t := h
      rw [h] at e1; cases e1
      exact .inr ⟨hi, rfl, h, e2⟩

/-- A command run to its completion leaves nothing carried. -/
theorem State.complete_latch {i : Instr} {s t : State} (hl : s.latch = none) (h : s.complete i = .next t) : t.latch = none := by
  rcases State.complete_cases h with ⟨h, hr⟩ | ⟨_, _, _, h⟩
  · exact exec_answer_latch h hr hl
  · exact h

/-- A run of completed commands that ends in a state has each command complete. -/
theorem State.completeAll_cons_next {i : Instr} {is : List Instr} {s t : State} (h : State.completeAll (i :: is) s = .next t) :
    ∃ u, s.complete i = .next u ∧ State.completeAll is u = .next t := by
  have h : Result.andThen (s.complete i) (State.completeAll is) = .next t := h
  cases he : s.complete i with
  | next u => rw [he] at h; exact ⟨u, rfl, h⟩
  | fault e => rw [he] at h; cases h
  | refused e => rw [he] at h; cases h

/-! ## How a context goes on: what that leaves alone -/

@[simp] theorem State.goOn_cfg (l : Line) (rest : List Line) (r : Response) (s : State) : (s.goOn l rest r).cfg = s.cfg := rfl
@[simp] theorem State.goOn_fifos (l : Line) (rest : List Line) (r : Response) (s : State) : (s.goOn l rest r).fifos = s.fifos := rfl
@[simp] theorem State.goOn_clk (l : Line) (rest : List Line) (r : Response) (s : State) : (s.goOn l rest r).clk = s.clk := rfl
@[simp] theorem State.goOn_sws (l : Line) (rest : List Line) (r : Response) (s : State) : (s.goOn l rest r).sws = s.sws := rfl
@[simp] theorem State.goOn_ctx (l : Line) (rest : List Line) (r : Response) (s : State) : (s.goOn l rest r).ctx = s.ctx := rfl
@[simp] theorem State.goOn_tmrCnt (l : Line) (rest : List Line) (r : Response) (s : State) : (s.goOn l rest r).tmrCnt = s.tmrCnt := rfl
@[simp] theorem State.goOn_uartRx (l : Line) (rest : List Line) (r : Response) (s : State) : (s.goOn l rest r).uartRx = s.uartRx := rfl
@[simp] theorem State.goOn_resp (l : Line) (rest : List Line) (r : Response) (s : State) : (s.goOn l rest r).resp = s.resp := rfl
@[simp] theorem State.goOn_sched (l : Line) (rest : List Line) (r : Response) (s : State) : (s.goOn l rest r).sched = s.sched := rfl
@[simp] theorem State.goOn_draws (l : Line) (rest : List Line) (r : Response) (s : State) : (s.goOn l rest r).draws = s.draws := rfl
@[simp] theorem State.goOn_outputs (l : Line) (rest : List Line) (r : Response) (s : State) :
    (s.goOn l rest r).outputs = s.outputs ++ l.output r := rfl
@[simp] theorem State.goOn_thread (l : Line) (rest : List Line) (r : Response) (s : State) :
    (s.goOn l rest r).thread =
      { s.thread with todo := l.rest s.cfg.delayFineTol r ++ rest, saved := l.keep r s.thread.saved } :=
  State.setThread_thread _ s
theorem State.goOn_normal (l : Line) (rest : List Line) (r : Response) (s : State) :
    (s.goOn l rest r).normal = if s.ctx.inHandler then s.normal else (s.goOn l rest r).thread := by
  rw [State.goOn_thread]; rfl
theorem State.goOn_handler (l : Line) (rest : List Line) (r : Response) (s : State) :
    (s.goOn l rest r).handler = if s.ctx.inHandler then (s.goOn l rest r).thread else s.handler := by
  rw [State.goOn_thread]; rfl

/-! ## Handler entry and return -/

theorem State.enterHandler_eq {s : State} {src : Source} (h1 : s.ctx.irqSuppressed = false) (h2 : s.ctx.inHandler = false)
    (h3 : s.ctx.pending.get src = true) :
    s.enterHandler src =
      { s with ctx := { irqSuppressed := true, inHandler := true, pending := s.ctx.pending.put false src }
               handler := Thread.fresh (src.body s.uartRx) } := by
  simp [State.enterHandler, State.canEnter, h1, h2, h3]

theorem State.enterHandler_cases (s : State) (src : Source) :
    s.enterHandler src = s ∨
    (s.ctx.irqSuppressed = false ∧ s.ctx.inHandler = false ∧ s.ctx.pending.get src = true ∧
      s.enterHandler src =
        { s with ctx := { irqSuppressed := true, inHandler := true, pending := s.ctx.pending.put false src }
                 handler := Thread.fresh (src.body s.uartRx) }) := by
  unfold State.enterHandler
  split_ifs with h
  · refine .inr ?_
    simp only [State.canEnter, Bool.and_eq_true, Bool.not_eq_true'] at h
    exact ⟨h.1.1, h.1.2, h.2, rfl⟩
  · exact .inl rfl

@[simp] theorem Pending.get_put_same (p : Pending) (b : Bool) (src : Source) : (p.put b src).get src = b := by
  cases src <;> rfl

theorem Pending.get_put_other (p : Pending) (b : Bool) {src src' : Source} (h : src' ≠ src) :
    (p.put b src).get src' = p.get src' := by
  cases src <;> cases src' <;> simp_all [Pending.put, Pending.get]

/-! ## Events and the counter -/

@[simp] theorem State.signal_cfg (e : Event) (s : State) : (s.signal e).cfg = s.cfg := by
  cases e <;> simp only [State.signal, State.receive] <;> (try split_ifs) <;> rfl
@[simp] theorem State.signal_fifos (e : Event) (s : State) : (s.signal e).fifos = s.fifos := by
  cases e <;> simp only [State.signal, State.receive] <;> (try split_ifs) <;> rfl
@[simp] theorem State.signal_clk (e : Event) (s : State) : (s.signal e).clk = s.clk := by
  cases e <;> simp only [State.signal, State.receive] <;> (try split_ifs) <;> rfl
@[simp] theorem State.signal_sws (e : Event) (s : State) : (s.signal e).sws = s.sws := by
  cases e <;> simp only [State.signal, State.receive] <;> (try split_ifs) <;> rfl
@[simp] theorem State.signal_normal (e : Event) (s : State) : (s.signal e).normal = s.normal := by
  cases e <;> simp only [State.signal, State.receive] <;> (try split_ifs) <;> rfl
@[simp] theorem State.signal_handler (e : Event) (s : State) : (s.signal e).handler = s.handler := by
  cases e <;> simp only [State.signal, State.receive] <;> (try split_ifs) <;> rfl
@[simp] theorem State.signal_resp (e : Event) (s : State) : (s.signal e).resp = s.resp := by
  cases e <;> simp only [State.signal, State.receive] <;> (try split_ifs) <;> rfl
@[simp] theorem State.signal_outputs (e : Event) (s : State) : (s.signal e).outputs = s.outputs := by
  cases e <;> simp only [State.signal, State.receive] <;> (try split_ifs) <;> rfl
@[simp] theorem State.signal_sched (e : Event) (s : State) : (s.signal e).sched = s.sched := by
  cases e <;> simp only [State.signal, State.receive] <;> (try split_ifs) <;> rfl
@[simp] theorem State.signal_inHandler (e : Event) (s : State) : (s.signal e).ctx.inHandler = s.ctx.inHandler := by
  cases e <;> simp only [State.signal, State.receive] <;> (try split_ifs) <;> rfl
@[simp] theorem State.signal_irqSuppressed (e : Event) (s : State) : (s.signal e).ctx.irqSuppressed = s.ctx.irqSuppressed := by
  cases e <;> simp only [State.signal, State.receive] <;> (try split_ifs) <;> rfl
/-- No event clears a pending bit. -/
theorem State.signal_pending {s : State} {src : Source} (e : Event) (h : s.ctx.pending.get src = true) :
    (s.signal e).ctx.pending.get src = true := by
  cases e <;> cases src <;> simp only [State.signal, State.receive] <;> (try split_ifs) <;> first | exact h | rfl

@[simp] theorem State.counterIncrement_cfg (s : State) : s.counterIncrement.cfg = s.cfg := by
  unfold State.counterIncrement; split_ifs <;> rfl
@[simp] theorem State.counterIncrement_fifos (s : State) : s.counterIncrement.fifos = s.fifos := by
  unfold State.counterIncrement; split_ifs <;> rfl
@[simp] theorem State.counterIncrement_clk (s : State) : s.counterIncrement.clk = s.clk := by
  unfold State.counterIncrement; split_ifs <;> rfl
@[simp] theorem State.counterIncrement_sws (s : State) : s.counterIncrement.sws = s.sws := by
  unfold State.counterIncrement; split_ifs <;> rfl
@[simp] theorem State.counterIncrement_normal (s : State) : s.counterIncrement.normal = s.normal := by
  unfold State.counterIncrement; split_ifs <;> rfl
@[simp] theorem State.counterIncrement_handler (s : State) : s.counterIncrement.handler = s.handler := by
  unfold State.counterIncrement; split_ifs <;> rfl
@[simp] theorem State.counterIncrement_resp (s : State) : s.counterIncrement.resp = s.resp := by
  unfold State.counterIncrement; split_ifs <;> rfl
@[simp] theorem State.counterIncrement_outputs (s : State) : s.counterIncrement.outputs = s.outputs := by
  unfold State.counterIncrement; split_ifs <;> rfl
@[simp] theorem State.counterIncrement_sched (s : State) : s.counterIncrement.sched = s.sched := by
  unfold State.counterIncrement; split_ifs <;> rfl
@[simp] theorem State.counterIncrement_inHandler (s : State) : s.counterIncrement.ctx.inHandler = s.ctx.inHandler := by
  unfold State.counterIncrement; split_ifs <;> rfl
@[simp] theorem State.counterIncrement_irqSuppressed (s : State) : s.counterIncrement.ctx.irqSuppressed = s.ctx.irqSuppressed := by
  unfold State.counterIncrement; split_ifs <;> rfl
/-- No event clears a pending bit. -/
theorem State.counterIncrement_pending {s : State} {src : Source} (h : s.ctx.pending.get src = true) :
    s.counterIncrement.ctx.pending.get src = true := by
  unfold State.counterIncrement; split_ifs <;> cases src <;> first | exact h | rfl

end Sys2Proof.Machine
end

