-- ==== Sys2Proof/Tests/Slice0.lean ====
section
/-! SUPPORT. The model's own tests: ill-formed terms refused, words written out from the spec's encoding, single commands from
95_test_vectors.md, and for every obligation with hypotheses a state and operands that meet them. -/

namespace Sys2Proof.Tests

open Machine

/-! ## States -/

/-- After reset, with the instances of R57's count. -/
def base : State := State.resetWith Config.r57 ResetDraw.zero []

/-- FIFO 0 of F5: capacity 4, full, `head < tail`. -/
def full : Fifo := { head := 0, tail := 1, storage := [(0, 1), (1, 2), (2, 3), (3, 4), (4, 5)] }

/-- FIFO 0 of F3, full, `tail < head`. -/
def full0 : Fifo := { head := 4, tail := 0, storage := [(0, 1), (1, 2), (2, 3), (3, 4)] }

/-- An empty FIFO whose indices are not 0 (F13). -/
def empty3 : Fifo := { head := 3, tail := 3, storage := [(0, 1)] }

def withFifos (f g : Fifo) : State := { base with fifos := [f, g] }

def withSw (w : Stopwatch) (ms : Word) : State := { base with sws := [w], clk := { base.clk with ms := ms } }

/-- The coupled treatment of the counter, `TMR.cnt = n`, and a context that carries `latch`. -/
def fine (w : Stopwatch) (n : Nat) (ovf : Word) (latch : Option Word) : State :=
  { base with cfg := { base.cfg with timer := .coupled }, sws := [w], tmrCnt := n, clk := { base.clk with ovf := ovf }
              normal := { todo := [.command 0x4200], latch := latch, saved := [] } }

def issuing (t : List Line) (ms : List Move) : State :=
  { base with normal := { todo := t, latch := none, saved := [] }, sched := ms }

def flags (suppressed inHandler : Bool) (p : Pending) (s : State) : State :=
  { s with ctx := { irqSuppressed := suppressed, inHandler := inHandler, pending := p } }

def fifoOf (k : Nat) : Result → Option Fifo
  | .next s => s.fifos[k]?
  | _ => none

def swOf : Result → Option Stopwatch
  | .next s => s.sws[0]?
  | _ => none

def clkOf : Result → Option Clock
  | .next s => some s.clk
  | _ => none

def ctxOf : Result → Option Ctx
  | .next s => some s.ctx
  | _ => none

def respOf : Result → Option Response
  | .next s => s.resp
  | _ => none

def faultOf : Result → Option Fault
  | .fault e => some e
  | _ => none

def refusalOf : Result → Option Refusal
  | .refused e => some e
  | _ => none

/-! ## Ill-formed terms (R57, R93, R98) -/

theorem test_wf_fifo_instance : (Instr.peek 2).wf Config.r57 = false ∧ (Instr.peek 1).wf Config.r57 = true := by decide
theorem test_wf_stopwatch_instance :
    (Instr.swPoll 1).wf Config.r57 = false ∧ (Instr.swPoll 0).wf Config.r57 = true := by decide
theorem test_wf_micros_needs_fine : Instr.micros.wf { Config.r57 with hasFine := false } = false := by decide
theorem test_wf_fine_needs_fine :
    (Instr.swInit 0 .fine).wf { Config.r57 with hasFine := false } = false ∧
    (Instr.swInit 0 .milli).wf { Config.r57 with hasFine := false } = true := by decide

/-! ## Decoding: the words of 95_test_vectors.md 2.5, bit by bit where R54 to R56 write them so -/

theorem test_decode_isEmpty : decode Config.r57 0b0001_0000_0000_0000 = .ok (.isEmpty 1) := by decide
theorem test_decode_peek : decode Config.r57 0b0000_0001_0000_0000 = .ok (.peek 0) := by decide
theorem test_decode_remove : decode Config.r57 0b0001_0010_0000_0000 = .ok (.remove 1) := by decide
theorem test_decode_add : decode Config.r57 0b0001_0011_0100_0001 = .ok (.add 1 0x41) := by decide
theorem test_decode_count : decode Config.r57 0b0000_0100_0000_0000 = .ok (.count 0) := by decide
theorem test_decode_free : decode Config.r57 0b0001_0101_0000_0000 = .ok (.free 1) := by decide
theorem test_decode_tick : decode Config.r57 0b0100_0000_0000_0000 = .ok .tick := by decide
theorem test_decode_millis : decode Config.r57 0b0100_0001_0000_0000 = .ok .millis := by decide
theorem test_decode_micros : decode Config.r57 0b0100_0010_0000_0000 = .ok .micros := by decide
theorem test_decode_swInit : decode Config.r57 0b1000_0000_0000_0010 = .ok (.swInit 0 .second) := by decide
theorem test_decode_swStart : decode Config.r57 0b1000_0001_0000_0000 = .ok (.swStart 0) := by decide
theorem test_decode_swStop : decode Config.r57 0b1000_0010_0000_0000 = .ok (.swStop 0) := by decide
theorem test_decode_swPoll : decode Config.r57 0b1000_0011_0000_0000 = .ok (.swPoll 0) := by decide
theorem test_decode_swElapsed : decode Config.reference 0b1001_0100_0000_0000 = .ok (.swElapsed 1) := by decide
theorem test_decode_swReset : decode Config.r57 0b1000_0101_0000_0000 = .ok (.swReset 0) := by decide
theorem test_decode_irqSuppress : decode Config.r57 0b1100_0000_0000_0000 = .ok .irqSuppress := by decide
theorem test_decode_irqRestore :
    decode Config.r57 0b1100_0001_0000_0000 = .ok (.irqRestore false) ∧
    decode Config.r57 0b1100_0001_0000_0001 = .ok (.irqRestore true) := by decide
theorem test_decode_reserved_fifo :
    decode Config.r57 0x2000 = .error .badInstance ∧ decode Config.r57 0x0001 = .error .nonzeroArg ∧
    decode Config.r57 0x0600 = .error .reservedOp ∧ decode Config.r57 0x0F00 = .error .reservedOp := by decide
theorem test_decode_reserved_clock :
    decode Config.r57 0x4001 = .error .nonzeroArg ∧ decode Config.r57 0x4201 = .error .nonzeroArg ∧
    decode Config.r57 0x4300 = .error .reservedOp ∧ decode Config.r57 0x5000 = .error .badInstance ∧
    decode { Config.r57 with hasFine := false } 0x4200 = .error .noFineTime := by decide
theorem test_decode_reserved_stopwatch :
    decode Config.r57 0x8003 = .error .badResolution ∧ decode Config.r57 0x8004 = .error .nonzeroArg ∧
    decode Config.r57 0x8080 = .error .nonzeroArg ∧ decode Config.r57 0x8600 = .error .reservedOp ∧
    decode Config.r57 0x9400 = .error .badInstance ∧
    decode { Config.r57 with hasFine := false } 0x8000 = .error .noFineTime := by decide
theorem test_decode_reserved_context :
    decode Config.r57 0xC001 = .error .nonzeroArg ∧ decode Config.r57 0xC102 = .error .nonzeroArg ∧
    decode Config.r57 0xC200 = .error .reservedOp ∧ decode Config.r57 0xD000 = .error .badInstance ∧
    decode Config.r57 0xFFFF = .error .badInstance := by decide

theorem test_decodeTableWord : decodeTableWord 16 0x0341 = some (.add 0 0x41) ∧ decodeTableWord 16 0x8003 = none := by decide

/-! ## Single commands: the vectors of 95_test_vectors.md 2.1 to 2.4 -/

/-- F4: eviction, and `head` wraps. -/
theorem test_add_evicts : fifoOf 0 (exec (.add 0 5) (withFifos full0 full)) = some full := by decide
/-- F17: capacity 1. -/
theorem test_add_capacity_one :
    fifoOf 0 (exec (.add 0 0xBB)
      { base with cfg := { base.cfg with caps := [1, 1] }, fifos := [{ head := 1, tail := 0, storage := [(0, 0xAA)] }] }) =
      some { head := 0, tail := 1, storage := [(0, 0xAA), (1, 0xBB)] } := by decide
/-- F5, F6, F7. -/
theorem test_count : respOf (exec (.count 0) (withFifos full full)) = some ⟨.ok, 4⟩ := by decide
theorem test_free : respOf (exec (.free 0) (withFifos full full)) = some ⟨.ok, 0⟩ := by decide
theorem test_isEmpty : respOf (exec (.isEmpty 0) (withFifos full full)) = some ⟨.ok, 0⟩ := by decide
/-- F8, F14. -/
theorem test_peek : respOf (exec (.peek 0) (withFifos full full)) = some ⟨.ok, 2⟩ := by decide
theorem test_peek_empty : faultOf (exec (.peek 0) (withFifos empty3 full)) = some .peekEmpty := by decide
/-- F12: `tail` wraps. -/
theorem test_remove_wraps :
    fifoOf 0 (exec (.remove 0) (withFifos { full with tail := 4 } full)) = some { full with tail := 0 } := by decide
/-- F13. -/
theorem test_remove_empty : fifoOf 0 (exec (.remove 0) (withFifos empty3 full)) = some empty3 := by decide
/-- K2, K8. -/
theorem test_tick :
    clkOf (exec .tick { base with clk := { ms := 0, frac := 125, ovf := 1 } }) =
      some { ms := 1, frac := 122, ovf := 2 } := by decide
theorem test_tick_wraps :
    clkOf (exec .tick { base with clk := { ms := 0xFFFFFFFF, frac := 3, ovf := 0xFFFFFFFF } }) =
      some { ms := 0, frac := 0, ovf := 0 } := by decide
/-- K9. -/
theorem test_millis :
    respOf (exec .millis { base with clk := { ms := 0xFF, frac := 0, ovf := 0 } }) = some ⟨.ok, 0xFF⟩ := by decide
/-- K14, K16. -/
theorem test_micros : respOf (exec .micros (fine (Stopwatch.atReset 0) 250 10 (some 10))) = some ⟨.ok, 11240⟩ := by decide
theorem test_micros_wraps :
    respOf (exec .micros (fine (Stopwatch.atReset 0) 255 0 (some 0xFFFFFFFF))) = some ⟨.ok, 0xFFFFFFFC⟩ := by decide
/-- S17. -/
theorem test_swInit :
    swOf (exec (.swInit 0 .milli) (withSw ⟨.second, 9, 976, true⟩ 0)) = some ⟨.milli, 0, 976, false⟩ := by decide
/-- S2, S18. -/
theorem test_swStart : swOf (exec (.swStart 0) (withSw ⟨.milli, 0, 7, false⟩ 500)) = some ⟨.milli, 0, 500, true⟩ := by decide
theorem test_swStart_running :
    swOf (exec (.swStart 0) (withSw ⟨.milli, 30, 530, true⟩ 560)) = some ⟨.milli, 30, 560, true⟩ := by decide
/-- S5. -/
theorem test_swStop : swOf (exec (.swStop 0) (withSw ⟨.milli, 30, 530, true⟩ 560)) = some ⟨.milli, 30, 530, false⟩ := by decide
/-- S10, S11. -/
theorem test_swPoll_wraps :
    swOf (exec (.swPoll 0) (withSw ⟨.milli, 0, 0xFFFFFFF0, true⟩ 0x10)) = some ⟨.milli, 32, 0x10, true⟩ := by decide
theorem test_swPoll_second :
    swOf (exec (.swPoll 0) (withSw ⟨.second, 7, 0xFFFFFC00, true⟩ 1500)) = some ⟨.second, 9, 976, true⟩ := by decide
/-- S14, S16 (its second poll). -/
theorem test_swElapsed :
    respOf (exec (.swElapsed 0) (withSw ⟨.milli, 0xFFFFFFF0, 0, true⟩ 0x20)) = some ⟨.ok, 16⟩ := by decide
theorem test_swElapsed_fine :
    respOf (exec (.swElapsed 0) (fine ⟨.fine, 0xFFFFFC0C, 10248, true⟩ 9 11 (some 11))) = some ⟨.ok, 40⟩ := by decide
/-- S8. -/
theorem test_swReset :
    swOf (exec (.swReset 0) (withSw ⟨.milli, 40, 1010, true⟩ 1200)) = some ⟨.milli, 0, 1200, true⟩ := by decide
/-- X2. -/
theorem test_irqSuppress :
    respOf (exec .irqSuppress (flags true false ⟨false, false, false⟩ base)) = some ⟨.ok, 1⟩ := by decide
/-- X3, X11. -/
theorem test_irqRestore :
    ctxOf (exec (.irqRestore true) (flags true false ⟨false, false, false⟩ base)) =
      some ⟨true, false, ⟨false, false, false⟩⟩ := by decide
theorem test_irqRestore_handler :
    faultOf (exec (.irqRestore false) (flags true true ⟨false, false, false⟩ base)) = some .handlerEnabledInterrupts := by
  decide

/-! ## Steps -/

/-- X7, X9. -/
theorem test_handler_entry :
    ctxOf (step { flags false false ⟨true, false, false⟩ base with sched := [.enter .tov] }) =
      some ⟨true, true, ⟨false, false, false⟩⟩ := by decide
/-- X5, X6: an event while interrupts are suppressed; a second one merges. -/
theorem test_event_merges :
    ctxOf (step { flags true false ⟨true, false, false⟩ base with sched := [.event .tov] }) =
      some ⟨true, false, ⟨true, false, false⟩⟩ := by decide
/-- P6, row 5: CounterIncrement wraps. -/
theorem test_counter_wraps :
    ctxOf (step { base with tmrCnt := 255, sched := [.increment] }) = some ⟨false, false, ⟨true, false, false⟩⟩ := by decide
/-- K24: the window's edges. -/
theorem test_window :
    withinWindow 8 0x0C 0x10 = true ∧ withinWindow 8 0x18 0x10 = true ∧ withinWindow 8 0x19 0x10 = false ∧
    withinWindow 8 0xFFFFFFFC 0x10 = false := by decide
theorem test_reserved_word_refused : respOf (step (issuing [.command 0xFFFF] [])) = some ⟨.illegal, 0⟩ := by decide
theorem test_bad_parameters :
    refusalOf (step { base with cfg := { base.cfg with fracInc := 129 } }) = some .badParameters := by decide
/-- The first instruction after reset. -/
theorem test_withFetchWord :
    respOf (step (State.reset.withFetchWord 16 0xC000)) = some ⟨.ok, 0⟩ ∧
    fifoOf 3 (step (State.reset.withFetchWord 16 0x3341)) = some { head := 1, tail := 0, storage := [(0, 0x41)] } := by decide

/-! ## States that meet the hypotheses of the obligations

One theorem per obligation that has hypotheses, under its name; where it has clauses, one state or operand for each. -/

theorem full_at : (withFifos full full0).FifoAt 0 4 full := ⟨rfl, rfl⟩
theorem full0_at : (withFifos full full0).FifoAt 1 4 full0 := ⟨rfl, rfl⟩
theorem empty_at : (withFifos empty3 full0).FifoAt 0 4 empty3 := ⟨rfl, rfl⟩
theorem full_ok : full.Ok 4 := ⟨by decide, ⟨by decide, by decide⟩, by decide, by decide⟩
theorem full0_ok : full0.Ok 4 := ⟨by decide, ⟨by decide, by decide⟩, by decide, by decide⟩
theorem empty_ok : empty3.Ok 4 := ⟨by decide, ⟨by decide, by decide⟩, by decide, by decide⟩

/-- A state as a run can leave it: FIFO 0 full, FIFO 1 empty, interrupts on, any program and schedule. -/
def running (t : List Line) (ms : List Move) : State :=
  { withFifos full empty3 with normal := { todo := t, latch := none, saved := [] }, sched := ms }

theorem running_inv (t : List Line) (ms : List Move) : (running t ms).Inv where
  legal := rfl
  fifoCount := rfl
  fifoOk := by
    intro k n f hk hf
    rcases k with _ | _ | k
    · cases hk; cases hf; exact full_ok
    · cases hk; cases hf; exact empty_ok
    · cases hk
  frac := show 0 < 128 by decide
  ovfAbsent := fun _ => rfl
  swCount := rfl
  swRes := by
    intro k w hw hr
    rcases k with _ | k
    · cases hw; cases hr
    · cases hw
  handlerMasked := by intro h; cases h
  handlerIdle := fun _ => rfl
  counter := show 0 < 256 by decide

theorem meets_DecodeOfEncodeIsTheInstruction :
    (Instr.add 3 0xFF).wf Config.reference = true ∧ (Instr.swInit 3 .fine).wf Config.reference = true := by decide
theorem meets_DecodedWordsAreTheEncodings : decode Config.reference 0x33FF = .ok (.add 3 0xFF) := by decide
theorem meets_DecodedWordMatchesOnlyItsRow :
    decode Config.reference 0x33FF = .ok (.add 3 0xFF) ∧ (Instr.add 0 0).row.selects 0x33FF = true := by decide

/-- `0xFFFF` encodes nothing; the schedule is empty, or the context's move is next. -/
theorem meets_ReservedCommandIsRefusedAndTheBlockGoesOn :
    (∀ i : Instr, i.wf (issuing [.command 0xFFFF] []).cfg = true → encode i ≠ 0xFFFF) ∧
    ∀ ms, (issuing [.command 0xFFFF] ms).cfg.legal = true ∧
      (issuing [.command 0xFFFF] []).sched = [] ∧ (issuing [.command 0xFFFF] (.context :: ms)).sched = .context :: ms ∧
      (issuing [.command 0xFFFF] ms).thread.todo = [.command 0xFFFF] := by
  refine ⟨?_, fun _ => ⟨rfl, rfl, rfl, rfl⟩⟩
  intro i _ h
  have row : i.row.selects (encode i) = true := by
    cases i with
    | add k b => exact Laws.TableRow.add k b
    | swInit j r => exact Laws.TableRow.swInit j r
    | irqRestore f => exact Laws.TableRow.irqRestore f
    | isEmpty k => exact Laws.TableRow.isEmpty k
    | peek k => exact Laws.TableRow.peek k
    | remove k => exact Laws.TableRow.remove k
    | count k => exact Laws.TableRow.count k
    | free k => exact Laws.TableRow.free k
    | tick => exact Laws.TableRow.tick
    | millis => exact Laws.TableRow.millis
    | micros => exact Laws.TableRow.micros
    | swStart k => exact Laws.TableRow.swStart k
    | swStop k => exact Laws.TableRow.swStop k
    | swPoll k => exact Laws.TableRow.swPoll k
    | swElapsed k => exact Laws.TableRow.swElapsed k
    | swReset k => exact Laws.TableRow.swReset k
    | irqSuppress => exact Laws.TableRow.irqSuppress
  rw [h] at row
  cases i <;> exact absurd row (by simp only [Instr.row]; decide)
theorem meets_ReservedCommandIsRefused_illFormed :
    (running [] []).Inv ∧ (Instr.peek 2).wf (running [] []).cfg = false ∧ (Instr.swPoll 3).wf (running [] []).cfg = false :=
  ⟨running_inv _ _, by decide, by decide⟩

theorem meets_ResetZeroesTheClockAndEmptiesTheUnits :
    (State.resetWith Config.r57 ResetDraw.zero []).fifos[1]? = some (Fifo.atReset []) ∧
    (State.resetWith Config.r57 ResetDraw.zero []).sws[0]? = some (Stopwatch.atReset 0) := by decide
theorem meets_InvariantHoldsAtReset : Config.r57.legal = true ∧ Config.reference.legal = true := by decide
theorem meets_ResetMoveResetsTheMachine :
    (running [] [.reset ResetDraw.zero []]).cfg.legal = true ∧
    (running [] [.reset ResetDraw.zero []]).sched = [.reset ResetDraw.zero []] := ⟨by decide, rfl⟩

/-- A command, an event, the counter, an entry and a reset, each from a state with the invariant. -/
theorem meets_EveryStepKeepsTheInvariant :
    (∀ t ms, (running t ms).Inv) ∧
    (∃ t, step (running [.command 0x0305] []) = .next t) ∧ (∃ t, step (running [] [.event (.rxc 7)]) = .next t) ∧
    (∃ t, step (running [] [.increment]) = .next t) ∧ (∃ t, step (running [] [.enter .dre]) = .next t) ∧
    ∃ t, step (running [] [.reset ResetDraw.zero []]) = .next t :=
  ⟨running_inv, ⟨_, rfl⟩, ⟨_, rfl⟩, ⟨_, rfl⟩, ⟨_, rfl⟩, ⟨_, rfl⟩⟩

/-- MICROS, phase A and phase B. -/
theorem meets_EveryStepKeepsTheLatchDiscipline :
    (running [.command 0x4200] []).Inv ∧ (running [.command 0x4200] []).LatchOk ∧
    (∃ t, step (running [.command 0x4200] []) = .next t ∧ t.normal.latch = some 0) ∧
    { running [.command 0x4200] [] with normal := { todo := [.command 0x4200], latch := some 3, saved := [] } }.LatchOk :=
  ⟨running_inv _ _, ⟨fun h => absurd rfl h, fun h => absurd rfl h⟩, ⟨_, rfl, rfl⟩,
    ⟨fun _ => ⟨_, _, rfl, _, _, rfl, rfl, rfl⟩, fun h => absurd rfl h⟩⟩

theorem meets_EveryStepKeepsFifoIndicesInRange :
    (State.resetWith Config.r57 ResetDraw.zero []).fifos[0]? = some (Fifo.atReset []) ∧
    (running [.command 0x0200] []).cfg.caps[0]? = some 4 ∧ (running [.command 0x0200] []).fifos[0]? = some full ∧
    full.IndicesOk 4 ∧ ∃ t, step (running [.command 0x0200] []) = .next t ∧ t.fifos[0]? = some { full with tail := 2 } :=
  ⟨by decide, rfl, rfl, full_ok.indices, ⟨_, rfl, by decide⟩⟩
theorem meets_NoStepChangesParametersOrInstances :
    (running [.command 0x0200] []).fifos.length = (running [.command 0x0200] []).cfg.nFifo ∧
    (running [.command 0x0200] []).sws.length = (running [.command 0x0200] []).cfg.nsw ∧
    ∃ t, step (running [.command 0x0200] []) = .next t := ⟨rfl, rfl, ⟨_, rfl⟩⟩

/-- The largest capacity at its last index, and the smallest at its first. -/
theorem meets_IncIsAdditionOfOneModuloM :
    (Config.legalCap 255 = true ∧ (255 : Byte).toNat < 255 + 1) ∧ (Config.legalCap 1 = true ∧ (0 : Byte).toNat < 1 + 1) := by
  decide
theorem meets_CountIsTheModularDifferenceAndAtMostN :
    (full.IndicesOk 4 ∧ full.head.toNat < full.tail.toNat) ∧ (full0.IndicesOk 4 ∧ full0.tail.toNat ≤ full0.head.toNat) ∧
    (empty3.IndicesOk 4 ∧ empty3.tail.toNat ≤ empty3.head.toNat) :=
  ⟨⟨full_ok.indices, by decide⟩, ⟨full0_ok.indices, by decide⟩, ⟨empty_ok.indices, by decide⟩⟩
theorem meets_IsEmptyAnswersWhetherHeadIsTail :
    (withFifos full full0).FifoAt 0 4 full ∧ (withFifos empty3 full0).FifoAt 0 4 empty3 := ⟨full_at, empty_at⟩
theorem meets_PeekAnswersTheOldestByteOrFaults :
    ((withFifos full full0).FifoAt 0 4 full ∧ full.head ≠ full.tail) ∧
    ((withFifos empty3 full0).FifoAt 0 4 empty3 ∧ empty3.head = empty3.tail) :=
  ⟨⟨full_at, by decide⟩, ⟨empty_at, rfl⟩⟩
theorem meets_RemoveAdvancesTailUnlessEmpty :
    ((withFifos full full0).FifoAt 1 4 full0 ∧ full0.head ≠ full0.tail) ∧
    ((withFifos empty3 full0).FifoAt 0 4 empty3 ∧ empty3.head = empty3.tail) :=
  ⟨⟨full0_at, by decide⟩, ⟨empty_at, rfl⟩⟩
/-- A full FIFO, which evicts, and an empty one, which does not. -/
theorem meets_AddStoresAdvancesAndEvictsWhenFull :
    ((withFifos full full0).FifoAt 0 4 full ∧ full.Ok 4 ∧ full.cnt 4 = 4) ∧
    ((withFifos empty3 full0).FifoAt 0 4 empty3 ∧ empty3.Ok 4 ∧ empty3.cnt 4 = 0) :=
  ⟨⟨full_at, full_ok, by decide⟩, ⟨empty_at, empty_ok, by decide⟩⟩
theorem meets_CountAndFreeAnswerTheCountAndItsComplement :
    ((withFifos full full0).FifoAt 0 4 full ∧ full.Ok 4) ∧ ((withFifos full full0).FifoAt 1 4 full0 ∧ full0.Ok 4) :=
  ⟨⟨full_at, full_ok⟩, ⟨full0_at, full0_ok⟩⟩
/-- A content with a first byte, and none. -/
theorem meets_FifoOperationsRefineABoundedQueue :
    ((withFifos full full0).FifoAt 0 4 full ∧ full.Ok 4 ∧ full.content 4 = [2, 3, 4, 5]) ∧
    ((withFifos empty3 full0).FifoAt 0 4 empty3 ∧ empty3.Ok 4 ∧ empty3.content 4 = []) :=
  ⟨⟨full_at, full_ok, by decide⟩, ⟨empty_at, empty_ok, by decide⟩⟩
/-- Four ADDs to FIFO 0 with other commands between them: exactly `N` bytes. -/
theorem meets_AfterNAddsTheContentIsTheLastNBytes :
    let is : List Instr := [.add 0 6, .remove 1, .add 0 7, .tick, .add 0 8, .peek 0, .add 1 1, .add 0 9]
    (withFifos full full0).FifoAt 0 4 full ∧ full.Ok 4 ∧ (∀ o ∈ is, o ≠ .remove 0) ∧
    4 ≤ (is.filterMap (Instr.addedTo 0)).length ∧
    ∃ t, State.execAll is (withFifos full full0) = .next t ∧ (t.fifos[0]?.map fun g => g.content 4) = some [6, 7, 8, 9] :=
  ⟨full_at, full_ok, by decide, by decide, ⟨_, rfl, by decide⟩⟩
theorem meets_FifoOperationsChangeOnlyTheirInstance :
    (∃ t, exec (.isEmpty 0) (withFifos full full0) = .next t) ∧ (∃ t, exec (.peek 0) (withFifos full full0) = .next t) ∧
    (∃ t, exec (.remove 0) (withFifos full full0) = .next t) ∧ (∃ t, exec (.add 1 9) (withFifos full full0) = .next t) ∧
    (∃ t, exec (.count 0) (withFifos full full0) = .next t) ∧ ∃ t, exec (.free 0) (withFifos full full0) = .next t :=
  ⟨⟨_, rfl⟩, ⟨_, rfl⟩, ⟨_, rfl⟩, ⟨_, rfl⟩, ⟨_, rfl⟩, ⟨_, rfl⟩⟩
theorem meets_ReadsChangeNothingAndRepeat :
    (∃ t, exec (.isEmpty 0) (withFifos empty3 full0) = .next t) ∧ (∃ t, exec (.peek 1) (withFifos empty3 full0) = .next t) ∧
    (∃ t, exec (.count 0) (withFifos empty3 full0) = .next t) ∧ (∃ t, exec (.free 0) (withFifos empty3 full0) = .next t) ∧
    ∃ t, exec .millis (withFifos empty3 full0) = .next t := ⟨⟨_, rfl⟩, ⟨_, rfl⟩, ⟨_, rfl⟩, ⟨_, rfl⟩, ⟨_, rfl⟩⟩

theorem meets_TicksFromResetHaveTheClosedForm :
    Config.reference.legal = true ∧ { Config.reference with hasFine := false, fracInc := 1, fracDen := 1 }.legal = true := by
  decide
/-- A crossing at the wrap of `CLK.ms`. -/
theorem meets_TickKeepsTheAccumulatorBelowTheDenominator :
    1 ≤ Config.r57.fracDen ∧ 1 ≤ base.cfg.fracInc ∧ base.cfg.fracInc ≤ base.cfg.fracDen ∧ base.clk.frac < base.cfg.fracDen ∧
    clkOf (exec .tick { base with clk := { ms := 0xFFFFFFFF, frac := 127, ovf := 0 } }) = some ⟨0, 124, 1⟩ := by decide
theorem meets_WrapSafeDifferenceCountsTheAdvances :
    ∃ t, State.execAll [.tick, .millis, .tick] { base with clk := { ms := 0xFFFFFFFF, frac := 3, ovf := 0 } } = .next t ∧
      t.clk.ms = 0 ∧ Clock.advances base.cfg [.tick, .millis, .tick] { ms := 0xFFFFFFFF, frac := 3, ovf := 0 } = 1 :=
  ⟨_, rfl, by decide, by decide⟩
theorem meets_MicrosPhaseALatchesTheOverflowCount :
    (base.latch = none ∧ base.cfg.hasFine = true) ∧
    ({ base with cfg := { base.cfg with hasFine := false } }.latch = none ∧
     { base with cfg := { base.cfg with hasFine := false } }.cfg.hasFine = false) := by decide
/-- Both treatments of the sample; the coupled counter at its last value. -/
theorem meets_MicrosPhaseBAnswersTheFineTime (s : State)
    (h : s = fine (Stopwatch.atReset 0) 255 10 (some 0xFFFFFFFF) ∨
      s = { base with normal := { todo := [], latch := some 0, saved := [] } }) :
    s.cfg.hasFine = true ∧ 1 ≤ s.cfg.period ∧ s.tmrCnt < s.cfg.period ∧ ∃ o, s.latch = some o := by
  rcases h with rfl | rfl <;> exact ⟨by decide, by decide, by decide, _, rfl⟩
/-- P6, row 8: `T = 11 * 256 + 2`, and phase A had read 10. -/
theorem meets_MicrosRaceIsShortByOneOverflowPeriod :
    let s := fine (Stopwatch.atReset 0) 2 11 (some 10)
    s.cfg.hasFine = true ∧ 1 ≤ s.cfg.period ∧ s.cfg.timer = .coupled ∧ s.cfg.period ≤ 2818 ∧
    s.tmrCnt = 2818 % s.cfg.period ∧ s.latch = some (BitVec.ofNat 32 (2818 / s.cfg.period - 1)) := by decide
/-- K17: the overflow counter at `0x00400000`, where fine time wraps; and its neighbour one increment before. -/
theorem meets_FineTimeIsARing :
    (let s := fine (Stopwatch.atReset 0) 0 0x400000 (some 0x400000)
     s.cfg.hasFine = true ∧ 1 ≤ s.cfg.period ∧ s.cfg.timer = .coupled ∧ s.tmrCnt = 0x40000000 % s.cfg.period ∧
     s.latch = some (BitVec.ofNat 32 (0x40000000 / s.cfg.period))) ∧
    0x3FFFFFFF ≤ 0x40000000 ∧ (0x40000000 - 0x3FFFFFFF) * 4 < 2 ^ 32 := by decide
theorem meets_ClockOperationsChangeOnlyTheClock :
    (∃ t, exec .tick base = .next t) ∧ (∃ t, exec .millis base = .next t) ∧ (∃ t, exec .micros base = .next t) ∧
    ∃ t, exec .tick (flags true true ⟨false, false, false⟩ base) = .next t := ⟨⟨_, rfl⟩, ⟨_, rfl⟩, ⟨_, rfl⟩, ⟨_, rfl⟩⟩

theorem meets_SwInitSetsResolutionAndClears :
    (withSw ⟨.second, 9, 976, true⟩ 0).sws[(0 : BitVec 2).toNat]? = some ⟨.second, 9, 976, true⟩ ∧
    (withSw ⟨.second, 9, 976, true⟩ 0).cfg.hasFine = true ∧
    { withSw ⟨.second, 9, 976, true⟩ 0 with cfg := { base.cfg with hasFine := false } }.cfg.hasFine = false := by decide
theorem meets_SwStartAndSwResetSampleTheMilliseconds :
    (withSw ⟨.second, 9, 976, true⟩ 0xFFFFFFFF).sws[(0 : BitVec 2).toNat]? = some ⟨.second, 9, 976, true⟩ ∧
    (withSw ⟨.second, 9, 976, true⟩ 0xFFFFFFFF).latch = none := by decide
/-- Phase A and phase B. -/
theorem meets_FineSwStartAndSwResetHaveTwoPhases :
    let w : Stopwatch := ⟨.fine, 0, 0, false⟩
    (fine w 255 10 none).sws[(0 : BitVec 2).toNat]? = some w ∧ (fine w 255 10 none).latch = none ∧
    (fine w 255 10 (some 10)).sws[(0 : BitVec 2).toNat]? = some w ∧ (fine w 255 10 (some 10)).latch = some 10 ∧
    1 ≤ (fine w 255 10 (some 10)).cfg.period ∧ (fine w 255 10 (some 10)).tmrCnt < (fine w 255 10 (some 10)).cfg.period := by
  decide
theorem meets_SwStopClearsOnlyTheRunningFlag :
    (withSw ⟨.milli, 40, 500, true⟩ 530).sws[(0 : BitVec 2).toNat]? = some ⟨.milli, 40, 500, true⟩ := by decide
theorem meets_StoppedStopwatchIsFrozen :
    (withSw ⟨.fine, 30, 530, false⟩ 900).sws[(0 : BitVec 2).toNat]? = some ⟨.fine, 30, 530, false⟩ ∧
    (withSw ⟨.fine, 30, 530, false⟩ 900).latch = none := by decide
theorem meets_MilliPollCommitsTheWrapSafeDelta :
    (withSw ⟨.milli, 0, 0xFFFFFFF0, true⟩ 0x10).sws[(0 : BitVec 2).toNat]? = some ⟨.milli, 0, 0xFFFFFFF0, true⟩ ∧
    (withSw ⟨.milli, 0, 0xFFFFFFF0, true⟩ 0x10).latch = none := by decide
theorem meets_SecondPollCommitsWholeSecondsAndCarriesTheRest :
    (withSw ⟨.second, 0, 100, true⟩ 1099).sws[(0 : BitVec 2).toNat]? = some ⟨.second, 0, 100, true⟩ ∧
    (withSw ⟨.second, 0, 100, true⟩ 1099).latch = none := by decide
/-- S16: phase A, and phase B of a race. -/
theorem meets_FinePollHasTwoPhases :
    let w : Stopwatch := ⟨.fine, 0, 11260, true⟩
    (fine w 2 11 none).sws[(0 : BitVec 2).toNat]? = some w ∧ (fine w 2 11 none).latch = none ∧
    (fine w 2 11 (some 10)).sws[(0 : BitVec 2).toNat]? = some w ∧ (fine w 2 11 (some 10)).latch = some 10 ∧
    1 ≤ (fine w 2 11 (some 10)).cfg.period ∧ (fine w 2 11 (some 10)).tmrCnt < (fine w 2 11 (some 10)).cfg.period := by decide
theorem meets_WrapDetectionIsWrapSafeSubtraction :
    (0xFFFFFFF0 : Word).toNat > (0x10 : Word).toNat ∧ (0xFFFFFFFF : Word).toNat > (0 : Word).toNat := by decide
/-- A `SECOND` stopwatch across the wrap of `CLK.ms`, and a `MILLI` one at the last millisecond that is in time: other commands
stand between, and the polls come in time. -/
theorem meets_PolledStopwatchLosesNoMillisecond :
    let is := [Instr.tick, .swPoll 0, .millis, .tick, .irqSuppress, .swElapsed 0, .add 0 7]
    (∀ w : Stopwatch, (withSw w 0xFFFFFFFF).sws[(0 : BitVec 2).toNat]? = some w ∧ (withSw w 0xFFFFFFFF).latch = none) ∧
    (∀ i ∈ is, ¬ Instr.SetsUp 0 i) ∧
    (∃ t, State.completeAll is (withSw ⟨.second, 0, 0xFFFFFFFF, true⟩ 0xFFFFFFFF) = .next t) ∧
    (∃ t, State.completeAll is (withSw ⟨.milli, 0, 1, true⟩ 0xFFFFFFFF) = .next t) ∧
    Clock.PolledInTime Config.r57 0 .second is ⟨0xFFFFFFFF, 0, 0⟩ ((0xFFFFFFFF : Word) - 0xFFFFFFFF).toNat ∧
    Clock.PolledInTime Config.r57 0 .milli is ⟨0xFFFFFFFF, 0, 0⟩ ((0xFFFFFFFF : Word) - 1).toNat ∧
    (0 : Word).toNat * 1000 + ((0xFFFFFFFF : Word) - 0xFFFFFFFF).toNat +
      Clock.advances Config.r57 is ⟨0xFFFFFFFF, 0, 0⟩ < 2 ^ 32 * 1000 :=
  ⟨fun _ => ⟨rfl, rfl⟩, by simp [Instr.SetsUp], ⟨_, rfl⟩, ⟨_, rfl⟩,
    by simp [Clock.PolledInTime, Clock.crossing, Clock.tick, Resolution.carried, Config.r57, Config.reference],
    by simp [Clock.PolledInTime, Clock.crossing, Clock.tick, Resolution.carried, Config.r57, Config.reference], by decide⟩
/-- R153: 2^32 ms and 1 unpolled are not in time. -/
theorem test_not_polled_in_time :
    ¬ Clock.PolledInTime Config.r57 0 .milli [.millis, .swPoll 0] ⟨0, 0, 0⟩ (2 ^ 32) := by
  simp [Clock.PolledInTime]
theorem meets_StopwatchOperationsChangeOnlyTheirInstance :
    (∃ t, exec (.swStart 0) (withSw ⟨.milli, 0, 0, true⟩ 5) = .next t) ∧
    (∃ t, exec (.swStop 0) (withSw ⟨.milli, 0, 0, true⟩ 5) = .next t) ∧
    (∃ t, exec (.swPoll 0) (withSw ⟨.milli, 0, 0, true⟩ 5) = .next t) ∧
    (∃ t, exec (.swElapsed 0) (withSw ⟨.milli, 0, 0, true⟩ 5) = .next t) ∧
    (∃ t, exec (.swReset 0) (withSw ⟨.milli, 0, 0, true⟩ 5) = .next t) ∧
    ∃ t, exec (.swInit 0 .fine) (flags true true ⟨false, false, false⟩ (withSw ⟨.milli, 0, 0, true⟩ 5)) = .next t :=
  ⟨⟨_, rfl⟩, ⟨_, rfl⟩, ⟨_, rfl⟩, ⟨_, rfl⟩, ⟨_, rfl⟩, ⟨_, rfl⟩⟩

theorem meets_SuppressAndRestoreTheInterruptFlag :
    base.ctx.inHandler = false ∧ (flags true true ⟨false, false, false⟩ base).ctx.inHandler = true := by decide
/-- `CRITICAL { ISEMPTY f0; CRITICAL { } }` and, for the stop, `CRITICAL { PEEK f1 }` with FIFO 1 empty; an event, a counter
increment and a handler in the schedule, or nothing. -/
theorem meets_NestedCriticalSectionsRestoreTheFlag :
    Nested [.openCritical, .command 0x0000, .openCritical, .closeCritical, .closeCritical] ∧
    Nested [.openCritical, .command 0x1100, .closeCritical] ∧ decode (issuing [] []).cfg 0x1100 = .ok (.peek 1) ∧
    (∀ t ms, (issuing t ms).cfg.legal = true ∧ (issuing t ms).ctx.inHandler = false ∧
      (issuing t ms).normal.latch = none ∧ (issuing t ms).normal.todo = t) ∧
    (∀ t d p, Move.reset d p ∉ (issuing t [.context, .event .tov, .increment, .context, .enter .tov]).sched) ∧
    (∀ t d p, Move.reset d p ∉ (issuing t []).sched) ∧
    ∃ t, State.steps 2 (issuing [.openCritical, .closeCritical] []) = .next t ∧ t.ctx.inHandler = false ∧ t.normal.todo = [] :=
  ⟨.critical [.command 0x0000, .openCritical, .closeCritical]
      (.append [.command 0x0000] [.openCritical, .closeCritical] (.body 0x0000 (by decide)) (.critical [] .empty)),
    .critical [.command 0x1100] (.body 0x1100 (by decide)), by decide, fun _ _ => ⟨rfl, rfl, rfl, rfl⟩,
    fun _ _ _ => by simp [issuing], fun _ _ _ => by simp [issuing], ⟨_, rfl, rfl, rfl⟩⟩
/-- The flag after a critical section into which an event and an entry move fall, the entry masked inside it (R112, R113, R123). -/
theorem test_critical_section_masks_entry :
    ctxOf (State.steps 4 (issuing [.openCritical, .closeCritical] [.context, .event .tov, .enter .tov])) =
      some { irqSuppressed := false, inHandler := false, pending := ⟨true, false, false⟩ } := by decide
theorem meets_OnlyTheirCommandsWriteTheRegisters :
    (∃ t, exec .millis base = .next t) ∧ (∃ t, exec (.swPoll 0) (withSw ⟨.milli, 0, 0, true⟩ 5) = .next t) ∧
    ∃ t, exec .irqSuppress base = .next t := ⟨⟨_, rfl⟩, ⟨_, rfl⟩, ⟨_, rfl⟩⟩

/-- A machine with interrupts on, `src` pending, and `ms` to come. -/
def pendingOn (p : Pending) (ms : List Move) : State :=
  { flags false false p (withFifos full full0) with sched := ms }

/-- Every source, also with the others pending. -/
theorem meets_HandlerEntryMasksAndClearsPending (src : Source) :
    let s := pendingOn ⟨true, true, true⟩ [.enter src]
    s.cfg.legal = true ∧ s.sched = [.enter src] ∧ s.ctx.irqSuppressed = false ∧ s.ctx.inHandler = false ∧
    s.ctx.pending.get src = true := by cases src <;> decide
/-- Clause 1: an entry. Clause 2: masked in the normal context, a handler running, and not pending, each alone. -/
theorem meets_HandlersAreEnteredOnlyUnmaskedAndPending :
    (∃ t, step (pendingOn ⟨false, true, false⟩ [.enter .rxc]) = .next t ∧
      (pendingOn ⟨false, true, false⟩ [.enter .rxc]).ctx.inHandler = false ∧ t.ctx.inHandler = true) ∧
    (let s := flags true false ⟨false, true, false⟩ (pendingOn ⟨false, true, false⟩ [.enter .rxc])
     s.cfg.legal = true ∧ s.sched = [.enter .rxc] ∧ s.ctx.irqSuppressed = true) ∧
    (let s := flags false true ⟨false, true, false⟩ (pendingOn ⟨false, true, false⟩ [.enter .rxc])
     s.cfg.legal = true ∧ s.sched = [.enter .rxc] ∧ s.ctx.inHandler = true) ∧
    (let s := pendingOn ⟨false, true, false⟩ [.enter .tov]
     s.cfg.legal = true ∧ s.sched = [.enter .tov] ∧ s.ctx.pending.get .tov = false) :=
  ⟨⟨_, rfl, by decide, by decide⟩, by decide, by decide, by decide⟩
/-- Assumption log 34: with the flag drawn 0 an event after reset can be served before the normal context's first step. -/
theorem test_entry_right_after_reset :
    ctxOf (State.steps 2 { State.resetWith Config.r57 ResetDraw.zero [.command 0xC000] with
      sched := [.event .dre, .enter .dre] }) =
      some { irqSuppressed := true, inHandler := true, pending := ⟨false, false, false⟩ } := by decide
/-- Clause 1: entry clears. Clause 2: each event, a merging RXC too. -/
theorem meets_EventsBecomePendingAndOnlyEntryClears :
    (∃ t, step (pendingOn ⟨false, true, false⟩ [.enter .rxc]) = .next t ∧
      (pendingOn ⟨false, true, false⟩ [.enter .rxc]).ctx.pending.get .rxc = true ∧ t.ctx.pending.get .rxc = false) ∧
    (∀ e : Event, (pendingOn ⟨false, false, false⟩ [.event e]).cfg.legal = true ∧
      (pendingOn ⟨false, false, false⟩ [.event e]).sched = [.event e]) ∧
    (pendingOn ⟨false, true, false⟩ [.event (.rxc 7)]).ctx.pending.rxc = true ∧
    (pendingOn ⟨true, false, false⟩ [.event (.rxc 7)]).ctx.pending.rxc = false :=
  ⟨⟨_, rfl, by decide, by decide⟩, fun _ => ⟨rfl, rfl⟩, rfl, rfl⟩
theorem meets_HandlerReturnUnmasks :
    let s := flags true true ⟨false, true, false⟩ (issuing [.command 0x4100] [.context])
    s.cfg.legal = true ∧ s.sched = [.context] ∧ s.ctx.inHandler = true ∧ s.handler.todo = [] := by decide
theorem meets_NormalContextWaitsWhileAHandlerRuns :
    let s := flags true true ⟨false, true, false⟩ (issuing [.command 0x4100] [])
    (∃ t, step s = .next t) ∧ s.ctx.inHandler = true ∧ ∀ d p ms, s.sched ≠ .reset d p :: ms :=
  ⟨⟨_, rfl⟩, rfl, fun _ _ _ h => by cases h⟩
theorem meets_ServedTimerOverflowTicksOnce :
    let s := pendingOn ⟨true, true, false⟩ [.enter .tov, .context, .context]
    s.cfg.legal = true ∧ s.ctx.irqSuppressed = false ∧ s.ctx.inHandler = false ∧ s.ctx.pending.tov = true ∧
    s.sched = [.enter .tov, .context, .context] := by decide
theorem meets_ServedReceiveEventAddsTheByte :
    let s := pendingOn ⟨true, true, false⟩ [.enter .rxc, .context, .context]
    (s.cfg.legal = true ∧ s.ctx.irqSuppressed = false ∧ s.ctx.inHandler = false ∧ s.ctx.pending.rxc = true ∧
    s.sched = [.enter .rxc, .context, .context]) ∧ s.FifoAt 0 4 full := ⟨by decide, ⟨rfl, rfl⟩⟩
/-- FIFO 1 with a byte, and empty. -/
theorem meets_ServedTransmitEventSendsTheOldestByte :
    (let s := pendingOn ⟨true, true, true⟩ [.enter .dre, .context, .context, .context, .context]
     s.cfg.legal = true ∧ s.ctx.irqSuppressed = false ∧ s.ctx.inHandler = false ∧ s.ctx.pending.dre = true ∧
     s.FifoAt 1 4 full0 ∧ full0.head ≠ full0.tail ∧
     s.sched = [.enter .dre, .context, .context, .context, .context]) ∧
    (let s := { pendingOn ⟨true, true, true⟩ [.enter .dre, .context, .context] with fifos := [full, empty3] }
     s.cfg.legal = true ∧ s.ctx.irqSuppressed = false ∧ s.ctx.inHandler = false ∧ s.ctx.pending.dre = true ∧
     s.FifoAt 1 4 empty3 ∧ empty3.head = empty3.tail ∧ s.sched = [.enter .dre, .context, .context]) :=
  ⟨⟨by decide, by decide, by decide, by decide, ⟨rfl, rfl⟩, by decide, by decide⟩,
    ⟨by decide, by decide, by decide, by decide, ⟨rfl, rfl⟩, by decide, by decide⟩⟩
theorem meets_CounterIncrementWrapsAndSignals :
    (issuing [] [.increment]).cfg.legal = true ∧ (issuing [] [.increment]).sched = [.increment] ∧
    { issuing [] [.increment] with tmrCnt := 255 }.tmrCnt = (issuing [] [.increment]).cfg.period - 1 ∧
    { issuing [] [.increment] with tmrCnt := 254 }.tmrCnt ≠ (issuing [] [.increment]).cfg.period - 1 := by decide
/-- With nothing scheduled, and with an event, an entry and a TICK's steps still to come. -/
theorem meets_DelayLoopEndsExactlyOnEquality :
    let ms := [Move.event .tov, .enter .tov, .context, .context]
    ∀ l : Line, (issuing [l] []).sched = [] ∧ (issuing [l] (.context :: ms)).sched = .context :: ms ∧
      ∀ ms', (issuing [l] ms').cfg.legal = true ∧ (issuing [l] ms').ctx.inHandler = false ∧
        (issuing [l] ms').normal.todo = [l] := fun _ => ⟨rfl, rfl, fun _ => ⟨rfl, rfl, rfl⟩⟩
/-- Both lines, in phase A, in phase B, and without fine time; with nothing scheduled, and with an event still to come. -/
theorem meets_DelayFineLoopEndsWithinTheWindow :
    (∀ l : Line, ∀ latch : Option Word, ∀ ms : List Move,
      let s := { fine (Stopwatch.atReset 0) 255 10 none with
        normal := { todo := [l], latch := latch, saved := [] }, sched := ms }
      s.cfg.legal = true ∧ s.cfg.hasFine = true ∧ s.sched = ms ∧ s.ctx.inHandler = false ∧ s.tmrCnt < s.cfg.period ∧
      s.normal.todo = [l] ∧ s.normal.latch = latch ∧
      { s with cfg := { s.cfg with hasFine := false } }.cfg.legal = true ∧
      { s with cfg := { s.cfg with hasFine := false } }.cfg.hasFine = false) :=
  fun _ _ _ => ⟨rfl, rfl, rfl, rfl, show 255 < 256 by decide, rfl, rfl, rfl, rfl⟩
/-- R90 and R126: a poll of DELAY's loop, then a served TICK at which the clock crosses, then the poll that answers the
target: the loop has ended. -/
theorem test_delay_ends_after_served_tick :
    (match State.steps 6 { issuing [.delayPoll 1, .command 0x4100]
        [.context, .event .tov, .enter .tov, .context, .context, .context] with clk := ⟨0, 127, 0⟩ } with
      | .next t => some (t.normal.todo, t.resp)
      | _ => none) = some ([.command 0x4100], some ⟨.ok, 1⟩) := by decide
theorem meets_StepRunsTheDecodedInstruction :
    (issuing [.command 0x4100] [.context]).cfg.legal = true ∧
    (issuing [.command 0x4100] [.context]).sched = [.context] ∧ (issuing [.command 0x4100] []).sched = [] ∧
    (issuing [.command 0x4100] [.context]).thread.todo = [.command 0x4100] ∧
    decode (issuing [.command 0x4100] [.context]).cfg 0x4100 = .ok .millis := by decide
theorem meets_IllegalParametersAreRefused :
    { base.cfg with fracInc := 129 }.legal = false ∧ { base.cfg with caps := [] }.legal = false ∧
    { base.cfg with caps := [256] }.legal = false ∧ { base.cfg with nsw := 5 }.legal = false := by decide

end Sys2Proof.Tests
end

section
/-! PROOFS. The family 00_scope.md: the configurations that have a meaning (O60) and the invariant that every step keeps (O9).
Each update of the state keeps `State.Inv`; a command, a context's step and a step keep it because they are made of those. -/

namespace Sys2Proof

/-- The parameter ranges of 00_scope.md R6 as one conjunction. -/
theorem Config.legal_iff (c : Config) : c.legal = true ↔
    1 ≤ c.nFifo ∧ c.nFifo ≤ 4 ∧ (∀ n ∈ c.caps, Config.legalCap n = true) ∧
    1 ≤ c.fracInc ∧ c.fracInc ≤ c.fracDen ∧ 1 ≤ c.fracDen ∧ c.fracInc + c.fracDen - 1 < 2 ^ c.fracW ∧
    1 ≤ c.period ∧ 1 ≤ c.scale ∧ 1 ≤ c.nsw ∧ c.nsw ≤ 4 ∧ c.delayFineTol < 2 ^ 31 := by
  simp only [Config.legal, Bool.and_eq_true, decide_eq_true_eq, List.all_eq_true, and_assoc]

end Sys2Proof

namespace Sys2Proof.Machine

/-! ## Updates outside the three units -/

theorem State.Inv.beginStep {s : State} (h : s.Inv) (ms : List Move) : (s.beginStep ms).Inv := { h with }

theorem State.Inv.answer {s : State} (h : s.Inv) (r : Response) : (s.answer r).Inv := { h with }

theorem State.Inv.respond {s : State} (h : s.Inv) (v : Word) : (s.respond v).Inv := h.answer _

theorem State.Inv.refuseCommand {s : State} (h : s.Inv) : s.refuseCommand.Inv := h.answer _

theorem State.Inv.setPending {s : State} (h : s.Inv) (src : Source) (b : Bool) : (s.setPending src b).Inv := { h with }

/-- The context that holds the port may be replaced: outside a handler that is the normal one. -/
theorem State.Inv.setThread {s : State} (h : s.Inv) (th : Thread) : (s.setThread th).Inv :=
  { h with handlerIdle := fun (hn : s.ctx.inHandler = false) => by simpa [hn] using h.handlerIdle hn }

theorem State.Inv.skipLine {s : State} (h : s.Inv) (rest : List Line) : (s.skipLine rest).Inv := h.setThread _

theorem State.Inv.goOn {s : State} (h : s.Inv) (l : Line) (rest : List Line) (r : Response) : (s.goOn l rest r).Inv :=
  { h.setThread _ with }

/-- A handler may not clear the suppression flag (43_context.md R116). -/
theorem State.Inv.setSuppressed {s : State} (h : s.Inv) {b : Bool} (hb : s.ctx.inHandler = true → b = true) :
    (s.setSuppressed b).Inv :=
  { h with handlerMasked := hb }

theorem State.Inv.leaveHandler {s : State} (h : s.Inv) : s.leaveHandler.Inv :=
  { h with
    handlerMasked := fun hn => nomatch hn
    handlerIdle := fun _ => rfl }

theorem State.Inv.enterHandler {s : State} (h : s.Inv) (src : Source) : (s.enterHandler src).Inv := by
  rcases s.enterHandler_cases src with e | ⟨-, -, -, e⟩ <;> rw [e]
  · exact h
  · exact { h with
      handlerMasked := fun _ => rfl
      handlerIdle := fun hn => nomatch hn }

/-! ## Counter samples -/

theorem State.Inv.finePhaseA {s : State} (h : s.Inv) : s.finePhaseA.Inv := { h.setThread _ with }

theorem State.Inv.finePhaseB {s : State} (h : s.Inv) : s.finePhaseB.Inv := by
  obtain ⟨k, e⟩ := s.finePhaseB_eq
  rw [e]
  exact { h.setThread _ with }

theorem State.Inv.base {s b : State} (h : s.Inv) (hb : s.Base b) : b.Inv := by
  rcases hb with ⟨-, rfl⟩ | ⟨-, rfl⟩
  · exact h
  · exact h.finePhaseB

theorem State.Base.sws {s b : State} (hb : s.Base b) : b.sws = s.sws := by
  rcases hb with ⟨-, rfl⟩ | ⟨-, rfl⟩
  · rfl
  · exact s.finePhaseB_sws

/-! ## Updates of the units -/

theorem State.Inv.setFifo {s : State} {i : BitVec 2} {n : Nat} {f g : Fifo} (h : s.Inv) (hf : s.FifoAt i n f)
    (hg : g.Ok n) : (s.setFifo i g).Inv :=
  { h with
    fifoCount := (List.length_set ..).trans h.fifoCount
    fifoOk := fun k m x (hm : s.cfg.caps[k]? = some m) (hx : (s.fifos.set i.toNat g)[k]? = some x) => by
      by_cases hk : i.toNat = k
      · subst hk
        rw [List.getElem?_set_self', hf.fifo] at hx
        cases hf.cap.symm.trans hm
        cases hx
        exact hg
      · rw [List.getElem?_set_ne hk] at hx
        exact h.fifoOk k m x hm hx }

theorem State.Inv.setStopwatch {s : State} (h : s.Inv) (j : BitVec 2) {w : Stopwatch}
    (hw : w.res = .fine → s.cfg.hasFine = true) : (s.setStopwatch j w).Inv :=
  { h with
    swCount := (List.length_set ..).trans h.swCount
    swRes := fun k x (hx : (s.sws.set j.toNat w)[k]? = some x) => by
      rcases List.mem_or_eq_of_mem_set (List.mem_of_getElem? hx) with hx | rfl
      · obtain ⟨k', hx⟩ := List.mem_iff_getElem?.mp hx
        exact h.swRes k' x hx
      · exact hw }

/-- A stopwatch operation with a clock reading keeps the resolution, and with it the invariant (42_stopwatch.md R98). -/
theorem State.Inv.setStopwatch_base {s b : State} {j : BitVec 2} {w w' : Stopwatch} (h : s.Inv) (hb : s.Base b)
    (hw : s.sws[j.toNat]? = some w) (hres : w'.res = w.res) : (b.setStopwatch j w').Inv :=
  (h.base hb).setStopwatch j (hres ▸ (h.base hb).swRes _ w (hb.sws ▸ hw))

/-- TICK keeps the accumulator below its denominator, and counts overflows only with fine time (41_clock.md R82, R93). -/
theorem State.Inv.setClock_tick {s : State} (h : s.Inv) : (s.setClock (s.clk.tick s.cfg)).Inv := by
  obtain ⟨-, -, -, -, hinc, -⟩ := (Config.legal_iff s.cfg).mp h.legal
  exact { h with
    frac := Clock.tick_frac h.frac hinc
    ovfAbsent := fun (hn : s.cfg.hasFine = false) => by simpa [Clock.tick_ovf, hn] using h.ovfAbsent hn }

/-! ## The environment -/

theorem State.Inv.receive {s : State} (h : s.Inv) (b : Byte) : (s.receive b).Inv := by
  unfold State.receive
  split
  · exact { h with }
  · exact { h with }

theorem State.Inv.signal {s : State} (h : s.Inv) (e : Event) : (s.signal e).Inv := by
  cases e with
  | tov => exact h.setPending .tov true
  | rxc b => exact (h.receive b).setPending .rxc true
  | dre => exact h.setPending .dre true

/-- The counter wraps at `PERIOD - 1` (60_exceptions.md R133). -/
theorem State.Inv.counterIncrement {s : State} (h : s.Inv) : s.counterIncrement.Inv := by
  have hc := h.counter
  unfold State.counterIncrement
  split_ifs with hw
  · exact { h.setPending .tov true with counter := Nat.zero_lt_of_lt hc }
  · exact { h with counter := show s.tmrCnt + 1 < s.cfg.period by omega }

/-! ## Reset -/

/-- A FIFO right after reset, its unspecified storage brought into its cells (10_state.md R30, 20_memory.md R36). -/
theorem Fifo.atReset_ok {n : Nat} (hn : Config.legalCap n = true) (cells : List Host.Cell) :
    (Fifo.atReset (Memory.ofCells (n + 1) cells)).Ok n where
  cap := hn
  indices := ⟨Nat.succ_pos n, Nat.succ_pos n⟩
  wf := Memory.ofCells_wf _ _
  below := Memory.ofCells_below _ _

/-- The invariant holds at reset, whatever the draw, once it is brought into range. -/
theorem State.resetWith_inv {c : Config} (hc : c.legal = true) (d : ResetDraw) (p : List Line) :
    (State.resetWith c (d.clean c) p).Inv := by
  obtain ⟨-, -, hcaps, -, -, hden, -, hperiod, -⟩ := (Config.legal_iff c).mp hc
  exact {
    legal := hc
    fifoCount := by simp [State.resetWith]
    fifoOk := fun k n f (hn : c.caps[k]? = some n) hf => by
      have hk : k < c.nFifo := (List.getElem?_eq_some_iff.mp hn).1
      have hf : Fifo.atReset (Memory.ofCells (n + 1) (d.storage.getD k [])) = f := by
        simpa [State.resetWith, ResetDraw.clean, hk, hn] using hf
      exact hf ▸ Fifo.atReset_ok (hcaps n (List.mem_of_getElem? hn)) _
    frac := hden
    ovfAbsent := fun _ => rfl
    swCount := by simp [State.resetWith]
    swRes := fun k w hw hres => by
      obtain ⟨j, -, rfl⟩ := List.mem_map.mp (List.mem_of_getElem? hw)
      nomatch hres
    handlerMasked := fun hn => nomatch hn
    handlerIdle := fun _ => rfl
    counter := Nat.mod_lt _ hperiod }

theorem State.Inv.resetEvent {s : State} (h : s.Inv) (d : ResetDraw) (p : List Line) : (s.resetEvent d p).Inv :=
  { State.resetWith_inv h.legal d p with }

/-! ## Commands and steps -/

/-- A command's step keeps the invariant. -/
theorem State.Inv.of_exec {i : Instr} {s t : State} (h : s.Inv) (he : exec i s = .next t) : t.Inv := by
  cases exec_next_cases he with
  | refuses => exact h.refuseCommand
  | answers => exact h.respond _
  | removes k n f hf => exact (h.setFifo hf (Fifo.remove_ok (h.fifoOk _ n f hf.cap hf.fifo))).respond _
  | adds k b n f hf => exact (h.setFifo hf (Fifo.add_ok b (h.fifoOk _ n f hf.cap hf.fifo))).respond _
  | ticks => exact h.setClock_tick.respond _
  | suppresses => exact (h.setSuppressed fun _ => rfl).respond _
  | restores f hf => exact (h.setSuppressed fun hn => by simpa [hn] using hf).respond _
  | phaseA => exact h.finePhaseA
  | fineTime v => exact h.finePhaseB.respond _
  | inits j r w hw hr =>
    have hfine : r = .fine → s.cfg.hasFine = true := by rintro rfl; exact hr
    exact (h.setStopwatch j hfine).respond _
  | stops j w hw => exact (h.setStopwatch j (w := { w with running := false }) (h.swRes _ w hw)).respond _
  | starts j w b v hb hw => exact (h.setStopwatch_base hb hw (w' := { w with running := true, last := v }) rfl).respond _
  | restarts j w b v hb hw => exact (h.setStopwatch_base hb hw (w' := { w with acc := 0, last := v }) rfl).respond _
  | polls j w b v hb hw => exact (h.setStopwatch_base hb hw (w.commit_res v)).respond _
  | elapses j w b v hb hw => exact (h.setStopwatch_base hb hw (w.commit_res v)).respond _

/-- The step of the context that holds the port keeps the invariant. -/
theorem State.Inv.of_contextStep {s t : State} (h : s.Inv) (hc : ContextStep s t) : t.Inv := by
  cases hc with
  | waits => exact h
  | returns => exact h.leaveHandler
  | skips _ rest => exact h.skipLine rest
  | refuses l rest => exact h.refuseCommand.goOn l rest _
  | answers l rest w i u r _ _ _ he => exact (h.of_exec he).goOn l rest r
  | halfway l rest w i _ _ _ _ he => exact h.of_exec he

/-- Settles O9: each move of 60_exceptions.md R129 keeps the invariant. -/
theorem everyStepKeepsTheInvariant : Obligations.EveryStepKeepsTheInvariant := by
  intro s t h hstep
  obtain ⟨-, ⟨ms, -, hc⟩ | ⟨e, ms, -, rfl⟩ | ⟨ms, -, rfl⟩ | ⟨src, ms, -, rfl⟩ | ⟨d, p, ms, -, rfl⟩⟩ :=
    step_next_cases hstep
  · exact (h.beginStep ms).of_contextStep hc
  · exact (h.beginStep ms).signal e
  · exact (h.beginStep ms).counterIncrement
  · exact (h.beginStep ms).enterHandler src
  · exact (h.beginStep ms).resetEvent d p

/-- Settles O60: the step tests the parameters before it looks at its move (60_exceptions.md R118). -/
theorem illegalParametersAreRefused : Obligations.IllegalParametersAreRefused := by
  intro s hs
  simp [step, State.stepOnce, hs]

end Sys2Proof.Machine
end

section
/-! PROOFS. The family 10_state.md: reset (O6, O7), what every step keeps (O10, O11, O12, O26), and which command writes which
register (O44, O47). For each unit one lemma says what a command's step can do to it; the obligations are read off those. -/

namespace Sys2Proof

/-! ## A decoded word names an instruction of the configuration (30_encoding.md R57) -/

theorem decodeNoArg_wf {c : Config} {a : Byte} {i j : Instr} (h : decodeNoArg a i = .ok j) (hi : i.wf c = true) :
    j.wf c = true := by
  obtain ⟨-, rfl⟩ := decodeNoArg_ok h
  exact hi

theorem decodeFifo_wf {c : Config} {k : BitVec 2} {op : BitVec 4} {a : Byte} {i : Instr}
    (h : decodeFifo c k op a = .ok i) : i.wf c = true := by
  unfold decodeFifo at h
  split_ifs at h with hk
  have hk : decide (k.toNat < c.nFifo) = true := decide_eq_true hk
  split at h
  case h_4 => cases h; exact hk
  case h_7 => cases h
  all_goals exact decodeNoArg_wf h hk

theorem decodeClock_wf {c : Config} {k : BitVec 2} {op : BitVec 4} {a : Byte} {i : Instr}
    (h : decodeClock c k op a = .ok i) : i.wf c = true := by
  unfold decodeClock at h
  split at h
  · split at h
    · exact decodeNoArg_wf h rfl
    · exact decodeNoArg_wf h rfl
    · split_ifs at h with hf
      exact decodeNoArg_wf h hf
    · cases h
  · cases h

theorem decodeSwInit_wf {c : Config} {j : BitVec 2} {a : Byte} {i : Instr} (hj : j.toNat < c.nsw)
    (h : decodeSwInit c j a = .ok i) : i.wf c = true := by
  unfold decodeSwInit at h
  split at h
  · split_ifs at h with hf
    cases h; simp [Instr.wf, Resolution.wf, hj, hf]
  · cases h; simp [Instr.wf, Resolution.wf, hj]
  · cases h; simp [Instr.wf, Resolution.wf, hj]
  · cases h
  · cases h

theorem decodeStopwatch_wf {c : Config} {j : BitVec 2} {op : BitVec 4} {a : Byte} {i : Instr}
    (h : decodeStopwatch c j op a = .ok i) : i.wf c = true := by
  unfold decodeStopwatch at h
  split_ifs at h with hj
  have hw : decide (j.toNat < c.nsw) = true := decide_eq_true hj
  split at h
  case h_1 => exact decodeSwInit_wf hj h
  case h_7 => cases h
  all_goals exact decodeNoArg_wf h hw

theorem decodeContext_wf {c : Config} {k : BitVec 2} {op : BitVec 4} {a : Byte} {i : Instr}
    (h : decodeContext k op a = .ok i) : i.wf c = true := by
  unfold decodeContext at h
  split_ifs at h
  split at h
  · exact decodeNoArg_wf h rfl
  · split at h <;> cases h <;> rfl
  · cases h

theorem decode_wf {c : Config} {w : CmdWord} {i : Instr} (h : decode c w = .ok i) : i.wf c = true := by
  unfold decode at h
  split at h
  · exact decodeFifo_wf h
  · exact decodeClock_wf h
  · exact decodeStopwatch_wf h
  · exact decodeContext_wf h

end Sys2Proof

namespace Sys2Proof.Machine

/-! ## The overflow count a context carries (10_state.md R28) -/

/-- The command a line issues does not depend on the overflow count its context carries. -/
theorem Line.word_latch (l : Line) (t : Thread) (o : Option Word) : l.word { t with latch := o } = l.word t := by
  cases l <;> rfl

theorem Thread.latchOk_of_none {c : Config} {t : Thread} (h : t.latch = none) : t.LatchOk c := fun hn => absurd h hn

/-- A context that carries an overflow count issues a two-phase command next. -/
theorem Thread.LatchOk.twoPhase {c : Config} {t : Thread} {l : Line} {rest : List Line} (h : t.LatchOk c)
    (ht : t.todo = l :: rest) (hl : t.latch ≠ none) : l.TwoPhase c t := by
  obtain ⟨l', rest', ht', h2⟩ := h hl
  cases ht.symm.trans ht'
  exact h2

theorem State.LatchOk.thread {s : State} (h : s.LatchOk) : s.thread.LatchOk s.cfg := by
  unfold State.thread
  split_ifs
  · exact h.handler
  · exact h.normal

theorem State.LatchOk.beginStep {s : State} (h : s.LatchOk) (ms : List Move) : (s.beginStep ms).LatchOk :=
  ⟨h.normal, h.handler⟩

/-- The discipline speaks of the parameters and the two contexts only. -/
theorem State.LatchOk.congr {s t : State} (h : s.LatchOk) (hc : t.cfg = s.cfg) (hn : t.normal = s.normal)
    (hh : t.handler = s.handler) : t.LatchOk :=
  ⟨hc ▸ hn ▸ h.normal, hc ▸ hh ▸ h.handler⟩

theorem State.LatchOk.setThread {s : State} (h : s.LatchOk) {th : Thread} (ht : th.LatchOk s.cfg) :
    (s.setThread th).LatchOk := by
  constructor
  · simp only [State.setThread_normal, State.setThread_cfg]
    split_ifs
    · exact h.normal
    · exact ht
  · simp only [State.setThread_handler, State.setThread_cfg]
    split_ifs
    · exact ht
    · exact h.handler

/-- A command's step replaces the contexts as writing the one that issues it does. -/
theorem ExecFrame.setThread_normal {s t : State} (h : ExecFrame s t) : t.normal = (s.setThread t.thread).normal := by
  have hn := h.normal
  unfold State.thread
  rw [State.setThread_normal, h.inHandler]
  split_ifs at hn ⊢
  · exact hn
  · rfl

theorem ExecFrame.setThread_handler {s t : State} (h : ExecFrame s t) : t.handler = (s.setThread t.thread).handler := by
  have hh := h.handler
  unfold State.thread
  rw [State.setThread_handler, h.inHandler]
  split_ifs at hh ⊢
  · rfl
  · exact hh

/-- A command's step keeps the discipline where the context that issues it does. -/
theorem State.LatchOk.of_execFrame {s t : State} (h : s.LatchOk) (hf : ExecFrame s t) (ht : t.thread.LatchOk s.cfg) :
    t.LatchOk :=
  (h.setThread ht).congr hf.cfg hf.setThread_normal hf.setThread_handler

/-- Going on past an answered line keeps the discipline where nothing is carried any more. -/
theorem State.LatchOk.goOn {s : State} (h : s.LatchOk) (hl : s.latch = none) (l : Line) (rest : List Line) (r : Response) :
    (s.goOn l rest r).LatchOk := by
  have hg : (s.goOn l rest r).thread.latch = none := by rw [State.goOn_thread]; exact hl
  exact (h.setThread (Thread.latchOk_of_none hg)).congr rfl (State.goOn_normal l rest r s) (State.goOn_handler l rest r s)

/-- An answer leaves nothing carried: either nothing was, or this was the phase B of a two-phase command (41_clock.md R86). -/
theorem exec_answer_latch_of_latchOk {s t : State} {l : Line} {rest : List Line} {w : CmdWord} {i : Instr}
    (hs : s.sws.length = s.cfg.nsw) (h : s.LatchOk) (ht : s.thread.todo = l :: rest) (hw : l.word s.thread = some w)
    (hd : decode s.cfg w = .ok i) (he : exec i s = .next t) (hr : t.resp ≠ none) : t.latch = none := by
  by_cases hl : s.latch = none
  · exact exec_answer_latch he hr hl
  · obtain ⟨w', i', hw', hd', hi⟩ := h.thread.twoPhase ht hl
    cases hw.symm.trans hw'
    cases hd.symm.trans hd'
    obtain ⟨u, hu, hul, -⟩ := exec_phaseB hi (decode_wf hd) hs hl
    cases he.symm.trans hu
    exact hul

/-- A context whose next line issues no instruction carries nothing. -/
theorem State.LatchOk.latch_none {s : State} {l : Line} {rest : List Line} (h : s.LatchOk) (ht : s.thread.todo = l :: rest)
    (hd : ∀ w i, l.word s.thread = some w → decode s.cfg w ≠ .ok i) : s.latch = none := by
  by_contra hl
  obtain ⟨w, i, hw, hi, -⟩ := h.thread.twoPhase ht hl
  exact hd w i hw hi

/-- The step of the context that holds the port keeps the discipline. -/
theorem State.LatchOk.of_contextStep {s t : State} (h : s.LatchOk) (hs : s.sws.length = s.cfg.nsw) (hc : ContextStep s t) :
    t.LatchOk := by
  cases hc with
  | waits => exact h
  | returns => exact ⟨h.normal, Thread.latchOk_of_none rfl⟩
  | skips l rest ht hw =>
    have hl : s.latch = none := h.latch_none ht fun w i hw' => by simp [hw] at hw'
    exact h.setThread (Thread.latchOk_of_none hl)
  | refuses l rest w e ht hw he =>
    have hl : s.latch = none := h.latch_none ht fun w' i hw' => by cases hw.symm.trans hw'; simp [he]
    exact State.LatchOk.goOn (s := s.refuseCommand) ⟨h.normal, h.handler⟩ hl l rest _
  | answers l rest w i u r ht hw hd he hr =>
    have hl : u.latch = none := exec_answer_latch_of_latchOk hs h ht hw hd he (by simp [hr])
    exact (h.of_execFrame (exec_frame he) (Thread.latchOk_of_none hl)).goOn hl l rest r
  | halfway l rest w i _ ht hw hd he hr =>
    obtain ⟨rfl, -, hi, -⟩ := exec_phaseA he hr
    refine h.of_execFrame s.finePhaseA_frame fun _ => ⟨l, rest, ?_, w, i, ?_, hd, hi⟩
    · simpa using ht
    · rw [State.finePhaseA_thread, Line.word_latch, hw]

/-- Settles O10: a context's overflow count comes with phase A and goes with the answer; each other move of
60_exceptions.md R129 leaves a context as it is or begins it afresh. -/
theorem everyStepKeepsTheLatchDiscipline : Obligations.EveryStepKeepsTheLatchDiscipline := by
  intro s t hi h hstep
  obtain ⟨-, ⟨ms, -, hc⟩ | ⟨e, ms, -, rfl⟩ | ⟨ms, -, rfl⟩ | ⟨src, ms, -, rfl⟩ | ⟨d, p, ms, -, rfl⟩⟩ :=
    step_next_cases hstep
  · exact (h.beginStep ms).of_contextStep hi.swCount hc
  · exact (h.beginStep ms).congr (by simp) (by simp) (by simp)
  · exact (h.beginStep ms).congr (by simp) (by simp) (by simp)
  · rcases (s.beginStep ms).enterHandler_cases src with e | ⟨-, -, -, e⟩ <;> rw [e]
    · exact h.beginStep ms
    · exact ⟨h.normal, Thread.latchOk_of_none rfl⟩
  · exact ⟨Thread.latchOk_of_none rfl, Thread.latchOk_of_none rfl⟩

/-! ## What a command's step can do to each unit -/

/-- What a command can do to FIFO `k` of capacity `n` (10_state.md R14). -/
inductive FifoUpdate (n : Nat) : Instr → BitVec 2 → Fifo → Fifo → Prop where
  | removes (k f) : FifoUpdate n (.remove k) k f (f.remove n)
  | adds (k b f) : FifoUpdate n (.add k b) k f (f.add n b)

/-- What a command can do to STOPWATCH `j` (10_state.md R20). -/
inductive StopwatchUpdate : Instr → BitVec 2 → Stopwatch → Stopwatch → Prop where
  | inits (j r w) : StopwatchUpdate (.swInit j r) j w { w with res := r, acc := 0, running := false }
  | stops (j w) : StopwatchUpdate (.swStop j) j w { w with running := false }
  | starts (j w v) : StopwatchUpdate (.swStart j) j w { w with running := true, last := v }
  | restarts (j w v) : StopwatchUpdate (.swReset j) j w { w with acc := 0, last := v }
  | polls (j w v) : StopwatchUpdate (.swPoll j) j w (w.commit v)
  | elapses (j w v) : StopwatchUpdate (.swElapsed j) j w (w.commit v)

theorem State.Base.fifos {s b : State} (hb : s.Base b) : b.fifos = s.fifos := by
  rcases hb with ⟨-, rfl⟩ | ⟨-, rfl⟩
  · rfl
  · exact s.finePhaseB_fifos

theorem State.Base.clk {s b : State} (hb : s.Base b) : b.clk = s.clk := by
  rcases hb with ⟨-, rfl⟩ | ⟨-, rfl⟩
  · rfl
  · exact s.finePhaseB_clk

theorem State.Base.ctx {s b : State} (hb : s.Base b) : b.ctx = s.ctx := by
  rcases hb with ⟨-, rfl⟩ | ⟨-, rfl⟩
  · rfl
  · exact s.finePhaseB_ctx

/-- Only REMOVE and ADD write a FIFO, and each writes one. -/
theorem exec_fifos {i : Instr} {s t : State} (h : exec i s = .next t) :
    t.fifos = s.fifos ∨
    ∃ k n f f', s.FifoAt k n f ∧ FifoUpdate n i k f f' ∧ t.fifos = s.fifos.set k.toNat f' := by
  cases exec_next_cases h with
  | removes k n f hf => exact .inr ⟨k, n, f, _, hf, .removes k f, rfl⟩
  | adds k b n f hf => exact .inr ⟨k, n, f, _, hf, .adds k b f, rfl⟩
  | fineTime v hl => exact .inl s.finePhaseB_fifos
  | starts j w b v hb hw => exact .inl hb.fifos
  | restarts j w b v hb hw => exact .inl hb.fifos
  | polls j w b v hb hw => exact .inl hb.fifos
  | elapses j w b v hb hw => exact .inl hb.fifos
  | _ => exact .inl rfl

/-- Only the stopwatch operations write a stopwatch, and each writes one. -/
theorem exec_sws {i : Instr} {s t : State} (h : exec i s = .next t) :
    t.sws = s.sws ∨
    ∃ j w w', s.sws[j.toNat]? = some w ∧ StopwatchUpdate i j w w' ∧ t.sws = s.sws.set j.toNat w' := by
  cases exec_next_cases h with
  | inits j r w hw hr => exact .inr ⟨j, w, _, hw, .inits j r w, rfl⟩
  | stops j w hw => exact .inr ⟨j, w, _, hw, .stops j w, rfl⟩
  | starts j w b v hb hw => exact .inr ⟨j, w, _, hw, .starts j w v, by simp [hb.sws]⟩
  | restarts j w b v hb hw => exact .inr ⟨j, w, _, hw, .restarts j w v, by simp [hb.sws]⟩
  | polls j w b v hb hw => exact .inr ⟨j, w, _, hw, .polls j w v, by simp [hb.sws]⟩
  | elapses j w b v hb hw => exact .inr ⟨j, w, _, hw, .elapses j w v, by simp [hb.sws]⟩
  | fineTime v hl => exact .inl s.finePhaseB_sws
  | _ => exact .inl rfl

theorem exec_fifos_length {i : Instr} {s t : State} (h : exec i s = .next t) : t.fifos.length = s.fifos.length := by
  rcases exec_fifos h with e | ⟨k, n, f, f', -, -, e⟩ <;> rw [e]
  exact List.length_set ..

theorem exec_sws_length {i : Instr} {s t : State} (h : exec i s = .next t) : t.sws.length = s.sws.length := by
  rcases exec_sws h with e | ⟨j, w, w', -, -, e⟩ <;> rw [e]
  exact List.length_set ..

/-- Only TICK writes the clock. -/
theorem exec_clk {i : Instr} {s t : State} (h : exec i s = .next t) (hi : i ≠ .tick) : t.clk = s.clk := by
  cases exec_next_cases h with
  | ticks => exact absurd rfl hi
  | fineTime v hl => exact s.finePhaseB_clk
  | starts j w b v hb hw => exact hb.clk
  | restarts j w b v hb hw => exact hb.clk
  | polls j w b v hb hw => exact hb.clk
  | elapses j w b v hb hw => exact hb.clk
  | _ => rfl

/-- Only the CONTEXT operations write `CTX`. -/
theorem exec_ctx {i : Instr} {s t : State} (h : exec i s = .next t) (hs : i ≠ .irqSuppress)
    (hr : ∀ f, i ≠ .irqRestore f) : t.ctx = s.ctx := by
  cases exec_next_cases h with
  | suppresses => exact absurd rfl hs
  | restores f hf => exact absurd rfl (hr f)
  | fineTime v hl => exact s.finePhaseB_ctx
  | starts j w b v hb hw => exact hb.ctx
  | restarts j w b v hb hw => exact hb.ctx
  | polls j w b v hb hw => exact hb.ctx
  | elapses j w b v hb hw => exact hb.ctx
  | _ => rfl

/-- A command that is neither ADD nor REMOVE leaves every FIFO alone. -/
theorem exec_fifos_eq {i : Instr} {s t : State} (h : exec i s = .next t) (ha : ∀ k b, i ≠ .add k b)
    (hr : ∀ k, i ≠ .remove k) : t.fifos = s.fifos := by
  rcases exec_fifos h with e | ⟨k, n, f, f', -, hu, -⟩
  · exact e
  · cases hu with
    | removes => exact absurd rfl (hr k)
    | adds _ b => exact absurd rfl (ha k b)

/-- A command leaves the registers of a stopwatch alone, or does to them what it can. -/
theorem exec_stopwatch {i : Instr} {s t : State} {k : Nat} {w w' : Stopwatch} (h : exec i s = .next t)
    (hw : s.sws[k]? = some w) (hw' : t.sws[k]? = some w') :
    w' = w ∨ ∃ j : BitVec 2, j.toNat = k ∧ StopwatchUpdate i j w w' := by
  rcases exec_sws h with e | ⟨j, v, v', hv, hu, e⟩ <;> rw [e] at hw'
  · exact .inl (Option.some.inj (hw'.symm.trans hw))
  · by_cases hk : j.toNat = k
    · subst hk
      rw [List.getElem?_set_self', hv] at hw'
      cases hv.symm.trans hw
      cases hw'
      exact .inr ⟨j, rfl, hu⟩
    · rw [List.getElem?_set_ne hk] at hw'
      exact .inl (Option.some.inj (hw'.symm.trans hw))

/-- Only SW_INIT changes a resolution (42_stopwatch.md R98). -/
theorem StopwatchUpdate.res {i : Instr} {j : BitVec 2} {w w' : Stopwatch} (h : StopwatchUpdate i j w w')
    (hi : ∀ r, i ≠ .swInit j r) : w'.res = w.res := by
  cases h with
  | inits _ r => exact absurd rfl (hi r)
  | polls _ _ v => exact w.commit_res v
  | elapses _ _ v => exact w.commit_res v
  | _ => rfl

/-- SW_STOP does not poll (42_stopwatch.md R100). -/
theorem StopwatchUpdate.of_swStop {j k : BitVec 2} {w w' : Stopwatch} (h : StopwatchUpdate (.swStop k) j w w') :
    w'.acc = w.acc ∧ w'.last = w.last := by
  cases h; exact ⟨rfl, rfl⟩

/-- SW_START keeps what is accumulated (42_stopwatch.md R99). -/
theorem StopwatchUpdate.of_swStart {j k : BitVec 2} {w w' : Stopwatch} (h : StopwatchUpdate (.swStart k) j w w') :
    w'.acc = w.acc := by
  cases h; rfl

/-- A poll and SW_RESET neither start nor stop (42_stopwatch.md R101, R103). -/
theorem StopwatchUpdate.running {i : Instr} {j k : BitVec 2} {w w' : Stopwatch} (h : StopwatchUpdate i j w w')
    (hi : i = .swPoll k ∨ i = .swElapsed k ∨ i = .swReset k) : w'.running = w.running := by
  cases h with
  | polls _ _ v => exact w.commit_running v
  | elapses _ _ v => exact w.commit_running v
  | restarts => rfl
  | _ => simp at hi

theorem ExecFrame.normal_of_inHandler {s t : State} (h : ExecFrame s t) (hh : s.ctx.inHandler = true) :
    t.normal = s.normal := by
  simpa [hh] using h.normal

theorem ExecFrame.handler_of_not_inHandler {s t : State} (h : ExecFrame s t) (hh : s.ctx.inHandler = false) :
    t.handler = s.handler := by
  simpa [hh] using h.handler

theorem ExecFrame.thread_todo {s t : State} (h : ExecFrame s t) : t.thread.todo = s.thread.todo := by rw [h.thread]

theorem ExecFrame.thread_saved {s t : State} (h : ExecFrame s t) : t.thread.saved = s.thread.saved := by rw [h.thread]

/-- Settles O47: the "written by" columns of 10_state.md R14, R18, R20 and R21. -/
theorem onlyTheirCommandsWriteTheRegisters : Obligations.OnlyTheirCommandsWriteTheRegisters := by
  intro s t o h
  have hf := exec_frame h
  refine ⟨exec_clk h, exec_fifos_eq h, fun hs hr => congrArg Ctx.irqSuppressed (exec_ctx h hs hr), hf.inHandler,
    hf.pending, hf.cfg, hf.tmrCnt, hf.uartRx, hf.outputs, hf.sched, fun hi k w w' hw hw' => ?_⟩
  rcases exec_stopwatch h hw hw' with rfl | ⟨j, -, hu⟩
  · rfl
  · exact hu.res (hi j)

/-- The command is one of the six operations on STOPWATCH `j` (30_encoding.md R56). -/
def Instr.OnStopwatch (j : BitVec 2) (o : Instr) : Prop :=
  o = .swStart j ∨ o = .swStop j ∨ o = .swPoll j ∨ o = .swElapsed j ∨ o = .swReset j ∨ ∃ r, o = .swInit j r

/-- An operation on STOPWATCH `j` writes no other stopwatch. -/
theorem StopwatchUpdate.target_eq {o : Instr} {j k : BitVec 2} {w w' : Stopwatch} (h : StopwatchUpdate o k w w')
    (ho : Instr.OnStopwatch j o) : k = j := by
  cases h <;> simpa [Instr.OnStopwatch] using ho

/-- Settles O44: 42_stopwatch.md R98 to R103 write one stopwatch, and each operation the registers its rule names. -/
theorem stopwatchOperationsChangeOnlyTheirInstance : Obligations.StopwatchOperationsChangeOnlyTheirInstance := by
  intro s t j o ho h
  have hf := exec_frame h
  obtain ⟨htick, hadd, hremove, hsup, hres⟩ :
      o ≠ .tick ∧ (∀ k b, o ≠ .add k b) ∧ (∀ k, o ≠ .remove k) ∧ o ≠ .irqSuppress ∧ ∀ f, o ≠ .irqRestore f := by
    rcases ho with rfl | rfl | rfl | rfl | rfl | ⟨r, rfl⟩ <;> simp
  refine ⟨hf.cfg, exec_fifos_eq h hadd hremove, exec_clk h htick, exec_ctx h hsup hres, hf.tmrCnt, hf.uartRx, hf.outputs,
    hf.sched, exec_sws_length h, fun k hk => ?_, fun w w' hw hw' => ?_, hf.normal_of_inHandler,
    hf.handler_of_not_inHandler, hf.thread_todo, hf.thread_saved⟩
  · rcases exec_sws h with e | ⟨k', v, v', -, hu, e⟩ <;> rw [e]
    cases hu.target_eq ho
    exact List.getElem?_set_ne hk.symm
  · rcases exec_stopwatch h hw hw' with rfl | ⟨k, -, hu⟩
    · simp
    · cases hu.target_eq ho
      exact ⟨hu.res, fun e => (e ▸ hu).of_swStop, fun e => (e ▸ hu).of_swStart, hu.running⟩

/-! ## Reset (10_state.md R30 to R33) -/

theorem State.resetWith_fifo {c : Config} {d : ResetDraw} {p : List Line} {k : Nat} {f : Fifo}
    (h : (State.resetWith c d p).fifos[k]? = some f) : f = Fifo.atReset (d.storage.getD k []) := by
  obtain ⟨-, rfl⟩ := List.getElem?_eq_some_iff.mp h
  simp [State.resetWith]

theorem State.resetWith_stopwatch {c : Config} {d : ResetDraw} {p : List Line} {k : Nat} {w : Stopwatch}
    (h : (State.resetWith c d p).sws[k]? = some w) : w = Stopwatch.atReset (d.last.getD k 0) := by
  obtain ⟨-, rfl⟩ := List.getElem?_eq_some_iff.mp h
  simp [State.resetWith]

@[simp] theorem State.resetWith_fifos_length (c : Config) (d : ResetDraw) (p : List Line) :
    (State.resetWith c d p).fifos.length = c.nFifo := by simp [State.resetWith]

@[simp] theorem State.resetWith_sws_length (c : Config) (d : ResetDraw) (p : List Line) :
    (State.resetWith c d p).sws.length = c.nsw := by simp [State.resetWith]

/-- A FIFO right after reset is empty, whatever its storage holds (10_state.md R16, R30). -/
theorem Fifo.atReset_content (m : Memory) (n : Nat) : (Fifo.atReset m).content n = [] := by
  simp [Fifo.content, Fifo.cnt, Fifo.atReset, imod]

/-- Settles O6: the reset values of 10_state.md R30 to R33. -/
theorem resetZeroesTheClockAndEmptiesTheUnits : Obligations.ResetZeroesTheClockAndEmptiesTheUnits := by
  intro c d p
  refine ⟨rfl, rfl, rfl, State.resetWith_fifos_length c d p, fun k f hf => ?_, State.resetWith_sws_length c d p,
    fun k w hw => ?_, rfl, rfl, fun src => by cases src <;> rfl⟩
  · rw [State.resetWith_fifo hf]
    exact ⟨rfl, rfl, Fifo.atReset_content _, rfl⟩
  · rw [State.resetWith_stopwatch hw]
    exact ⟨rfl, rfl, rfl, rfl⟩

/-- Settles O7: `State.reset` is the reset state of the reference configuration for a draw in range. -/
theorem invariantHoldsAtReset : Obligations.InvariantHoldsAtReset := by
  have hreset : State.reset = State.resetWith Config.reference (ResetDraw.zero.clean Config.reference) [] := rfl
  exact ⟨hreset ▸ State.resetWith_inv (by decide) _ _, fun c d p hc => State.resetWith_inv hc d p⟩

/-! ## FIFO indices (10_state.md R15) -/

theorem Fifo.IndicesOk.add {n : Nat} {f : Fifo} (h : f.IndicesOk n) (hn : n ≤ 255) (b : Byte) :
    (f.add n b).IndicesOk n where
  head := Fifo.inc_lt hn f.head
  tail := by
    unfold Fifo.add
    split_ifs
    · exact Fifo.inc_lt hn f.tail
    · exact h.tail

theorem Fifo.IndicesOk.remove {n : Nat} {f : Fifo} (h : f.IndicesOk n) (hn : n ≤ 255) : (f.remove n).IndicesOk n := by
  unfold Fifo.remove
  split_ifs
  · exact ⟨h.head, Fifo.inc_lt hn f.tail⟩
  · exact h

theorem Fifo.IndicesOk.update {n : Nat} {i : Instr} {k : BitVec 2} {f g : Fifo} (h : f.IndicesOk n) (hn : n ≤ 255)
    (hu : FifoUpdate n i k f g) : g.IndicesOk n := by
  cases hu with
  | removes => exact h.remove hn
  | adds _ b => exact h.add hn b

theorem Fifo.atReset_indicesOk (m : Memory) (n : Nat) : (Fifo.atReset m).IndicesOk n := ⟨Nat.succ_pos n, Nat.succ_pos n⟩

/-- Both indices of every FIFO lie in `[0, M-1]`. -/
def State.IndicesOk (s : State) : Prop :=
  ∀ (k n : Nat) (f : Fifo), s.cfg.caps[k]? = some n → s.fifos[k]? = some f → f.IndicesOk n

theorem State.IndicesOk.congr {s t : State} (h : s.IndicesOk) (hc : t.cfg = s.cfg) (hf : t.fifos = s.fifos) :
    t.IndicesOk := by
  unfold State.IndicesOk
  rw [hc, hf]
  exact h

/-- A command keeps the indices in range: ADD and REMOVE advance them modulo `M` (40_fifo.md R66). -/
theorem State.IndicesOk.of_exec {i : Instr} {s t : State} (h : s.IndicesOk) (hl : s.cfg.legal = true)
    (he : exec i s = .next t) : t.IndicesOk := by
  have hc := (exec_frame he).cfg
  rcases exec_fifos he with e | ⟨k, n, f, g, hf, hu, e⟩
  · exact h.congr hc e
  · intro k' m x hm hx
    rw [hc] at hm
    rw [e] at hx
    by_cases hk : k.toNat = k'
    · subst hk
      rw [List.getElem?_set_self', hf.fifo] at hx
      cases hf.cap.symm.trans hm
      cases hx
      obtain ⟨-, -, hcaps, -⟩ := (Config.legal_iff s.cfg).mp hl
      have hn : n ≤ 255 := ((Config.legalCap_iff n).mp (hcaps n (List.mem_of_getElem? hf.cap))).2
      exact (h _ n f hf.cap hf.fifo).update hn hu
    · rw [List.getElem?_set_ne hk] at hx
      exact h k' m x hm hx

theorem State.IndicesOk.of_contextStep {s t : State} (h : s.IndicesOk) (hl : s.cfg.legal = true) (hc : ContextStep s t) :
    t.IndicesOk := by
  cases hc with
  | answers l rest w i u r _ _ _ he => exact (h.of_exec hl he).congr rfl rfl
  | halfway l rest w i _ _ _ _ he => exact h.of_exec hl he
  | _ => exact h.congr rfl rfl

theorem State.resetWith_indicesOk (c : Config) (d : ResetDraw) (p : List Line) : (State.resetWith c d p).IndicesOk := by
  intro k n f _ hf
  rw [State.resetWith_fifo hf]
  exact Fifo.atReset_indicesOk _ n

@[simp] theorem State.enterHandler_cfg (src : Source) (s : State) : (s.enterHandler src).cfg = s.cfg := by
  rcases s.enterHandler_cases src with e | ⟨-, -, -, e⟩ <;> rw [e]

@[simp] theorem State.enterHandler_fifos (src : Source) (s : State) : (s.enterHandler src).fifos = s.fifos := by
  rcases s.enterHandler_cases src with e | ⟨-, -, -, e⟩ <;> rw [e]

@[simp] theorem State.enterHandler_sws (src : Source) (s : State) : (s.enterHandler src).sws = s.sws := by
  rcases s.enterHandler_cases src with e | ⟨-, -, -, e⟩ <;> rw [e]

/-- Settles O11: reset puts both indices at 0, and only ADD and REMOVE move them. -/
theorem everyStepKeepsFifoIndicesInRange : Obligations.EveryStepKeepsFifoIndicesInRange := by
  refine ⟨fun c d p k n f hf => State.resetWith_fifo hf ▸ Fifo.atReset_indicesOk _ n, fun s t (h : s.IndicesOk) hstep => ?_⟩
  show t.IndicesOk
  obtain ⟨hl, ⟨ms, -, hc⟩ | ⟨e, ms, -, rfl⟩ | ⟨ms, -, rfl⟩ | ⟨src, ms, -, rfl⟩ | ⟨d, p, ms, -, rfl⟩⟩ :=
    step_next_cases hstep
  · exact (h.congr (t := s.beginStep ms) rfl rfl).of_contextStep hl hc
  · exact h.congr (by simp) (by simp)
  · exact h.congr (by simp) (by simp)
  · exact h.congr (by simp) (by simp)
  · exact (State.resetWith_indicesOk s.cfg (d.clean s.cfg) p).congr rfl rfl

/-! ## Parameters and instances (10_state.md R13, R25) -/

/-- The parameters and the number of FIFOs and of stopwatches are the same. -/
structure SameInstances (s t : State) : Prop where
  cfg   : t.cfg = s.cfg
  fifos : t.fifos.length = s.fifos.length
  sws   : t.sws.length = s.sws.length

theorem exec_sameInstances {i : Instr} {s t : State} (h : exec i s = .next t) : SameInstances s t where
  cfg := (exec_frame h).cfg
  fifos := exec_fifos_length h
  sws := exec_sws_length h

theorem ContextStep.sameInstances {s t : State} (h : ContextStep s t) : SameInstances s t := by
  cases h with
  | answers l rest w i u r _ _ _ he => exact { exec_sameInstances he with }
  | halfway l rest w i _ _ _ _ he => exact exec_sameInstances he
  | _ => exact ⟨rfl, rfl, rfl⟩

/-- Settles O12: registers are written in place, and reset builds the instances the parameters count. -/
theorem noStepChangesParametersOrInstances : Obligations.NoStepChangesParametersOrInstances := by
  intro s t hstep
  obtain ⟨-, ⟨ms, -, hc⟩ | ⟨e, ms, -, rfl⟩ | ⟨ms, -, rfl⟩ | ⟨src, ms, -, rfl⟩ | ⟨d, p, ms, -, rfl⟩⟩ :=
    step_next_cases hstep
  · obtain ⟨hcfg, hf, hw⟩ := hc.sameInstances
    exact ⟨hcfg, fun _ => hf, fun _ => hw⟩
  · simp
  · simp
  · simp
  · refine ⟨rfl, fun hf => ?_, fun hw => ?_⟩
    · exact (State.resetWith_fifos_length s.cfg (d.clean s.cfg) p).trans hf.symm
    · exact (State.resetWith_sws_length s.cfg (d.clean s.cfg) p).trans hw.symm

/-! ## The accumulator (10_state.md R19) -/

theorem Clock.crossing_eq_zero_or_one (c : Config) (k : Clock) : k.crossing c = 0 ∨ k.crossing c = 1 := by
  unfold Clock.crossing
  split_ifs
  · exact .inr rfl
  · exact .inl rfl

/-- TICK advances the millisecond counter by 0 or 1 as a ring value. -/
theorem Clock.tick_ms_cases (c : Config) (k : Clock) : (k.tick c).ms = k.ms ∨ (k.tick c).ms = k.ms + 1 := by
  rw [Clock.tick_ms]
  rcases Clock.crossing_eq_zero_or_one c k with e | e <;> rw [e]
  · exact .inl (BitVec.add_zero k.ms)
  · exact .inr rfl

/-- Settles O26: the accumulator gives up `FRAC_DEN` as it crosses it (41_clock.md R82), and the counter's ring passes from
`0xFFFFFFFF` to 0. -/
theorem tickKeepsTheAccumulatorBelowTheDenominator : Obligations.TickKeepsTheAccumulatorBelowTheDenominator := by
  refine ⟨fun c d p hden => hden, fun s _ hinc hfrac => ⟨_, rfl, Clock.tick_frac hfrac hinc, ?_, fun hms hne => ?_⟩⟩
  · exact Clock.tick_ms_cases s.cfg s.clk
  · rcases Clock.tick_ms_cases s.cfg s.clk with e | e
    · exact absurd e hne
    · exact e.trans (by rw [hms]; rfl)

end Sys2Proof.Machine
end

section
/-! PROOFS. The family 20_memory.md: what the FIFO operations (O22), the reads (O23) and the clock operations (O33) leave
unchanged, and the normal context while a handler runs (O52). -/

namespace Sys2Proof.Machine

/-! ## The FIFO operations (20_memory.md R36, R37, R40) -/

@[simp] theorem Fifo.remove_head (n : Nat) (f : Fifo) : (f.remove n).head = f.head := by
  unfold Fifo.remove; split_ifs <;> rfl

@[simp] theorem Fifo.remove_storage (n : Nat) (f : Fifo) : (f.remove n).storage = f.storage := by
  unfold Fifo.remove; split_ifs <;> rfl

/-- ADD writes the cell at `head` and no other (40_fifo.md R72). -/
theorem Fifo.add_read_other {f : Fifo} {a : Nat} (n : Nat) (b : Byte) (h : a ≠ f.head.toNat) :
    (f.add n b).storage.read a = f.storage.read a :=
  Memory.read_write_other b f.storage h

/-- The command is one of the six operations on FIFO `i` (30_encoding.md R54). -/
def Instr.OnFifo (i : BitVec 2) (o : Instr) : Prop :=
  o = .isEmpty i ∨ o = .peek i ∨ o = .remove i ∨ o = .count i ∨ o = .free i ∨ ∃ b, o = .add i b

/-- An operation on FIFO `i` delivers a response, and before that may update that FIFO; it does nothing else. -/
theorem exec_onFifo {o : Instr} {i : BitVec 2} {s t : State} (ho : Instr.OnFifo i o) (h : exec o s = .next t) :
    (∃ r, t = s.answer r) ∨
    ∃ n f g, s.FifoAt i n f ∧ FifoUpdate n o i f g ∧ t = (s.setFifo i g).respond 0 := by
  have honePhase : o.twoPhase = false := by rcases ho with rfl | rfl | rfl | rfl | rfl | ⟨b, rfl⟩ <;> rfl
  unfold Instr.OnFifo at ho
  cases exec_next_cases h with
  | refuses => exact .inl ⟨_, rfl⟩
  | answers => exact .inl ⟨_, rfl⟩
  | removes k n f hf =>
    obtain rfl : k = i := by simpa using ho
    exact .inr ⟨n, f, _, hf, .removes k f, rfl⟩
  | adds k b n f hf =>
    obtain rfl : k = i := by simpa using ho
    exact .inr ⟨n, f, _, hf, .adds k b f, rfl⟩
  | phaseA _ h2 _ => simp [honePhase] at h2
  | _ => simp at ho

/-- Which registers and cells of its FIFO an operation leaves alone (10_state.md R14). -/
theorem FifoUpdate.unchanged {n : Nat} {o : Instr} {i : BitVec 2} {f g : Fifo} (h : FifoUpdate n o i f g) :
    ((∀ b, o ≠ .add i b) → g.head = f.head ∧ ∀ a, g.storage.read a = f.storage.read a) ∧
    ((∀ b, o ≠ .add i b) → o ≠ .remove i → g.tail = f.tail) ∧
    ∀ b, o = .add i b → ∀ a, a ≠ f.head.toNat → g.storage.read a = f.storage.read a := by
  cases h with
  | removes => simp
  | adds _ b =>
    exact ⟨fun hne => absurd rfl (hne b), fun hne => absurd rfl (hne b), fun _ _ a ha => Fifo.add_read_other n b ha⟩

/-- Settles O22: an answer alone changes no FIFO, and an update writes one FIFO, where 40_fifo.md R70 and R72 say. -/
theorem fifoOperationsChangeOnlyTheirInstance : Obligations.FifoOperationsChangeOnlyTheirInstance := by
  intro s t i o ho h
  rcases exec_onFifo ho h with ⟨r, rfl⟩ | ⟨n, f, g, hf, hu, rfl⟩
  · refine ⟨rfl, rfl, rfl, rfl, rfl, rfl, rfl, rfl, rfl, rfl, rfl, rfl, fun _ _ => rfl, fun f g hf hg => ?_⟩
    cases hf.symm.trans hg
    simp
  · refine ⟨rfl, rfl, rfl, rfl, rfl, rfl, rfl, rfl, rfl, rfl, rfl, List.length_set .., fun k hk => ?_, fun f' g' hf' hg' => ?_⟩
    · exact List.getElem?_set_ne hk.symm
    · cases hf.fifo.symm.trans hf'
      rw [State.respond_fifos, State.setFifo_fifos, List.getElem?_set_self', hf.fifo] at hg'
      cases hg'
      exact hu.unchanged

/-! ## Reads (20_memory.md R42) -/

/-- The command reads FIFO `i` or the millisecond counter (40_fifo.md R68, R69, R73, R74, 41_clock.md R84). -/
def Instr.IsRead (i : BitVec 2) (o : Instr) : Prop :=
  o = .isEmpty i ∨ o = .peek i ∨ o = .count i ∨ o = .free i ∨ o = .millis

/-- A read only delivers a response. -/
theorem exec_read {o : Instr} {i : BitVec 2} {s t : State} (ho : Instr.IsRead i o) (h : exec o s = .next t) :
    ∃ r, t = s.answer r := by
  by_cases hm : o = .millis
  · subst hm; cases h; exact ⟨_, rfl⟩
  · unfold Instr.IsRead at ho
    have hon : Instr.OnFifo i o := by unfold Instr.OnFifo; tauto
    rcases exec_onFifo hon h with hr | ⟨n, f, g, -, hu, -⟩
    · exact hr
    · cases hu <;> simp at ho

/-- A read does not depend on the response that stands. -/
theorem exec_read_answer {o : Instr} {i : BitVec 2} (ho : Instr.IsRead i o) (r : Response) (s : State) :
    exec o (s.answer r) = exec o s := by
  rcases ho with rfl | rfl | rfl | rfl | rfl <;> rfl

/-- Settles O23: a read writes only the response, on which no read depends. -/
theorem readsChangeNothingAndRepeat : Obligations.ReadsChangeNothingAndRepeat := by
  intro s t i o ho h
  obtain ⟨r, rfl⟩ := exec_read ho h
  exact ⟨⟨r, rfl⟩, (exec_read_answer ho r s).trans h⟩

/-! ## The clock operations (20_memory.md R40, R42) -/

/-- Only a command on a stopwatch writes a stopwatch. -/
theorem exec_sws_eq {o : Instr} {s t : State} (h : exec o s = .next t) (ho : ∀ j, ¬ Instr.OnStopwatch j o) :
    t.sws = s.sws := by
  rcases exec_sws h with e | ⟨j, w, w', -, hu, -⟩
  · exact e
  · exact absurd (by cases hu <;> simp [Instr.OnStopwatch]) (ho j)

/-- Settles O33: MICROS is framed as every command is; TICK writes `CLK` and MILLIS the response only. -/
theorem clockOperationsChangeOnlyTheClock : Obligations.ClockOperationsChangeOnlyTheClock := by
  intro s t o ho h
  have hf := exec_frame h
  obtain ⟨hadd, hremove, hsup, hres, hsw⟩ : (∀ k b, o ≠ .add k b) ∧ (∀ k, o ≠ .remove k) ∧ o ≠ .irqSuppress ∧
      (∀ f, o ≠ .irqRestore f) ∧ ∀ j, ¬ Instr.OnStopwatch j o := by
    rcases ho with rfl | rfl | rfl <;> simp [Instr.OnStopwatch]
  refine ⟨hf.cfg, exec_fifos_eq h hadd hremove, exec_sws_eq h hsw, exec_ctx h hsup hres, hf.tmrCnt, hf.uartRx, hf.outputs,
    hf.sched, exec_clk h, fun hmicros => ?_, hf.normal_of_inHandler, hf.handler_of_not_inHandler, hf.thread_todo,
    hf.thread_saved⟩
  rcases ho with rfl | rfl | rfl
  · cases h; exact ⟨rfl, rfl, rfl⟩
  · cases h; exact ⟨rfl, rfl, rfl⟩
  · exact absurd rfl hmicros

/-! ## The normal context while a handler runs (20_memory.md R46, 60_exceptions.md R129) -/

@[simp] theorem State.enterHandler_normal (src : Source) (s : State) : (s.enterHandler src).normal = s.normal := by
  rcases s.enterHandler_cases src with e | ⟨-, -, -, e⟩ <;> rw [e]

theorem State.goOn_normal_of_inHandler {s : State} (h : s.ctx.inHandler = true) (l : Line) (rest : List Line) (r : Response) :
    (s.goOn l rest r).normal = s.normal := by
  rw [State.goOn_normal, if_pos h]

/-- The handler's own step leaves the normal context alone. -/
theorem ContextStep.normal_of_inHandler {s t : State} (hc : ContextStep s t) (h : s.ctx.inHandler = true) :
    t.normal = s.normal := by
  cases hc with
  | waits => rfl
  | returns => rfl
  | skips => exact if_pos h
  | refuses l rest => exact State.goOn_normal_of_inHandler (s := s.refuseCommand) h l rest _
  | answers l rest w i u r _ _ _ he =>
    have hf := exec_frame he
    exact (State.goOn_normal_of_inHandler (hf.inHandler.trans h) l rest r).trans (hf.normal_of_inHandler h)
  | halfway l rest w i _ _ _ _ he => exact (exec_frame he).normal_of_inHandler h

/-- Settles O52: the context's move is the handler's, and of the other moves of 60_exceptions.md R129 only reset writes the
normal context. -/
theorem normalContextWaitsWhileAHandlerRuns : Obligations.NormalContextWaitsWhileAHandlerRuns := by
  intro s t hstep h hreset
  obtain ⟨-, ⟨ms, -, hc⟩ | ⟨e, ms, -, rfl⟩ | ⟨ms, -, rfl⟩ | ⟨src, ms, -, rfl⟩ | ⟨d, p, ms, hs, rfl⟩⟩ :=
    step_next_cases hstep
  · exact hc.normal_of_inHandler h
  · simp
  · simp
  · simp
  · exact absurd hs (hreset d p ms)

end Sys2Proof.Machine
end

section
/-! PROOFS. The family 30_encoding.md: the round trip of decoder and encoder (O1, O2), the rows of the opcode map (O3), sample
words (O4), and the step of a context whose next word is reserved (O5) or decodes (O59). -/

namespace Sys2Proof

/-! ## The word of an instruction decodes to it (30_encoding.md R50, R51, R54 to R56) -/

theorem decode_fifoWord (c : Config) (k : BitVec 2) {o a : Nat} (ho : o < 16) (ha : a < 256) :
    decode c (packWord 0 k.toNat o a) = decodeFifo c k (BitVec.ofNat 4 o) (BitVec.ofNat 8 a) :=
  decode_packWord c k (by decide) ho ha

theorem decode_clockWord (c : Config) {o : Nat} (ho : o < 16) :
    decode c (packWord 1 0 o 0) = decodeClock c 0 (BitVec.ofNat 4 o) 0 :=
  decode_packWord c 0 (by decide) ho (by decide)

theorem decode_stopwatchWord (c : Config) (j : BitVec 2) {o a : Nat} (ho : o < 16) (ha : a < 256) :
    decode c (packWord 2 j.toNat o a) = decodeStopwatch c j (BitVec.ofNat 4 o) (BitVec.ofNat 8 a) :=
  decode_packWord c j (by decide) ho ha

theorem decode_contextWord (c : Config) {o a : Nat} (ho : o < 16) (ha : a < 256) :
    decode c (packWord 3 0 o a) = decodeContext 0 (BitVec.ofNat 4 o) (BitVec.ofNat 8 a) :=
  decode_packWord c 0 (by decide) ho ha

@[simp] theorem decodeNoArg_zero (i : Instr) : decodeNoArg 0#8 i = .ok i := rfl

theorem Resolution.code_lt (r : Resolution) : r.code < 256 := by cases r <;> decide

/-- SW_INIT's argument is its resolution's code. -/
theorem decodeSwInit_code {c : Config} {r : Resolution} (j : BitVec 2) (hr : r.wf c = true) :
    decodeSwInit c j (BitVec.ofNat 8 r.code) = .ok (.swInit j r) := by
  cases r with
  | fine => exact if_pos hr
  | milli => rfl
  | second => rfl

/-- IRQ_RESTORE's argument is the flag. -/
theorem decodeContext_irqRestore (f : Bool) : decodeContext 0 1 (BitVec.ofNat 8 f.toNat) = .ok (.irqRestore f) := by
  cases f <;> rfl

theorem decode_encode {c : Config} {i : Instr} (h : i.wf c = true) : decode c (encode i) = .ok i := by
  cases i with
  | isEmpty k | peek k | remove k | count k | free k =>
    have hk : k.toNat < c.nFifo := of_decide_eq_true h
    simp [encode, decode_fifoWord, decodeFifo, hk]
  | add k b =>
    have hk : k.toNat < c.nFifo := of_decide_eq_true h
    simp [encode, decode_fifoWord c k (show 3 < 16 by decide) b.isLt, decodeFifo, hk]
  | tick | millis => simp [encode, decode_clockWord, decodeClock]
  | micros =>
    have hf : c.hasFine = true := h
    simp [encode, decode_clockWord, decodeClock, hf]
  | swInit j r =>
    obtain ⟨hj, hr⟩ : j.toNat < c.nsw ∧ r.wf c = true := by simpa [Instr.wf] using h
    simp [encode, decode_stopwatchWord c j (show 0 < 16 by decide) r.code_lt, decodeStopwatch, hj, decodeSwInit_code j hr]
  | swStart j | swStop j | swPoll j | swElapsed j | swReset j =>
    have hj : j.toNat < c.nsw := of_decide_eq_true h
    simp [encode, decode_stopwatchWord, decodeStopwatch, hj]
  | irqSuppress => simp [encode, decode_contextWord, decodeContext]
  | irqRestore f =>
    have hf : f.toNat < 256 := by cases f <;> decide
    exact (decode_contextWord c (by decide) hf).trans (decodeContext_irqRestore f)

/-- Settles O1: every operand stands in the word's fields, and its unit's table reads it from there. -/
theorem decodeOfEncodeIsTheInstruction : Obligations.DecodeOfEncodeIsTheInstruction :=
  fun _ _ => decode_encode

/-! ## A decoded word is the word of its instruction (30_encoding.md R54 to R57) -/

/-- The argument of an operation that takes none is 0, as its word has it. -/
theorem decodeNoArg_encode {a : Byte} {i j : Instr} {u k o : Nat} (h : decodeNoArg a i = .ok j)
    (hi : encode i = packWord u k o 0) : encode j = packWord u k o a.toNat := by
  obtain ⟨rfl, rfl⟩ := decodeNoArg_ok h
  exact hi

theorem decodeFifo_encode {c : Config} {k : BitVec 2} {op : BitVec 4} {a : Byte} {i : Instr}
    (h : decodeFifo c k op a = .ok i) : encode i = packWord 0 k.toNat op.toNat a.toNat := by
  unfold decodeFifo at h
  split_ifs at h
  split at h <;> rename_i hop
  case h_4 => cases h; rw [hop]; rfl
  case h_7 => cases h
  all_goals rw [hop]; exact decodeNoArg_encode h rfl

theorem decodeClock_encode {c : Config} {k : BitVec 2} {op : BitVec 4} {a : Byte} {i : Instr}
    (h : decodeClock c k op a = .ok i) : encode i = packWord 1 k.toNat op.toNat a.toNat := by
  unfold decodeClock at h
  split at h
  · rename_i hk
    subst hk
    split at h <;> rename_i hop
    · rw [hop]; exact decodeNoArg_encode h rfl
    · rw [hop]; exact decodeNoArg_encode h rfl
    · split_ifs at h
      rw [hop]; exact decodeNoArg_encode h rfl
    · cases h
  · cases h

theorem decodeSwInit_encode {c : Config} {j : BitVec 2} {a : Byte} {i : Instr} (h : decodeSwInit c j a = .ok i) :
    encode i = packWord 2 j.toNat 0 a.toNat := by
  unfold decodeSwInit at h
  split at h <;> rename_i ha
  · split_ifs at h
    cases h; rw [ha]; rfl
  · cases h; rw [ha]; rfl
  · cases h; rw [ha]; rfl
  · cases h
  · cases h

theorem decodeStopwatch_encode {c : Config} {j : BitVec 2} {op : BitVec 4} {a : Byte} {i : Instr}
    (h : decodeStopwatch c j op a = .ok i) : encode i = packWord 2 j.toNat op.toNat a.toNat := by
  unfold decodeStopwatch at h
  split_ifs at h
  split at h <;> rename_i hop
  case h_1 => rw [hop]; exact decodeSwInit_encode h
  case h_7 => cases h
  all_goals rw [hop]; exact decodeNoArg_encode h rfl

theorem decodeContext_encode {k : BitVec 2} {op : BitVec 4} {a : Byte} {i : Instr}
    (h : decodeContext k op a = .ok i) : encode i = packWord 3 k.toNat op.toNat a.toNat := by
  unfold decodeContext at h
  split_ifs at h with hk
  subst hk
  split at h <;> rename_i hop
  · rw [hop]; exact decodeNoArg_encode h rfl
  · split at h <;> rename_i ha <;> cases h <;> rw [hop, ha] <;> rfl
  · cases h

theorem CmdWord.unit_cases (w : CmdWord) :
    w.unit.toNat = 0 ∨ w.unit.toNat = 1 ∨ w.unit.toNat = 2 ∨ w.unit.toNat = 3 := by
  have hu : w.unit.toNat < 4 := w.unit.isLt
  omega

/-- The tables write the word's four fields back. -/
theorem encode_of_decode {c : Config} {w : CmdWord} {i : Instr} (h : decode c w = .ok i) : encode i = w := by
  rw [← packWord_fields w]
  unfold decode at h
  obtain hu | hu | hu | hu := w.unit_cases <;> rw [hu] at h ⊢
  · exact decodeFifo_encode h
  · exact decodeClock_encode h
  · exact decodeStopwatch_encode h
  · exact decodeContext_encode h

/-- Settles O2: what the decoder accepts exists in the configuration, and the word is its encoding. -/
theorem decodedWordsAreTheEncodings : Obligations.DecodedWordsAreTheEncodings :=
  fun _ _ _ h => ⟨decode_wf h, encode_of_decode h⟩

/-- A word that encodes no instruction of the configuration is reserved (R57). -/
theorem decode_reserved {c : Config} {w : CmdWord} (h : ∀ i : Instr, i.wf c = true → encode i ≠ w) :
    ∃ e, decode c w = .error e := by
  cases hd : decode c w with
  | error e => exact ⟨e, rfl⟩
  | ok i => exact absurd (encode_of_decode hd) (h i (decode_wf hd))

/-! ## The rows of the opcode map (30_encoding.md R54 to R56) -/

/-- The word of an instruction is selected by the instruction's row. -/
theorem row_selects_encode (i : Instr) : i.row.selects (encode i) = true := by
  cases i with
  | isEmpty k => exact Laws.TableRow.isEmpty k
  | peek k => exact Laws.TableRow.peek k
  | remove k => exact Laws.TableRow.remove k
  | add k b => exact Laws.TableRow.add k b
  | count k => exact Laws.TableRow.count k
  | free k => exact Laws.TableRow.free k
  | tick => exact Laws.TableRow.tick
  | millis => exact Laws.TableRow.millis
  | micros => exact Laws.TableRow.micros
  | swInit j r => exact Laws.TableRow.swInit j r
  | swStart j => exact Laws.TableRow.swStart j
  | swStop j => exact Laws.TableRow.swStop j
  | swPoll j => exact Laws.TableRow.swPoll j
  | swElapsed j => exact Laws.TableRow.swElapsed j
  | swReset j => exact Laws.TableRow.swReset j
  | irqSuppress => exact Laws.TableRow.irqSuppress
  | irqRestore f => exact Laws.TableRow.irqRestore f

/-- The rows of the opcode map, each given by one of its instructions. -/
def opcodeMap : List OpRow :=
  [Instr.isEmpty 0, .peek 0, .remove 0, .add 0 0, .count 0, .free 0, .tick, .millis, .micros, .swInit 0 .fine, .swStart 0,
   .swStop 0, .swPoll 0, .swElapsed 0, .swReset 0, .irqSuppress, .irqRestore false].map Instr.row

/-- Operands do not change an instruction's row. -/
theorem row_mem_opcodeMap (i : Instr) : i.row ∈ opcodeMap := by
  cases i <;> simp [opcodeMap, Instr.row]

/-- The UNIT and OP fields of a command word (R50). -/
def unitOpMask : CmdWord := 0xCF00

/-- Every row fixes the UNIT and OP of the words it selects. -/
theorem mask_unitOp : ∀ r ∈ opcodeMap, r.mask &&& unitOpMask = unitOpMask := by decide

/-- No two rows have the same UNIT and OP. -/
theorem row_eq_of_unitOp : ∀ r ∈ opcodeMap, ∀ r' ∈ opcodeMap,
    r.pattern &&& unitOpMask = r'.pattern &&& unitOpMask → r = r' := by decide

theorem OpRow.selects_iff (r : OpRow) (w : CmdWord) : r.selects w = true ↔ w &&& r.mask = r.pattern := beq_iff_eq

/-- A word selected by a row has the UNIT and OP of the row's match. -/
theorem unitOp_of_selects {i : Instr} {w : CmdWord} (h : i.row.selects w = true) :
    i.row.pattern &&& unitOpMask = w &&& unitOpMask := by
  rw [← (OpRow.selects_iff _ _).mp h, BitVec.and_assoc, mask_unitOp _ (row_mem_opcodeMap i)]

/-- At most one row selects a word. -/
theorem row_eq_of_selects {i i' : Instr} {w : CmdWord} (h : i.row.selects w = true) (h' : i'.row.selects w = true) :
    i'.row = i.row :=
  row_eq_of_unitOp _ (row_mem_opcodeMap i') _ (row_mem_opcodeMap i) ((unitOp_of_selects h').trans (unitOp_of_selects h).symm)

/-- Settles O3: the word is its instruction's encoding, which the instruction's row selects, and the UNIT and OP fields tell
the rows apart. -/
theorem decodedWordMatchesOnlyItsRow : Obligations.DecodedWordMatchesOnlyItsRow := by
  intro c w i i' h
  have hi : i.row.selects w = true := encode_of_decode h ▸ row_selects_encode i
  exact ⟨hi, row_eq_of_selects hi⟩

/-- Settles O4: the vectors of 95_test_vectors.md 2.5 and R59, run. -/
theorem sampleWordsDecode : Obligations.SampleWordsDecode := by
  unfold Obligations.SampleWordsDecode
  decide

end Sys2Proof

namespace Sys2Proof.Machine

/-! ## The command port (30_encoding.md R49, R57) -/

theorem State.execWord_error {s : State} {w : CmdWord} {e : Reserved} (h : decode s.cfg w = .error e) :
    s.execWord w = .next s.refuseCommand := by
  simp [State.execWord, h]

/-- The step of a context whose first line's command is reserved. -/
theorem step_refuse {s : State} {ms : List Move} {l : Line} {rest : List Line} {w : CmdWord} {e : Reserved}
    (hl : s.cfg.legal = true) (hs : s.sched = .context :: ms ∨ s.sched = [] ∧ ms = []) (ht : s.thread.todo = l :: rest)
    (hw : l.word s.thread = some w) (hd : decode s.cfg w = .error e) :
    step s = .next ((s.beginStep ms).refuseCommand.goOn l rest { status := .illegal, word := 0 }) := by
  rw [step_context hl hs, State.contextStep_issue (s := s.beginStep ms) (by simpa using ht) (by simpa using hw),
    State.execWord_error (by simpa using hd)]
  rfl

/-- After a plain command the context goes on past its line, and that is all. -/
theorem State.goOn_command (w : CmdWord) (rest : List Line) (r : Response) (s : State) :
    s.goOn (.command w) rest r = s.setThread { s.thread with todo := rest } := by
  simp [State.goOn, Line.rest, Line.keep, Line.output, State.setThread]

theorem State.onFifo_absent {s : State} {i : BitVec 2} (h : s.cfg.nFifo ≤ i.toNat) (k : Nat → Fifo → Result) :
    s.onFifo i k = .next s.refuseCommand := by
  have hc : s.cfg.caps[i.toNat]? = none := List.getElem?_eq_none h
  simp [State.onFifo, hc]

theorem State.onStopwatch_absent {s : State} {j : BitVec 2} (h : s.sws.length ≤ j.toNat) (k : Stopwatch → Result) :
    s.onStopwatch j k = .next s.refuseCommand := by
  simp [State.onStopwatch, List.getElem?_eq_none h]

/-- An instruction that the configuration does not have is refused (assumption log 27). -/
theorem exec_illFormed {i : Instr} {s : State} (hs : s.sws.length = s.cfg.nsw) (hi : i.wf s.cfg = false) :
    exec i s = .next s.refuseCommand := by
  cases i with
  | isEmpty k | peek k | remove k | add k b | count k | free k =>
    have hk : s.cfg.nFifo ≤ k.toNat := Nat.le_of_not_lt (of_decide_eq_false hi)
    exact State.onFifo_absent hk _
  | tick | millis | irqSuppress | irqRestore f => cases hi
  | micros =>
    have hf : s.cfg.hasFine = false := hi
    simp [exec, execMicros, State.onFineTime, hf]
  | swInit j r =>
    by_cases hj : j.toNat < s.cfg.nsw
    · have hr : r.wf s.cfg = false := by simpa [Instr.wf, hj] using hi
      have hw := List.getElem?_eq_getElem (hs ▸ hj)
      simp [exec, execSwInit, State.onStopwatch_eq hw, hr]
    · exact State.onStopwatch_absent (hs ▸ Nat.le_of_not_lt hj) _
  | swStart j | swStop j | swPoll j | swElapsed j | swReset j =>
    have hj : s.cfg.nsw ≤ j.toNat := Nat.le_of_not_lt (of_decide_eq_false hi)
    exact State.onStopwatch_absent (hs ▸ hj) _

/-- Settles O5: a reserved word's step is a refusal that the context goes on from; an instruction that the configuration does
not have names an absent unit or needs absent fine time. -/
theorem reservedCommandIsRefusedAndTheBlockGoesOn : Obligations.ReservedCommandIsRefusedAndTheBlockGoesOn := by
  refine ⟨fun s w rest ms hw hl hs ht => ?_, fun s i h hi => exec_illFormed h.swCount hi⟩
  obtain ⟨e, he⟩ := decode_reserved hw
  rw [step_refuse hl hs ht rfl he, State.goOn_command]
  rfl

/-- Settles O59: a command line's own continuation is to drop the line. -/
theorem stepRunsTheDecodedInstruction : Obligations.StepRunsTheDecodedInstruction := by
  intro s w i rest ms hl hs ht hd
  rw [step_issue hl hs ht rfl hd]
  unfold State.beginStep
  generalize exec i _ = r
  cases r with
  | next t => cases hr : t.resp <;> simp [Result.afterCommand, hr, State.goOn_command]
  | fault e => rfl
  | refused e => rfl

end Sys2Proof.Machine
end

section
/-! PROOFS. The family 40_fifo.md: the indices (O13, O14), the six operations one by one (O15 to O19), and the content as a
bounded queue (O20, O21). The content's laws come first: REMOVE gives up its first byte, and ADD appends one, a full FIFO
being one from which the oldest byte is removed before. -/

namespace Sys2Proof.Machine

/-! ## Indices (40_fifo.md R66, R80) -/

theorem Fifo.iterate_inc_toNat {n : Nat} (hn : n ≤ 255) {k : Byte} (hk : k.toNat < n + 1) (m : Nat) :
    ((Fifo.inc n)^[m] k).toNat = (k.toNat + m) % (n + 1) := by
  induction m with
  | zero => exact (Nat.mod_eq_of_lt hk).symm
  | succ m ih => rw [Function.iterate_succ_apply', Fifo.inc_toNat hn, ih, Nat.mod_add_mod, Nat.add_assoc]

/-- Settles O13: the width of an index register loses nothing of `M ≤ 256`. -/
theorem incIsAdditionOfOneModuloM : Obligations.IncIsAdditionOfOneModuloM := by
  intro n k hcap hk
  have hn : n ≤ 255 := ((Config.legalCap_iff n).mp hcap).2
  refine ⟨Fifo.inc_toNat hn k, fun hlt => ?_, fun heq => BitVec.eq_of_toNat_eq ?_, BitVec.eq_of_toNat_eq ?_⟩
  · rw [Fifo.inc_toNat hn, Nat.mod_eq_of_lt (by omega)]
  · rw [Fifo.inc_toNat hn, heq, Nat.mod_self]; rfl
  · rw [Fifo.iterate_inc_toNat hn hk, Nat.add_mod_right, Nat.mod_eq_of_lt hk]

/-- Settles O14: the two cases of R67 and R75's bound. -/
theorem countIsTheModularDifferenceAndAtMostN : Obligations.CountIsTheModularDifferenceAndAtMostN := by
  intro n f h
  refine ⟨fun hle => ?_, fun hlt => ?_, Fifo.cnt_le h⟩
  · rw [Fifo.cnt_eq h, if_pos hle]
  · rw [Fifo.cnt_eq h, if_neg (Nat.not_le.mpr hlt)]

/-! ## Count and content under REMOVE and ADD (10_state.md R16, 40_fifo.md R70, R72) -/

theorem Fifo.remove_of_ne {f : Fifo} (n : Nat) (hne : f.head ≠ f.tail) :
    f.remove n = { f with tail := Fifo.inc n f.tail } := if_pos hne

theorem Fifo.remove_of_eq {f : Fifo} (n : Nat) (heq : f.head = f.tail) : f.remove n = f := if_neg (not_not.mpr heq)

/-- `head` is the first cell after the content. -/
theorem Fifo.head_toNat {n : Nat} {f : Fifo} (h : f.IndicesOk n) : f.head.toNat = (f.tail.toNat + f.cnt n) % (n + 1) := by
  have hh := h.head
  have ht := h.tail
  rw [Fifo.cnt_eq h]
  split_ifs with hle
  · rw [Nat.add_sub_cancel' hle, Nat.mod_eq_of_lt hh]
  · rw [Nat.add_sub_cancel' (by omega), Nat.add_mod_right, Nat.mod_eq_of_lt hh]

/-- The count is the one distance below `M` from `tail` to `head`. -/
theorem Fifo.cnt_unique {n c : Nat} {f : Fifo} (h : f.IndicesOk n) (hc : c < n + 1)
    (e : f.head.toNat = (f.tail.toNat + c) % (n + 1)) : f.cnt n = c := by
  have hcnt : f.cnt n < n + 1 := Nat.lt_succ_of_le (Fifo.cnt_le h)
  exact Nat.ModEq.eq_of_lt_of_lt (Nat.ModEq.add_left_cancel' _ ((Fifo.head_toNat h).symm.trans e)) hcnt hc

theorem Fifo.cnt_remove {n : Nat} {f : Fifo} (h : f.Ok n) (hne : f.head ≠ f.tail) : f.cnt n = (f.remove n).cnt n + 1 := by
  have hpos : f.cnt n ≠ 0 := fun h0 => hne ((Fifo.head_eq_tail_iff h).mpr h0)
  have hle := Fifo.cnt_le h.indices
  have hrem : (f.remove n).cnt n = f.cnt n - 1 := by
    refine Fifo.cnt_unique (Fifo.remove_ok h).indices (by omega) ?_
    rw [Fifo.remove_of_ne n hne, Fifo.head_toNat h.indices, Fifo.inc_toNat h.cap_le, Nat.mod_add_mod]
    congr 1
    omega
  omega

theorem Fifo.cnt_add_of_lt {n : Nat} {f : Fifo} (b : Byte) (h : f.Ok n) (hlt : f.cnt n < n) :
    (f.add n b).tail = f.tail ∧ (f.add n b).cnt n = f.cnt n + 1 := by
  have htail : (f.add n b).tail = f.tail := if_neg fun e => Nat.ne_of_lt hlt ((Fifo.inc_head_eq_tail_iff h).mp e)
  refine ⟨htail, Fifo.cnt_unique (Fifo.add_ok b h).indices (Nat.succ_lt_succ hlt) ?_⟩
  rw [htail, ← Nat.add_assoc, ← Nat.mod_add_mod, ← Fifo.head_toNat h.indices]
  exact Fifo.inc_toNat h.cap_le f.head

theorem Fifo.ne_of_full {n : Nat} {f : Fifo} (h : f.Ok n) (hfull : f.cnt n = n) : f.head ≠ f.tail := by
  have hpos := ((Config.legalCap_iff n).mp h.cap).1
  intro e
  have := (Fifo.head_eq_tail_iff h).mp e
  omega

/-- ADD to a full FIFO is ADD after the oldest byte has been removed. -/
theorem Fifo.add_of_full {n : Nat} {f : Fifo} (b : Byte) (h : f.Ok n) (hfull : f.cnt n = n) :
    f.add n b = (f.remove n).add n b := by
  have hne := Fifo.ne_of_full h hfull
  have hlt : (f.remove n).cnt n < n := by have := Fifo.cnt_remove h hne; omega
  obtain ⟨htail, -⟩ := Fifo.cnt_add_of_lt b (Fifo.remove_ok h) hlt
  have hinc : Fifo.inc n f.head = f.tail := (Fifo.inc_head_eq_tail_iff h).mpr hfull
  rw [Fifo.remove_of_ne n hne] at htail ⊢
  simpa [Fifo.add, hinc] using htail.symm

theorem Fifo.cnt_add_of_full {n : Nat} {f : Fifo} (b : Byte) (h : f.Ok n) (hfull : f.cnt n = n) : (f.add n b).cnt n = n := by
  have hrem := Fifo.cnt_remove h (Fifo.ne_of_full h hfull)
  obtain ⟨-, hcnt⟩ := Fifo.cnt_add_of_lt b (Fifo.remove_ok h) (by omega)
  rw [Fifo.add_of_full b h hfull, hcnt, ← hrem, hfull]

@[simp] theorem Fifo.content_length (n : Nat) (f : Fifo) : (f.content n).length = f.cnt n := by simp [Fifo.content]

theorem Fifo.content_eq_nil_iff {n : Nat} {f : Fifo} (h : f.Ok n) : f.content n = [] ↔ f.head = f.tail := by
  rw [Fifo.head_eq_tail_iff h, ← Fifo.content_length, List.length_eq_zero_iff]

/-- The first byte of the content is the one at `tail`, and REMOVE gives it up. -/
theorem Fifo.content_eq_cons {n : Nat} {f : Fifo} (h : f.Ok n) (hne : f.head ≠ f.tail) :
    f.content n = f.storage.read f.tail.toNat :: (f.remove n).content n := by
  unfold Fifo.content
  rw [Fifo.cnt_remove h hne, List.range_succ_eq_map, List.map_cons, List.map_map, Nat.add_zero,
    Nat.mod_eq_of_lt h.indices.tail]
  congr 1
  refine List.map_congr_left fun k _ => ?_
  rw [Fifo.remove_of_ne n hne, Fifo.inc_toNat h.cap_le, Nat.mod_add_mod, Nat.add_right_comm, Nat.add_assoc]
  rfl

theorem Fifo.content_remove {n : Nat} {f : Fifo} (h : f.Ok n) : (f.remove n).content n = (f.content n).tail := by
  by_cases heq : f.head = f.tail
  · rw [Fifo.remove_of_eq n heq, (Fifo.content_eq_nil_iff h).mpr heq]; rfl
  · rw [Fifo.content_eq_cons h heq, List.tail_cons]

theorem Fifo.add_read_head {n : Nat} {f : Fifo} (b : Byte) (h : f.Ok n) : (f.add n b).storage.read f.head.toNat = b :=
  Memory.read_write_same _ b h.wf

/-- A cell of the content is not the cell at `head`. -/
theorem Fifo.content_cell_ne_head {n k : Nat} {f : Fifo} (h : f.IndicesOk n) (hk : k < f.cnt n) :
    (f.tail.toNat + k) % (n + 1) ≠ f.head.toNat := by
  intro e
  have := Fifo.cnt_le h
  exact Nat.ne_of_gt hk (Fifo.cnt_unique h (by omega) e.symm)

theorem Fifo.content_add_of_lt {n : Nat} {f : Fifo} (b : Byte) (h : f.Ok n) (hlt : f.cnt n < n) :
    (f.add n b).content n = f.content n ++ [b] := by
  obtain ⟨htail, hcnt⟩ := Fifo.cnt_add_of_lt b h hlt
  unfold Fifo.content
  rw [hcnt, htail, List.range_succ, List.map_append, List.map_singleton, ← Fifo.head_toNat h.indices, Fifo.add_read_head b h]
  congr 1
  refine List.map_congr_left fun k hk => ?_
  exact Fifo.add_read_other n b (Fifo.content_cell_ne_head h.indices (List.mem_range.mp hk))

theorem Fifo.content_add_of_full {n : Nat} {f : Fifo} (b : Byte) (h : f.Ok n) (hfull : f.cnt n = n) :
    (f.add n b).content n = (f.content n).tail ++ [b] := by
  have hrem := Fifo.cnt_remove h (Fifo.ne_of_full h hfull)
  rw [Fifo.add_of_full b h hfull, Fifo.content_add_of_lt b (Fifo.remove_ok h) (by omega), Fifo.content_remove h]

/-- ADD appends to a bounded queue that drops its oldest byte when it is full (40_fifo.md R78). -/
theorem Fifo.content_add {n : Nat} {f : Fifo} (b : Byte) (h : f.Ok n) :
    (f.add n b).content n =
      if (f.content n).length < n then f.content n ++ [b] else (f.content n).tail ++ [b] := by
  rw [Fifo.content_length]
  split_ifs with hlt
  · exact Fifo.content_add_of_lt b h hlt
  · exact Fifo.content_add_of_full b h (Nat.le_antisymm (Fifo.cnt_le h.indices) (Nat.not_lt.mp hlt))

/-- In one expression: the last `n` bytes of the content with the new one behind it. -/
theorem Fifo.content_add_eq_rtake {n : Nat} {f : Fifo} (b : Byte) (h : f.Ok n) :
    (f.add n b).content n = (f.content n ++ [b]).rtake n := by
  have hle : (f.content n).length ≤ n := (Fifo.content_length n f).trans_le (Fifo.cnt_le h.indices)
  have hpos := ((Config.legalCap_iff n).mp h.cap).1
  rw [Fifo.content_add b h, List.rtake, List.length_append, List.length_singleton]
  split_ifs with hlt
  · rw [Nat.sub_eq_zero_of_le hlt, List.drop_zero]
  · have hlen : (f.content n).length + 1 - n = 1 := by omega
    rw [hlen, List.drop_one, List.tail_append_of_ne_nil (List.ne_nil_of_length_pos (by omega))]

/-! ## The operations on an existing instance (40_fifo.md R68 to R74) -/

section
variable {s : State} {i : BitVec 2} {n : Nat} {f : Fifo}

theorem exec_isEmpty_eq (h : s.FifoAt i n f) :
    exec (.isEmpty i) s = .next (s.respond (if f.head = f.tail then 1 else 0)) := by
  refine (State.onFifo_eq h _).trans ?_
  simp only [boolWord, Fifo.isEmpty_iff]

theorem exec_peek_of_ne (h : s.FifoAt i n f) (hne : f.head ≠ f.tail) :
    exec (.peek i) s = .next (s.respond (zext32 (f.storage.read f.tail.toNat))) :=
  (State.onFifo_eq h _).trans (if_neg (hne ∘ (Fifo.isEmpty_iff f).mp))

theorem exec_peek_of_eq (h : s.FifoAt i n f) (heq : f.head = f.tail) : exec (.peek i) s = .fault .peekEmpty :=
  (State.onFifo_eq h _).trans (if_pos ((Fifo.isEmpty_iff f).mpr heq))

theorem exec_remove_eq (h : s.FifoAt i n f) : exec (.remove i) s = .next ((s.setFifo i (f.remove n)).respond 0) :=
  State.onFifo_eq h _

theorem exec_add_eq (h : s.FifoAt i n f) (b : Byte) : exec (.add i b) s = .next ((s.setFifo i (f.add n b)).respond 0) :=
  State.onFifo_eq h _

theorem exec_count_eq (h : s.FifoAt i n f) : exec (.count i) s = .next (s.respond (trunc32 (f.cnt n))) :=
  State.onFifo_eq h _

theorem exec_free_eq (h : s.FifoAt i n f) : exec (.free i) s = .next (s.respond (trunc32 (n - f.cnt n))) :=
  State.onFifo_eq h _

/-- Writing an instance with its own registers changes nothing. -/
theorem State.setFifo_self (h : s.FifoAt i n f) : s.setFifo i f = s := by
  obtain ⟨hi, rfl⟩ := List.getElem?_eq_some_iff.mp h.fifo
  simp [State.setFifo]

end

/-- Settles O15: the word is ISEMPTY's encoding, and `boolWord` answers the emptiness. -/
theorem isEmptyAnswersWhetherHeadIsTail : Obligations.IsEmptyAnswersWhetherHeadIsTail :=
  fun _ _ _ _ h => ⟨decode_encode (i := .isEmpty _) (decide_eq_true h.lt_nFifo), exec_isEmpty_eq h⟩

/-- Settles O16: the fault stands exactly where the FIFO is empty. -/
theorem peekAnswersTheOldestByteOrFaults : Obligations.PeekAnswersTheOldestByteOrFaults :=
  fun _ _ _ _ h => ⟨decode_encode (i := .peek _) (decide_eq_true h.lt_nFifo), exec_peek_of_ne h, exec_peek_of_eq h⟩

/-- Settles O17: on an empty FIFO the instance is written with its own registers. -/
theorem removeAdvancesTailUnlessEmpty : Obligations.RemoveAdvancesTailUnlessEmpty := by
  intro s i n f h
  refine ⟨decode_encode (i := .remove i) (decide_eq_true h.lt_nFifo), fun hne => ?_, fun heq => ?_⟩
  · rw [exec_remove_eq h, Fifo.remove_of_ne n hne]; rfl
  · rw [exec_remove_eq h, Fifo.remove_of_eq n heq, State.setFifo_self h]; rfl

/-- Settles O18: the FIFO after it is `Fifo.add`'s, which reaches `tail` exactly from a full one. -/
theorem addStoresAdvancesAndEvictsWhenFull : Obligations.AddStoresAdvancesAndEvictsWhenFull := by
  intro s i b n f h hok
  refine ⟨decode_encode (i := .add i b) (decide_eq_true h.lt_nFifo), f.add n b, exec_add_eq h b, rfl, ?_,
    Fifo.add_read_head b hok, fun k hk => Fifo.add_read_other n b hk, ?_⟩
  · simp only [Fifo.add, Fifo.inc_head_eq_tail_iff hok]
  · split_ifs with hfull
    · exact Fifo.cnt_add_of_full b hok hfull
    · exact (Fifo.cnt_add_of_lt b hok (Nat.lt_of_le_of_ne (Fifo.cnt_le hok.indices) hfull)).2

/-- Settles O19: `N` is at most 255, so no answer loses anything to the word. -/
theorem countAndFreeAnswerTheCountAndItsComplement : Obligations.CountAndFreeAnswerTheCountAndItsComplement := by
  intro s i n f h hok
  have hle := Fifo.cnt_le hok.indices
  have hn := hok.cap_le
  have hword : ∀ k ≤ n, (BitVec.ofNat 32 k).toNat = k := fun k hk => by simp only [BitVec.toNat_ofNat]; omega
  refine ⟨decode_encode (i := .count i) (decide_eq_true h.lt_nFifo),
    decode_encode (i := .free i) (decide_eq_true h.lt_nFifo), f.cnt n, Fifo.cnt_eq hok.indices, hle, exec_count_eq h,
    exec_free_eq h, ?_, _, exec_isEmpty_eq h, ?_⟩
  · rw [hword _ (Nat.sub_le ..), hword _ hle, Nat.sub_add_cancel hle]
  · have hzero : BitVec.ofNat 32 (f.cnt n) = 0 ↔ f.cnt n = 0 := by
      rw [← BitVec.toNat_inj, hword _ hle]; rfl
    simp only [hzero, ← Fifo.head_eq_tail_iff hok]
    split_ifs with he <;> simp [he]

/-! ## The content as a bounded queue (40_fifo.md R77, R78) -/

/-- Settles O20: each operation's update and answer, through the laws of the content. -/
theorem fifoOperationsRefineABoundedQueue : Obligations.FifoOperationsRefineABoundedQueue := by
  intro s i n f h hok
  simp only [Fifo.content_eq_nil_iff hok]
  refine ⟨(Fifo.content_length n f).trans_le (Fifo.cnt_le hok.indices), exec_isEmpty_eq h, fun b l hcons => ?_,
    ⟨_, exec_remove_eq h, Fifo.remove_ok hok, Fifo.content_remove hok⟩,
    fun b => ⟨_, exec_add_eq h b, Fifo.add_ok b hok, Fifo.content_add b hok⟩, ?_, ?_, fun m => Fifo.atReset_content m n⟩
  · have hne : f.head ≠ f.tail := fun e => by simp [(Fifo.content_eq_nil_iff hok).mpr e] at hcons
    rw [Fifo.content_eq_cons hok hne] at hcons
    rw [exec_peek_of_ne h hne, (List.cons.inj hcons).1]
    rfl
  · rw [Fifo.content_length]; exact exec_count_eq h
  · rw [Fifo.content_length]; exact exec_free_eq h

theorem Instr.addedTo_eq_some_iff {i : BitVec 2} {o : Instr} {b : Byte} : Instr.addedTo i o = some b ↔ o = .add i b := by
  cases o <;> simp [Instr.addedTo]

theorem State.FifoAt.setFifo {s : State} {i : BitVec 2} {n : Nat} {f : Fifo} (h : s.FifoAt i n f) (g : Fifo) :
    (s.setFifo i g).FifoAt i n g where
  cap := h.cap
  fifo := by rw [State.setFifo_fifos, List.getElem?_set_self', h.fifo]; rfl

theorem State.FifoAt.respond {s : State} {i : BitVec 2} {n : Nat} {f : Fifo} (h : s.FifoAt i n f) (v : Word) :
    (s.respond v).FifoAt i n f := ⟨h.cap, h.fifo⟩

/-- A command that neither adds to FIFO `i` nor removes from it leaves it alone. -/
theorem State.FifoAt.of_exec {s t : State} {i : BitVec 2} {n : Nat} {f : Fifo} {o : Instr} (h : s.FifoAt i n f)
    (he : exec o s = .next t) (hr : o ≠ .remove i) (ha : Instr.addedTo i o = none) : t.FifoAt i n f where
  cap := (exec_frame he).cfg ▸ h.cap
  fifo := by
    rcases exec_fifos he with e | ⟨k, m, x, y, -, hu, e⟩
    · rw [e]; exact h.fifo
    · have hk : k ≠ i := by
        rintro rfl
        cases hu with
        | removes => exact hr rfl
        | adds _ b => exact absurd (ha.symm.trans (Instr.addedTo_eq_some_iff.mpr rfl)) (by simp)
      rw [e, List.getElem?_set_ne (mt BitVec.eq_of_toNat_eq hk)]
      exact h.fifo

/-- Bytes already evicted do not matter to what is evicted later. -/
theorem rtake_rtake_append {α : Type} (n : Nat) (l m : List α) : (l.rtake n ++ m).rtake n = (l ++ m).rtake n := by
  simp [List.rtake_eq_reverse_take_reverse, List.take_append, List.take_take]

/-- A run of commands without a REMOVE of FIFO `i` leaves the last `n` bytes of its content followed by what the run added. -/
theorem State.execAll_content {i : BitVec 2} {n : Nat} {is : List Instr} (hr : ∀ o ∈ is, o ≠ .remove i) {s t : State}
    {f : Fifo} (h : s.FifoAt i n f) (hok : f.Ok n) (he : State.execAll is s = .next t) :
    ∃ g : Fifo, t.FifoAt i n g ∧ g.Ok n ∧ g.content n = (f.content n ++ is.filterMap (Instr.addedTo i)).rtake n := by
  induction is generalizing s f with
  | nil =>
    cases he
    refine ⟨f, h, hok, ?_⟩
    have hle := Fifo.cnt_le hok.indices
    simp [List.rtake, Nat.sub_eq_zero_of_le hle]
  | cons o is ih =>
    obtain ⟨u, hu, he⟩ := State.execAll_cons_next he
    obtain ⟨hro, hris⟩ := List.forall_mem_cons.mp hr
    cases ha : Instr.addedTo i o with
    | none =>
      rw [List.filterMap_cons_none ha]
      exact ih hris (h.of_exec hu hro ha) hok he
    | some b =>
      obtain rfl := Instr.addedTo_eq_some_iff.mp ha
      cases (exec_add_eq h b).symm.trans hu
      obtain ⟨g, hg, hgok, hc⟩ := ih hris ((h.setFifo (f.add n b)).respond 0) (Fifo.add_ok b hok) he
      refine ⟨g, hg, hgok, hc.trans ?_⟩
      rw [Fifo.content_add_eq_rtake b hok, rtake_rtake_append, List.filterMap_cons_some ha, List.append_assoc,
        List.singleton_append]

theorem State.execAll_adds {i : BitVec 2} {n : Nat} (bs : List Byte) {s : State} {f : Fifo} (h : s.FifoAt i n f) :
    ∃ t, State.execAll (bs.map fun b => .add i b) s = .next t := by
  induction bs generalizing s f with
  | nil => exact ⟨s, rfl⟩
  | cons b bs ih =>
    rw [List.map_cons, State.execAll_cons _ (exec_add_eq h b)]
    exact ih ((h.setFifo (f.add n b)).respond 0)

/-- Settles O21: of the old content followed by at least `N` bytes, the last `N` are among the added ones. -/
theorem afterNAddsTheContentIsTheLastNBytes : Obligations.AfterNAddsTheContentIsTheLastNBytes := by
  intro s i n f h hok
  refine ⟨fun t is hr hlen he => ?_, fun bs => State.execAll_adds bs h⟩
  obtain ⟨g, hg, -, hc⟩ := State.execAll_content hr h hok he
  have hlast : g.content n =
      (is.filterMap (Instr.addedTo i)).drop ((is.filterMap (Instr.addedTo i)).length - n) := by
    rw [hc, List.rtake, List.length_append, Nat.add_sub_assoc hlen, List.drop_length_add_append]
  refine ⟨g, hg, ?_, hlast⟩
  rw [← Fifo.content_length, hlast, List.length_drop, Nat.sub_sub_self hlen]

end Sys2Proof.Machine
end

section
/-! PROOFS. The family 41_clock.md: TICK and its closed form (O24, O25), MILLIS (O27, O28), MICROS (O29 to O32), and the loops
of DELAY and DELAY_FINE (O57, O58). A TICK moves the sum of the accumulator and of the milliseconds it has given up by
`FRAC_INC`, from which the closed form follows by induction on the TICKs. -/

namespace Sys2Proof.Machine

/-! ## TICK (41_clock.md R82, R83, R96) -/

theorem trunc32_toNat_succ (w : Word) : trunc32 (w.toNat + 1) = w + 1 := by rw [trunc32_add, trunc32_of_toNat]; rfl

/-- TICK's update in 32-bit arithmetic (R82). -/
theorem Clock.tick_eq (c : Config) (k : Clock) :
    k.tick c =
      { ms := if k.frac + c.fracInc ≥ c.fracDen then k.ms + 1 else k.ms
        frac := if k.frac + c.fracInc ≥ c.fracDen then k.frac + c.fracInc - c.fracDen else k.frac + c.fracInc
        ovf := if c.hasFine then k.ovf + 1 else k.ovf } := by
  simp only [Clock.tick, trunc32_toNat_succ]
  split_ifs <;> rfl

/-- Settles O24: TICK is the clock's update and the answer 0. -/
theorem tickAdvancesTheClock : Obligations.TickAdvancesTheClock := by
  intro s
  refine ⟨decode_encode (i := .tick) rfl, ?_⟩
  rw [← Clock.tick_eq]
  rfl

/-- What a TICK adds to the accumulator it either leaves there or gives up as a crossing. -/
theorem Clock.tick_frac_add_crossing (c : Config) (k : Clock) :
    (k.tick c).frac + k.crossing c * c.fracDen = k.frac + c.fracInc := by
  rw [Clock.tick_eq, Clock.crossing]
  dsimp only
  split_ifs with h
  · rw [Nat.one_mul, Nat.sub_add_cancel h]
  · rw [Nat.zero_mul, Nat.add_zero]

/-- The clock `n` TICKs after it stood at `k`: the closed form (R83, R96). -/
def Clock.afterTicks (c : Config) (n : Nat) (k : Clock) : Clock where
  ms   := k.ms + trunc32 ((k.frac + n * c.fracInc) / c.fracDen)
  frac := (k.frac + n * c.fracInc) % c.fracDen
  ovf  := if c.hasFine then k.ovf + trunc32 n else k.ovf

theorem Clock.afterTicks_zero {c : Config} {k : Clock} (hk : k.frac < c.fracDen) : k.afterTicks c 0 = k := by
  simp [Clock.afterTicks, Nat.div_eq_of_lt hk, Nat.mod_eq_of_lt hk, trunc32]

/-- The closed form takes in a TICK made before. -/
theorem Clock.afterTicks_tick {c : Config} (hden : 0 < c.fracDen) (n : Nat) (k : Clock) :
    (k.tick c).afterTicks c n = k.afterTicks c (n + 1) := by
  have hsum : k.frac + (n + 1) * c.fracInc = (k.tick c).frac + n * c.fracInc + k.crossing c * c.fracDen := by
    rw [Nat.add_right_comm, Clock.tick_frac_add_crossing, Nat.succ_mul]; omega
  unfold Clock.afterTicks
  rw [hsum, Nat.add_mul_div_right _ _ hden, Nat.add_mul_mod_self_right, Clock.tick_ms, Clock.tick_ovf, trunc32_add,
    trunc32_add, BitVec.add_assoc, BitVec.add_comm (trunc32 (k.crossing c))]
  split_ifs
  · rw [BitVec.add_assoc, BitVec.add_comm (1 : Word)]; rfl
  · rfl

/-- `n` TICKs complete, and leave the clock in the closed form. -/
theorem State.execAll_ticks (n : Nat) {s : State} (hinc : s.cfg.fracInc ≤ s.cfg.fracDen) (hk : s.clk.frac < s.cfg.fracDen) :
    ∃ t, State.execAll (List.replicate n .tick) s = .next t ∧ t.clk = s.clk.afterTicks s.cfg n := by
  induction n generalizing s with
  | zero => exact ⟨s, rfl, (Clock.afterTicks_zero hk).symm⟩
  | succ n ih =>
    obtain ⟨t, ht, hclk⟩ := ih (s := (s.setClock (s.clk.tick s.cfg)).respond 0) hinc (Clock.tick_frac hk hinc)
    exact ⟨t, ht, hclk.trans (Clock.afterTicks_tick (Nat.zero_lt_of_lt hk) n s.clk)⟩

/-- Settles O25: reset puts the clock at 0, from where the closed form is a quotient and a remainder. -/
theorem ticksFromResetHaveTheClosedForm : Obligations.TicksFromResetHaveTheClosedForm := by
  intro c d p k hc
  obtain ⟨-, -, -, -, hinc, hden, -⟩ := (Config.legal_iff c).mp hc
  obtain ⟨t, ht, hclk⟩ := State.execAll_ticks k (s := State.resetWith c d p) hinc hden
  have hzero : t.clk =
      { ms := trunc32 (k * c.fracInc / c.fracDen)
        frac := k * c.fracInc % c.fracDen
        ovf := if c.hasFine then trunc32 k else 0 } := by
    simpa [Clock.afterTicks, State.resetWith] using hclk
  refine ⟨t, k * c.fracInc / c.fracDen, ht, by rw [hzero]; rfl, rfl, by rw [hzero], fun hf => ?_, Nat.div_mul_le_self _ _,
    (Nat.div_lt_iff_lt_mul hden).mp (Nat.lt_succ_self _)⟩
  rw [hzero, if_pos hf]; rfl

/-! ## MILLIS (41_clock.md R84, R85) -/

/-- Settles O27: MILLIS reads the register and delivers the response, and that is all. -/
theorem millisAnswersTheWholeCounter : Obligations.MillisAnswersTheWholeCounter :=
  fun _ => ⟨decode_encode (i := .millis) rfl, rfl⟩

/-- Over a run of commands the millisecond counter moves by the advances, as a ring value. -/
theorem State.execAll_ms {is : List Instr} {s t : State} (h : State.execAll is s = .next t) :
    t.clk.ms = s.clk.ms + trunc32 (Clock.advances s.cfg is s.clk) := by
  induction is generalizing s with
  | nil => cases h; exact (BitVec.add_zero _).symm
  | cons i is ih =>
    obtain ⟨u, hu, h⟩ := State.execAll_cons_next h
    rw [ih h, (exec_frame hu).cfg, Clock.advances]
    split_ifs with hi
    · subst hi
      cases hu
      rw [State.respond_clk, State.setClock_clk, Clock.tick_ms, trunc32_add, BitVec.add_assoc]
    · rw [exec_clk hu hi]

/-- Settles O28: the difference of the two answers is what the run adds to the counter. -/
theorem wrapSafeDifferenceCountsTheAdvances : Obligations.WrapSafeDifferenceCountsTheAdvances := by
  intro s t is h
  have hd : (wsub32 t.clk.ms s.clk.ms).toNat = Clock.advances s.cfg is s.clk % 2 ^ 32 := by
    rw [wsub32, State.execAll_ms h, add_sub_cancel_left, trunc32_toNat]
  exact ⟨s.clk.ms, t.clk.ms, rfl, rfl, hd, fun hlt => hd.trans (Nat.mod_eq_of_lt hlt)⟩

/-! ## MICROS (41_clock.md R86 to R89, R93) -/

theorem decode_micros_absent {c : Config} (h : c.hasFine = false) : decode c (encode .micros) = .error .noFineTime := by
  simp [encode, decode_clockWord, decodeClock, h]

theorem exec_micros_absent {s : State} (h : s.cfg.hasFine = false) : exec .micros s = .next s.refuseCommand := by
  simp [exec, execMicros, State.onFineTime, h]

theorem exec_micros_phaseA {s : State} (hf : s.cfg.hasFine = true) (hl : s.latch = none) :
    exec .micros s = .next s.finePhaseA := by
  simp [exec, execMicros, State.onFineTime, hf, State.clockNow_fine hl]

theorem exec_micros_phaseB {s : State} {o : Word} (hf : s.cfg.hasFine = true) (hl : s.latch = some o) :
    exec .micros s = .next (s.finePhaseB.respond (s.fineReading o)) := by
  simp [exec, execMicros, State.onFineTime, hf, State.clockNow_carried _ hl]

/-- Settles O29: phase A reads `CLK.ovf` and delivers nothing; where there is no fine time the word is reserved. -/
theorem microsPhaseALatchesTheOverflowCount : Obligations.MicrosPhaseALatchesTheOverflowCount :=
  fun _ hl => ⟨fun hf => ⟨decode_encode (i := .micros) hf, exec_micros_phaseA hf hl⟩,
    fun hf => ⟨decode_micros_absent hf, exec_micros_absent hf⟩⟩

/-- Settles O30: the sample is in range, and phase B draws it and drops the carried count. -/
theorem microsPhaseBAnswersTheFineTime : Obligations.MicrosPhaseBAnswersTheFineTime := by
  intro s o hf _ hcnt hl
  obtain ⟨k, hk⟩ := s.finePhaseB_eq
  refine ⟨s.counterSample, k, State.counterSample_lt hcnt, State.counterSample_coupled, ?_⟩
  rw [exec_micros_phaseB hf hl, hk]
  rfl

/-- Fine time of an overflow count that is kept modulo 2^32 only. -/
theorem fineTime_trunc32 (c : Config) (q r : Nat) : fineTime c (trunc32 q) r = trunc32 ((q * c.period + r) * c.scale) := by
  rw [fineTime_eq]
  simp [trunc32, BitVec.ofNat_add, BitVec.ofNat_mul]

/-- Phase B under the coupled treatment, the overflow count being `q` modulo 2^32 (R87 (b)). -/
theorem exec_micros_coupled {s : State} {q : Nat} (hf : s.cfg.hasFine = true) (ht : s.cfg.timer = .coupled)
    (hl : s.latch = some (trunc32 q)) :
    ∃ t, exec .micros s = .next t ∧
      t.resp = some { status := .ok, word := trunc32 ((q * s.cfg.period + s.tmrCnt) * s.cfg.scale) } := by
  refine ⟨_, exec_micros_phaseB hf hl, ?_⟩
  rw [State.respond_resp, State.fineReading, State.counterSample_coupled ht, fineTime_trunc32]

/-- Settles O31: one overflow more would complete `T` from the count and the counter. -/
theorem microsRaceIsShortByOneOverflowPeriod : Obligations.MicrosRaceIsShortByOneOverflowPeriod := by
  intro s T hf hper ht hT hcnt hl
  obtain ⟨t, he, hr⟩ := exec_micros_coupled hf ht hl
  have hwhole : (T / s.cfg.period - 1) * s.cfg.period + s.tmrCnt + s.cfg.period = T := by
    rw [hcnt, Nat.add_right_comm, ← Nat.succ_mul, Nat.succ_eq_add_one, Nat.sub_add_cancel (Nat.div_pos hT hper),
      Nat.div_add_mod']
  refine ⟨t, _, he, hr, ?_⟩
  rw [← trunc32, ← trunc32_add, ← Nat.add_mul, hwhole]
  rfl

/-- Settles O32: the count and the counter make up `T`, and a ring difference below 2^32 is the difference. -/
theorem fineTimeIsARing : Obligations.FineTimeIsARing := by
  refine ⟨fun s T hf _ ht hcnt hl => ?_, fun T T' scale hle hlt => ?_⟩
  · obtain ⟨t, he, hr⟩ := exec_micros_coupled hf ht hl
    rw [hcnt, Nat.div_add_mod'] at hr
    exact ⟨t, he, hr⟩
  · have hsum : T' * scale = T * scale + (T' - T) * scale := by rw [← Nat.add_mul, Nat.add_sub_cancel' hle]
    rw [wsub32, hsum, BitVec.ofNat_add, add_sub_cancel_left, BitVec.toNat_ofNat, Nat.mod_eq_of_lt hlt]

/-! ## The loops of DELAY and DELAY_FINE (41_clock.md R90, R91) -/

/-- The line is one of DELAY or DELAY_FINE, and issues `i`. -/
inductive Line.Waits : Instr → Line → Prop where
  | delay (d) : Line.Waits .millis (.delay d)
  | delayPoll (target) : Line.Waits .millis (.delayPoll target)
  | delayFine (d) : Line.Waits .micros (.delayFine d)
  | delayFinePoll (target) : Line.Waits .micros (.delayFinePoll target)

theorem Line.Waits.word {i : Instr} {l : Line} (h : Line.Waits i l) (t : Thread) : l.word t = some (encode i) := by
  cases h <;> rfl

theorem Line.Waits.keep {i : Instr} {l : Line} (h : Line.Waits i l) (r : Response) (saved : List Bool) :
    l.keep r saved = saved := by
  cases h <;> rfl

theorem Line.Waits.output {i : Instr} {l : Line} (h : Line.Waits i l) (r : Response) : l.output r = [] := by
  cases h <;> rfl

/-- A pseudo-operation whose command is refused is given up (assumption log 17). -/
theorem Line.Waits.rest_illegal {i : Instr} {l : Line} (h : Line.Waits i l) (tol : Nat) (v : Word) :
    l.rest tol { status := .illegal, word := v } = [] := by
  cases h <;> rfl

/-- After an answered poll of DELAY the loop stands unless the answer is the target. -/
theorem Line.rest_delayPoll (tol : Nat) (now target : Word) (rest : List Line) :
    Line.rest tol { status := .ok, word := now } (.delayPoll target) ++ rest =
      if now = target then rest else .delayPoll target :: rest := by
  by_cases h : now = target <;> simp [Line.rest, h]

theorem withinWindow_iff (tol : Nat) (now target : Word) :
    withinWindow tol now target = true ↔ (now - target).toNat ≤ tol ∨ (target - now).toNat ≤ tol := by
  rw [withinWindow, Bool.or_eq_true, decide_eq_true_eq, decide_eq_true_eq]
  rfl

/-- After an answered poll of DELAY_FINE the loop stands unless the answer is in the window. -/
theorem Line.rest_delayFinePoll (tol : Nat) (now target : Word) (rest : List Line) :
    Line.rest tol { status := .ok, word := now } (.delayFinePoll target) ++ rest =
      if (now - target).toNat ≤ tol ∨ (target - now).toNat ≤ tol then rest else .delayFinePoll target :: rest := by
  simp only [← withinWindow_iff]
  cases h : withinWindow tol now target <;> simp [Line.rest, h]

theorem State.thread_of_not_inHandler {s : State} (h : s.ctx.inHandler = false) : s.thread = s.normal := by
  simp [State.thread, h]

theorem State.setThread_of_not_inHandler {s : State} (h : s.ctx.inHandler = false) (t : Thread) :
    s.setThread t = { s with normal := t } := by
  simp [State.setThread, h]

/-- The normal context goes on past a line of DELAY or DELAY_FINE: only its program changes. -/
theorem Line.Waits.goOn {i : Instr} {l : Line} (hw : Line.Waits i l) {s : State} (hh : s.ctx.inHandler = false)
    (rest : List Line) (r : Response) :
    s.goOn l rest r = { s with normal := { s.normal with todo := l.rest s.cfg.delayFineTol r ++ rest } } := by
  rw [State.goOn, State.setThread_of_not_inHandler hh, State.thread_of_not_inHandler hh, hw.keep, hw.output,
    List.append_nil]

/-- The normal context goes on after a line of DELAY or DELAY_FINE whose command has answered. -/
theorem Line.Waits.afterCommand_respond {i : Instr} {l : Line} (hw : Line.Waits i l) {t : State}
    (hh : t.ctx.inHandler = false) (rest : List Line) (v : Word) :
    Result.afterCommand l rest (.next (t.respond v)) = .next { t with
      normal := { t.normal with todo := l.rest t.cfg.delayFineTol { status := .ok, word := v } ++ rest }
      resp := some { status := .ok, word := v } } :=
  congrArg _ (hw.goOn (s := t.respond v) hh rest _)

section
variable {s : State} {ms : List Move} {l : Line} {rest : List Line} (hl : s.cfg.legal = true)
  (hs : s.sched = .context :: ms ∨ s.sched = [] ∧ ms = []) (hh : s.ctx.inHandler = false) (ht : s.normal.todo = l :: rest)
include hl hs hh ht

/-- A line of DELAY or DELAY_FINE in the normal context is a step of its command, where the configuration has that. -/
theorem Line.Waits.step_eq {i : Instr} (hw : Line.Waits i l) (hi : i.wf s.cfg = true) :
    step s = Result.afterCommand l rest (exec i (s.beginStep ms)) :=
  step_issue hl hs (State.thread_of_not_inHandler hh ▸ ht) (hw.word _) (decode_encode hi)

/-- A line of DELAY in the normal context: MILLIS answers, and the loop goes on with the answer. -/
theorem step_delay (hw : Line.Waits .millis l) :
    step s = .next { s with
      normal := { s.normal with todo := l.rest s.cfg.delayFineTol { status := .ok, word := s.clk.ms } ++ rest }
      sched := ms, resp := some { status := .ok, word := s.clk.ms } } := by
  rw [hw.step_eq hl hs hh ht rfl]
  exact hw.afterCommand_respond (t := s.beginStep ms) hh rest s.clk.ms

/-- A line of DELAY_FINE, phase A: the line stays at the port. -/
theorem step_delayFine_phaseA (hw : Line.Waits .micros l) (hf : s.cfg.hasFine = true) (hlatch : s.normal.latch = none) :
    step s = .next { s with normal := { s.normal with latch := some s.clk.ovf }, sched := ms, resp := none } := by
  have hh' : (s.beginStep ms).ctx.inHandler = false := hh
  have hcarried : (s.beginStep ms).latch = none := by rw [State.latch, State.thread_of_not_inHandler hh']; exact hlatch
  rw [hw.step_eq hl hs hh ht hf, exec_micros_phaseA (s := s.beginStep ms) hf hcarried, State.finePhaseA, State.setLatch,
    State.setThread_of_not_inHandler hh', State.thread_of_not_inHandler hh']
  rfl

/-- A line of DELAY_FINE, phase B: MICROS answers, and the loop goes on with the answer. -/
theorem step_delayFine_phaseB (hw : Line.Waits .micros l) (hf : s.cfg.hasFine = true) {o : Word}
    (hlatch : s.normal.latch = some o) :
    ∃ k, step s = .next { s with
      normal := { s.normal with
        todo := l.rest s.cfg.delayFineTol { status := .ok, word := s.fineReading o } ++ rest, latch := none }
      sched := ms, resp := some { status := .ok, word := s.fineReading o }, draws := k } := by
  have hh' : (s.beginStep ms).ctx.inHandler = false := hh
  have hcarried : (s.beginStep ms).latch = some o := by rw [State.latch, State.thread_of_not_inHandler hh']; exact hlatch
  obtain ⟨k, hk⟩ := (s.beginStep ms).finePhaseB_eq
  refine ⟨k, ?_⟩
  rw [hw.step_eq hl hs hh ht hf, exec_micros_phaseB (s := s.beginStep ms) hf hcarried, hk,
    State.setThread_of_not_inHandler hh', State.thread_of_not_inHandler hh']
  exact hw.afterCommand_respond (t := { s with normal := { s.normal with latch := none }, sched := ms, draws := k }) hh rest _

/-- A line of DELAY_FINE where there is no fine time is refused and given up. -/
theorem step_delayFine_absent (hw : Line.Waits .micros l) (hf : s.cfg.hasFine = false) :
    step s = .next { s with
      normal := { s.normal with todo := rest }, sched := ms, resp := some { status := .illegal, word := 0 } } := by
  have hh' : (s.beginStep ms).refuseCommand.ctx.inHandler = false := hh
  rw [step_refuse hl hs (State.thread_of_not_inHandler hh ▸ ht) (hw.word _) (decode_micros_absent hf), hw.goOn hh',
    hw.rest_illegal]
  rfl

end

/-- Settles O57: the line after a MILLIS is the loop with its target, or nothing where the target is answered. -/
theorem delayLoopEndsExactlyOnEquality : Obligations.DelayLoopEndsExactlyOnEquality := by
  intro s d target rest ms hl hs hh
  refine ⟨fun ht => step_delay hl hs hh ht (.delay d), fun ht => ?_⟩
  rw [step_delay hl hs hh ht (.delayPoll target), Line.rest_delayPoll]

/-- Settles O58: the two phases of MICROS, and what the loop makes of the answer; the refusal without fine time is
assumption log 17. -/
theorem delayFineLoopEndsWithinTheWindow : Obligations.DelayFineLoopEndsWithinTheWindow := by
  intro s l d target rest ms hl hs hh hline ht
  have hw : Line.Waits .micros l := by
    rcases hline with rfl | rfl
    · exact .delayFine d
    · exact .delayFinePoll target
  refine ⟨step_delayFine_phaseA hl hs hh ht hw, fun o hf hcnt hlatch => ?_, step_delayFine_absent hl hs hh ht hw⟩
  obtain ⟨k, hstep⟩ := step_delayFine_phaseB hl hs hh ht hw hf hlatch
  refine ⟨s.counterSample, k, s.fineReading o, _, State.counterSample_lt hcnt, State.counterSample_coupled, rfl, hstep,
    ?_, ?_⟩
  · rintro rfl; rfl
  · rintro rfl; exact Line.rest_delayFinePoll ..

end Sys2Proof.Machine
end

section
/-! PROOFS. The family 42_stopwatch.md: the six operations one by one (O34 to O41), the wrap detection (O42), and what a run
of commands does to a running stopwatch (O43). For O43 the machine is left behind early: one lemma says that the run is a
course of one clock and one stopwatch beside it, and the time kept is an induction over the course. -/

namespace Sys2Proof

/-! ## Resolutions that exist (42_stopwatch.md R98) -/

theorem Resolution.wf_iff (c : Config) (r : Resolution) : r.wf c = true ↔ (r = .fine → c.hasFine = true) := by
  cases r <;> simp [Resolution.wf]

/-- SW_INIT with `rr = 3` is reserved. -/
theorem decode_swInit_badResolution (c : Config) (j : BitVec 2) (i : Instr) :
    decode c (packWord 2 j.toNat 0 3) ≠ .ok i := by
  rw [decode_stopwatchWord c j (by decide) (by decide), decodeStopwatch]
  split_ifs
  · exact nofun
  · exact nofun

/-! ## What the accumulator counts (10_state.md R20) -/

/-- How many units of the clock reading a unit of the accumulator stands for: a second is 1000 ms. -/
def Resolution.unit : Resolution → Word
  | .second => 1000
  | .milli => 1
  | .fine => 1

theorem Resolution.unit_eq_one {r : Resolution} (h : r ≠ .second) : r.unit = 1 := by
  cases r with
  | second => exact absurd rfl h
  | fine | milli => rfl

end Sys2Proof

namespace Sys2Proof.Machine

/-! ## Stopwatch operations by the clock reading they get (42_stopwatch.md R97) -/

theorem State.sampleInto_now {s t : State} {r : Resolution} {v : Word} (h : s.clockNow r = .now v t) (j : BitVec 2)
    (upd : Word → Stopwatch) : s.sampleInto j r upd = .next ((t.setStopwatch j (upd v)).respond 0) := by
  rw [State.sampleInto, h]

theorem State.sampleInto_carries {s t : State} {r : Resolution} (h : s.clockNow r = .carries t) (j : BitVec 2)
    (upd : Word → Stopwatch) : s.sampleInto j r upd = .next t := by
  rw [State.sampleInto, h]

section
variable {s : State} {j : BitVec 2} {w : Stopwatch} (hw : s.sws[j.toNat]? = some w)
include hw

theorem State.pollStopwatch_now {t : State} {v : Word} (hrun : w.running = true) (h : s.clockNow w.res = .now v t)
    (ans : Stopwatch → Word) :
    s.pollStopwatch j ans = .next ((t.setStopwatch j (w.commit v)).respond (ans (w.commit v))) := by
  simp [State.pollStopwatch, State.onStopwatch_eq hw, hrun, h]

theorem State.pollStopwatch_carries {t : State} (hrun : w.running = true) (h : s.clockNow w.res = .carries t)
    (ans : Stopwatch → Word) : s.pollStopwatch j ans = .next t := by
  simp [State.pollStopwatch, State.onStopwatch_eq hw, hrun, h]

/-- A stopped stopwatch is answered from as it stands (R101 (a)). -/
theorem State.pollStopwatch_stopped (hrun : w.running = false) (hl : s.latch = none) (ans : Stopwatch → Word) :
    s.pollStopwatch j ans = .next (s.respond (ans w)) := by
  simp [State.pollStopwatch, State.onStopwatch_eq hw, hrun, hl]

theorem execSwInit_eq (r : Resolution) : execSwInit j r s =
    if r.wf s.cfg then .next ((s.setStopwatch j { w with res := r, acc := 0, running := false }).respond 0)
    else .next s.refuseCommand :=
  State.onStopwatch_eq hw _

theorem execSwStart_eq :
    execSwStart j s = s.sampleInto j w.res fun v => { w with running := true, last := v } :=
  State.onStopwatch_eq hw _

theorem execSwReset_eq : execSwReset j s = s.sampleInto j w.res fun v => { w with acc := 0, last := v } :=
  State.onStopwatch_eq hw _

end

/-- A stopwatch operation that ends with a phase B writes its stopwatch and answers; of the rest it changes what is carried
and the count of free values only. -/
theorem State.finePhaseB_setStopwatch_respond (s : State) (j : BitVec 2) :
    ∃ k, ∀ (w : Stopwatch) (v : Word), (s.finePhaseB.setStopwatch j w).respond v =
      { s.setThread { s.thread with latch := none } with
        sws := s.sws.set j.toNat w, resp := some { status := .ok, word := v }, draws := k } := by
  obtain ⟨k, hk⟩ := s.finePhaseB_eq
  exact ⟨k, fun w v => by rw [hk]; rfl⟩

/-! ## The operations that do not poll (42_stopwatch.md R98, R99, R100, R103) -/

/-- Settles O34: SW_INIT tests the resolution it is given; `rr = 3` is reserved by the decoder. -/
theorem swInitSetsResolutionAndClears : Obligations.SwInitSetsResolutionAndClears := by
  intro s j r w hw
  refine ⟨fun hr => ?_, fun hr hf => ?_, decode_swInit_badResolution s.cfg j⟩
  · exact (execSwInit_eq hw r).trans (if_pos ((r.wf_iff s.cfg).mpr hr))
  · subst hr
    exact (execSwInit_eq hw .fine).trans (if_neg (by simp [Resolution.wf, hf]))

/-- Settles O35: without fine time the reading is `CLK.ms`, in the same step. -/
theorem swStartAndSwResetSampleTheMilliseconds : Obligations.SwStartAndSwResetSampleTheMilliseconds := by
  intro s j w hw hres hl
  have hnow := State.clockNow_millis hres hl
  exact ⟨(execSwStart_eq hw).trans (State.sampleInto_now hnow j _),
    (execSwReset_eq hw).trans (State.sampleInto_now hnow j _)⟩

/-- Settles O36: on a `FINE` stopwatch the reading is that of MICROS (41_clock.md R86), its sample in range. -/
theorem fineSwStartAndSwResetHaveTwoPhases : Obligations.FineSwStartAndSwResetHaveTwoPhases := by
  intro s j w hw hres
  refine ⟨fun hl => ?_, fun o hl _ hcnt => ?_⟩
  · have hnow : s.clockNow w.res = .carries s.finePhaseA := hres ▸ State.clockNow_fine hl
    exact ⟨(execSwStart_eq hw).trans (State.sampleInto_carries hnow j _),
      (execSwReset_eq hw).trans (State.sampleInto_carries hnow j _)⟩
  · have hnow := State.clockNow_carried w.res hl
    obtain ⟨k, hk⟩ := s.finePhaseB_setStopwatch_respond j
    refine ⟨s.counterSample, k, s.fineReading o, State.counterSample_lt hcnt, State.counterSample_coupled, rfl, ?_, ?_⟩
    · rw [← hk]
      exact (execSwStart_eq hw).trans (State.sampleInto_now hnow j _)
    · rw [← hk]
      exact (execSwReset_eq hw).trans (State.sampleInto_now hnow j _)

/-- Settles O37: SW_STOP reads no clock. -/
theorem swStopClearsOnlyTheRunningFlag : Obligations.SwStopClearsOnlyTheRunningFlag :=
  fun _ _ _ hw => State.onStopwatch_eq hw _

/-! ## The operations that poll (42_stopwatch.md R101, R102) -/

/-- Settles O38: the test of `S.running` comes before the reading of the clock. -/
theorem stoppedStopwatchIsFrozen : Obligations.StoppedStopwatchIsFrozen :=
  fun _ _ _ hw hrun hl => ⟨State.pollStopwatch_stopped hw hrun hl _, State.pollStopwatch_stopped hw hrun hl _⟩

/-- A poll of a running stopwatch that counts milliseconds is one step. -/
theorem State.pollStopwatch_millis {s : State} {j : BitVec 2} {w : Stopwatch} (hw : s.sws[j.toNat]? = some w)
    (hrun : w.running = true) (hres : w.res ≠ .fine) (hl : s.latch = none) (ans : Stopwatch → Word) :
    s.pollStopwatch j ans =
      .next ((s.setStopwatch j (w.commit s.clk.ms)).respond (ans (w.commit s.clk.ms))) :=
  State.pollStopwatch_now hw hrun (State.clockNow_millis hres hl) ans

theorem Stopwatch.commit_unit_acc {w : Stopwatch} (v : Word) (h : w.res ≠ .second) :
    (w.commit v).acc = w.acc + (v - w.last) := by rw [Stopwatch.commit_unit v h]

/-- Settles O39: a `MILLI` commit is a ring addition (R104). -/
theorem milliPollCommitsTheWrapSafeDelta : Obligations.MilliPollCommitsTheWrapSafeDelta := by
  intro s j w hw hrun hres hl
  have hfine : w.res ≠ .fine := by simp [hres]
  have hsecond : w.res ≠ .second := by simp [hres]
  rw [← Stopwatch.commit_unit _ hsecond, ← Stopwatch.commit_unit_acc _ hsecond]
  exact ⟨State.pollStopwatch_millis hw hrun hfine hl _, State.pollStopwatch_millis hw hrun hfine hl _⟩

/-- What a commit leaves unpolled (R101): nothing, or for `SECOND` the remainder. -/
theorem Stopwatch.commit_unpolled (now : Word) {w : Stopwatch} (h : w.res ≠ .fine) :
    (now - (w.commit now).last).toNat = Resolution.carried w.res (now - w.last).toNat := by
  cases hr : w.res with
  | fine => exact absurd hr h
  | milli => simp [Stopwatch.commit_unit now (show w.res ≠ .second by simp [hr]), Resolution.carried]
  | second =>
    rw [Stopwatch.commit_second now hr]
    dsimp only [Resolution.carried]
    rw [← sub_sub]
    generalize now - w.last = d
    have hd := d.isLt
    rw [BitVec.toNat_sub, trunc32_toNat]
    omega

/-- Settles O40: what a `SECOND` commit leaves is the remainder of the division by 1000. -/
theorem secondPollCommitsWholeSecondsAndCarriesTheRest :
    Obligations.SecondPollCommitsWholeSecondsAndCarriesTheRest := by
  intro s j w hw hrun hres hl
  have hfine : w.res ≠ .fine := by simp [hres]
  have hcommit := Stopwatch.commit_second s.clk.ms hres
  refine ⟨w.commit s.clk.ms, congrArg Stopwatch.acc hcommit, congrArg Stopwatch.last hcommit, (w.commit_res _).trans hres,
    (w.commit_running _).trans hrun, ?_, State.pollStopwatch_millis hw hrun hfine hl _,
    State.pollStopwatch_millis hw hrun hfine hl _⟩
  rw [Stopwatch.commit_unpolled _ hfine, hres]
  rfl

/-- Settles O41: on a `FINE` stopwatch the reading is that of MICROS, and a `FINE` commit is a ring addition. -/
theorem finePollHasTwoPhases : Obligations.FinePollHasTwoPhases := by
  intro s j w hw hrun hres
  refine ⟨fun hl => ?_, fun o hl _ hcnt => ?_⟩
  · have hnow : s.clockNow w.res = .carries s.finePhaseA := hres ▸ State.clockNow_fine hl
    exact ⟨State.pollStopwatch_carries hw hrun hnow _, State.pollStopwatch_carries hw hrun hnow _⟩
  · have hnow := State.clockNow_carried w.res hl
    obtain ⟨k, hk⟩ := s.finePhaseB_setStopwatch_respond j
    refine ⟨s.counterSample, k, s.fineReading o, State.counterSample_lt hcnt, State.counterSample_coupled, rfl, ?_⟩
    have hsecond : w.res ≠ .second := by simp [hres]
    rw [← hk, ← hk, ← Stopwatch.commit_unit _ hsecond, ← Stopwatch.commit_unit_acc _ hsecond]
    exact ⟨State.pollStopwatch_now hw hrun hnow _, State.pollStopwatch_now hw hrun hnow _⟩

/-! ## The wrap detection (42_stopwatch.md R104) -/

/-- Settles O42: R9's subtraction modulo 2^32; in 32 bits `MAX` is -1. -/
theorem wrapDetectionIsWrapSafeSubtraction : Obligations.WrapDetectionIsWrapSafeSubtraction := by
  intro last now
  refine ⟨wrapDelta_eq last now, ?_, fun _ => ?_⟩
  · have hlast := last.isLt
    have hnow := now.isLt
    unfold wrapDelta imod
    split_ifs <;> omega
  · rw [wsub32, show (0xFFFFFFFF : Word) = -1 from rfl]
    ring

/-! ## A stopwatch beside the clock (42_stopwatch.md R106, R107) -/

/-- What a run of commands does to the clock and to STOPWATCH `j`, which runs and is not set up anew: a TICK moves the clock,
a poll commits, and no other command touches either. `d` is the sum of the deltas committed. -/
inductive Stopwatch.Course (c : Config) (j : BitVec 2) :
    List Instr → Clock → Stopwatch → Nat → Clock → Stopwatch → Prop where
  | done (k w) : Course c j [] k w 0 k w
  | ticks {is k w d k' w'} : Course c j is (k.tick c) w d k' w' → Course c j (.tick :: is) k w d k' w'
  | polls {i is k w d k' w'} : Instr.Polls j i → Course c j is k (w.commit k.ms) d k' w' →
      Course c j (i :: is) k w (wrapDelta w.last k.ms + d) k' w'
  | passes {i is k w d k' w'} : i ≠ .tick → ¬ Instr.Polls j i → Course c j is k w d k' w' →
      Course c j (i :: is) k w d k' w'

/-! ### A run of completed commands is a course -/

theorem Instr.Polls.ne_tick {j : BitVec 2} {i : Instr} (h : Instr.Polls j i) : i ≠ .tick := by
  rcases h with rfl | rfl <;> simp

/-- What each phase of a command leaves alone, the completed command leaves alone. -/
theorem State.complete_preserves {α : Type} {i : Instr} (f : State → α) (hA : ∀ s : State, f s.finePhaseA = f s)
    (hexec : ∀ s t : State, exec i s = .next t → f t = f s) {s t : State} (h : s.complete i = .next t) : f t = f s := by
  rcases State.complete_cases h with ⟨h, -⟩ | ⟨-, -, h, -⟩
  · exact hexec s t h
  · exact (hexec _ t h).trans (hA s)

theorem State.complete_cfg {i : Instr} {s t : State} (h : s.complete i = .next t) : t.cfg = s.cfg :=
  State.complete_preserves State.cfg (fun _ => rfl) (fun _ _ he => (exec_frame he).cfg) h

theorem State.complete_clk {i : Instr} {s t : State} (h : s.complete i = .next t) (hi : i ≠ .tick) : t.clk = s.clk :=
  State.complete_preserves State.clk (fun _ => rfl) (fun _ _ he => exec_clk he hi) h

/-- A command that neither polls STOPWATCH `j` nor sets it up leaves it alone. -/
theorem exec_stopwatch_eq {i : Instr} {j : BitVec 2} {s t : State} (h : exec i s = .next t) (hp : ¬ Instr.Polls j i)
    (hset : ¬ Instr.SetsUp j i) : t.sws[j.toNat]? = s.sws[j.toNat]? := by
  rcases exec_sws h with e | ⟨k, w, w', -, hu, e⟩ <;> rw [e]
  refine List.getElem?_set_ne fun hk => ?_
  obtain rfl : k = j := BitVec.eq_of_toNat_eq hk
  cases hu with
  | polls | elapses => simp [Instr.Polls] at hp
  | _ => simp [Instr.SetsUp] at hset

theorem State.complete_stopwatch {i : Instr} {j : BitVec 2} {s t : State} (h : s.complete i = .next t)
    (hp : ¬ Instr.Polls j i) (hset : ¬ Instr.SetsUp j i) : t.sws[j.toNat]? = s.sws[j.toNat]? :=
  State.complete_preserves (fun s => s.sws[j.toNat]?) (fun _ => rfl) (fun _ _ he => exec_stopwatch_eq he hp hset) h

/-- A poll of a running stopwatch that counts milliseconds commits and answers at once. -/
theorem State.complete_poll {i : Instr} {j : BitVec 2} {s t : State} {w : Stopwatch} (h : s.complete i = .next t)
    (hp : Instr.Polls j i) (hw : s.sws[j.toNat]? = some w) (hrun : w.running = true) (hres : w.res ≠ .fine)
    (hl : s.latch = none) : t.sws[j.toNat]? = some (w.commit s.clk.ms) := by
  obtain ⟨v, hv⟩ : ∃ v, exec i s = .next ((s.setStopwatch j (w.commit s.clk.ms)).respond v) := by
    rcases hp with rfl | rfl
    · exact ⟨_, State.pollStopwatch_millis hw hrun hres hl _⟩
    · exact ⟨_, State.pollStopwatch_millis hw hrun hres hl _⟩
  rw [State.complete, hv] at h
  cases h
  simp [List.getElem?_set_self', hw]

/-- A poll commits R101's delta. -/
theorem State.pollDelta_poll {i : Instr} {j : BitVec 2} {s : State} {w : Stopwatch} (hp : Instr.Polls j i)
    (hw : s.sws[j.toNat]? = some w) : s.pollDelta j i = wrapDelta w.last s.clk.ms := by
  rcases hp with rfl | rfl <;> simp [State.pollDelta, hw]

/-- Any other command commits nothing. -/
theorem State.pollDelta_other {i : Instr} {j : BitVec 2} (s : State) (hp : ¬ Instr.Polls j i) : s.pollDelta j i = 0 := by
  unfold State.pollDelta
  split
  · exact if_neg fun h => hp (.inl (congrArg Instr.swPoll h))
  · exact if_neg fun h => hp (.inr (congrArg Instr.swElapsed h))
  · rfl

theorem State.pollDeltas_cons {i : Instr} {s t : State} (j : BitVec 2) (is : List Instr) (h : s.complete i = .next t) :
    State.pollDeltas j (i :: is) s = s.pollDelta j i + State.pollDeltas j is t := by
  rw [State.pollDeltas, h]

/-- A run of completed commands that do not set STOPWATCH `j` up anew is a course of the clock and of `j`. -/
theorem State.completeAll_course {j : BitVec 2} {is : List Instr} {s t : State} {w : Stopwatch}
    (hw : s.sws[j.toNat]? = some w) (hrun : w.running = true) (hres : w.res ≠ .fine) (hl : s.latch = none)
    (hset : ∀ i ∈ is, ¬ Instr.SetsUp j i) (h : State.completeAll is s = .next t) :
    ∃ w', t.sws[j.toNat]? = some w' ∧
      Stopwatch.Course s.cfg j is s.clk w (State.pollDeltas j is s) t.clk w' := by
  induction is generalizing s w with
  | nil => cases h; exact ⟨w, hw, .done _ _⟩
  | cons i is ih =>
    obtain ⟨u, hu, h⟩ := State.completeAll_cons_next h
    obtain ⟨hi, his⟩ := List.forall_mem_cons.mp hset
    have hlu := State.complete_latch hl hu
    rw [State.pollDeltas_cons j is hu]
    by_cases hp : Instr.Polls j i
    · obtain ⟨w', hw', hc⟩ := ih (State.complete_poll hu hp hw hrun hres hl) ((w.commit_running _).trans hrun)
        ((w.commit_res _).symm ▸ hres) hlu his h
      rw [State.complete_cfg hu, State.complete_clk hu hp.ne_tick] at hc
      exact ⟨w', hw', State.pollDelta_poll hp hw ▸ .polls hp hc⟩
    · obtain ⟨w', hw', hc⟩ := ih ((State.complete_stopwatch hu hp hi).trans hw) hrun hres hlu his h
      refine ⟨w', hw', ?_⟩
      rw [State.pollDelta_other s hp, Nat.zero_add]
      rw [State.complete_cfg hu] at hc
      by_cases htick : i = .tick
      · subst htick
        cases hu
        exact .ticks hc
      · rw [State.complete_clk hu htick] at hc
        exact .passes htick hp hc

/-! ### The advances and the polls in time, command by command -/

@[simp] theorem Clock.advances_tick (c : Config) (is : List Instr) (k : Clock) :
    Clock.advances c (.tick :: is) k = k.crossing c + Clock.advances c is (k.tick c) := rfl

theorem Clock.advances_other (c : Config) {i : Instr} (is : List Instr) (k : Clock) (h : i ≠ .tick) :
    Clock.advances c (i :: is) k = Clock.advances c is k := if_neg h

theorem Clock.polledInTime_tick (c : Config) (j : BitVec 2) (r : Resolution) (is : List Instr) (k : Clock) (u : Nat) :
    Clock.PolledInTime c j r (.tick :: is) k u ↔ Clock.PolledInTime c j r is (k.tick c) (u + k.crossing c) := Iff.rfl

theorem Clock.polledInTime_poll (c : Config) {j : BitVec 2} (r : Resolution) {i : Instr} (is : List Instr) (k : Clock)
    (u : Nat) (h : Instr.Polls j i) :
    Clock.PolledInTime c j r (i :: is) k u ↔ u < 2 ^ 32 ∧ Clock.PolledInTime c j r is k (Resolution.carried r u) := by
  rw [Clock.PolledInTime, if_neg h.ne_tick, if_pos h]

theorem Clock.polledInTime_other (c : Config) {j : BitVec 2} (r : Resolution) {i : Instr} (is : List Instr) (k : Clock)
    (u : Nat) (ht : i ≠ .tick) (hp : ¬ Instr.Polls j i) :
    Clock.PolledInTime c j r (i :: is) k u ↔ Clock.PolledInTime c j r is k u := by
  rw [Clock.PolledInTime, if_neg ht, if_neg hp]

/-! ### The time a stopwatch keeps -/

/-- Accumulated and unpolled time together, in units of the clock reading, modulo 2^32. -/
def Stopwatch.time (now : Word) (w : Stopwatch) : Word := w.acc * w.res.unit + (now - w.last)

/-- A commit moves time from unpolled to accumulated, and loses none. -/
theorem Stopwatch.time_commit (now : Word) (w : Stopwatch) : (w.commit now).time now = w.time now := by
  unfold Stopwatch.time
  rw [Stopwatch.commit_res]
  by_cases hr : w.res = .second
  · have hmul (q : Nat) : trunc32 (q * 1000) = trunc32 q * 1000 := BitVec.ofNat_mul q 1000
    rw [Stopwatch.commit_second now hr, hr, Resolution.unit, hmul]
    ring
  · rw [Stopwatch.commit_unit now hr, Resolution.unit_eq_one hr]
    ring

theorem Stopwatch.time_tick (c : Config) (k : Clock) (w : Stopwatch) :
    w.time (k.tick c).ms = w.time k.ms + trunc32 (k.crossing c) := by
  rw [Stopwatch.time, Stopwatch.time, Clock.tick_ms]
  ring

/-- Until the wrap period is reached a TICK adds its crossing to the unpolled time. -/
theorem Clock.tick_unpolled {c : Config} {k : Clock} {last : Word}
    (h : (k.ms - last).toNat + k.crossing c < 2 ^ 32) :
    ((k.tick c).ms - last).toNat = (k.ms - last).toNat + k.crossing c := by
  rw [Clock.tick_ms, add_sub_right_comm, BitVec.toNat_add, trunc32_toNat, Nat.add_mod_mod, Nat.mod_eq_of_lt h]

/-- The unpolled time along a TICK of a run that is polled in time. -/
theorem Clock.PolledInTime.of_tick {c : Config} {j : BitVec 2} {r : Resolution} {is : List Instr} {k : Clock} {last : Word}
    (h : Clock.PolledInTime c j r (.tick :: is) k (k.ms - last).toNat) :
    ((k.tick c).ms - last).toNat = (k.ms - last).toNat + k.crossing c ∧
    Clock.PolledInTime c j r is (k.tick c) ((k.tick c).ms - last).toNat := by
  rw [Clock.polledInTime_tick] at h
  have hu := Clock.tick_unpolled h.lt
  exact ⟨hu, hu ▸ h⟩

/-- The unpolled time along a poll of a run that is polled in time. -/
theorem Clock.PolledInTime.of_poll {c : Config} {j : BitVec 2} {is : List Instr} {i : Instr} {k : Clock} {w : Stopwatch}
    (h : Clock.PolledInTime c j w.res (i :: is) k (k.ms - w.last).toNat) (hp : Instr.Polls j i) (hres : w.res ≠ .fine) :
    Clock.PolledInTime c j (w.commit k.ms).res is k (k.ms - (w.commit k.ms).last).toNat := by
  rw [Stopwatch.commit_res, Stopwatch.commit_unpolled _ hres]
  exact ((Clock.polledInTime_poll _ _ _ _ _ hp).mp h).2

/-- A `SECOND` commit that does not wrap the accumulator (R107) loses no millisecond on integers. -/
theorem Stopwatch.commit_second_keeps (now : Word) {w : Stopwatch} (h : w.res = .second)
    (hacc : w.acc.toNat * 1000 + (now - w.last).toNat < 2 ^ 32 * 1000) :
    (w.commit now).acc.toNat * 1000 + (now - (w.commit now).last).toNat =
      w.acc.toNat * 1000 + (now - w.last).toNat := by
  have hadd : (w.commit now).acc.toNat = w.acc.toNat + (now - w.last).toNat / 1000 := by
    rw [Stopwatch.commit_second now h, BitVec.toNat_add, trunc32_toNat, Nat.add_mod_mod, Nat.mod_eq_of_lt (by omega)]
  rw [hadd, Stopwatch.commit_unpolled now (by simp [h]), h, Resolution.carried]
  omega

section
variable {c : Config} {j : BitVec 2} {is : List Instr} {k k' : Clock} {w w' : Stopwatch} {d : Nat}

theorem Stopwatch.Course.res (h : Stopwatch.Course c j is k w d k' w') : w'.res = w.res := by
  induction h with
  | done => rfl
  | ticks _ ih => exact ih
  | polls _ _ ih => exact ih.trans (Stopwatch.commit_res _ _)
  | passes _ _ _ ih => exact ih

theorem Stopwatch.Course.running (h : Stopwatch.Course c j is k w d k' w') : w'.running = w.running := by
  induction h with
  | done => rfl
  | ticks _ ih => exact ih
  | polls _ _ ih => exact ih.trans (Stopwatch.commit_running _ _)
  | passes _ _ _ ih => exact ih

/-- The accumulator of a `MILLI` stopwatch is the sum of the deltas, modulo 2^32. -/
theorem Stopwatch.Course.acc (h : Stopwatch.Course c j is k w d k' w') (hr : w.res = .milli) :
    w'.acc = w.acc + trunc32 d := by
  induction h with
  | done => exact (BitVec.add_zero _).symm
  | ticks _ ih => exact ih hr
  | polls _ _ ih =>
    rw [ih ((Stopwatch.commit_res _ _).trans hr), Stopwatch.commit_unit _ (by simp [hr]), wrapDelta_eq, wsub32, trunc32_add,
      trunc32_of_toNat, add_assoc]
  | passes _ _ _ ih => exact ih hr

/-- The time kept moves by the advances modulo 2^32, whenever the polls come. -/
theorem Stopwatch.Course.time (h : Stopwatch.Course c j is k w d k' w') :
    w'.time k'.ms = w.time k.ms + trunc32 (Clock.advances c is k) := by
  induction h with
  | done => exact (BitVec.add_zero _).symm
  | ticks _ ih => rw [ih, Stopwatch.time_tick, Clock.advances_tick, trunc32_add, add_assoc]
  | polls hp _ ih => rw [ih, Stopwatch.time_commit, Clock.advances_other _ _ _ hp.ne_tick]
  | passes ht _ _ ih => rw [ih, Clock.advances_other _ _ _ ht]

/-- Polled in time, a `MILLI` stopwatch has committed or has unpolled every advance. -/
theorem Stopwatch.Course.deltas_add_unpolled (h : Stopwatch.Course c j is k w d k' w') (hr : w.res = .milli)
    (hin : Clock.PolledInTime c j w.res is k (k.ms - w.last).toNat) :
    d + (k'.ms - w'.last).toNat = (k.ms - w.last).toNat + Clock.advances c is k := by
  induction h with
  | done => exact Nat.add_comm _ _
  | ticks _ ih =>
    obtain ⟨hu, hin⟩ := hin.of_tick
    rw [ih hr hin, hu, Clock.advances_tick, Nat.add_assoc]
  | @polls i is k w d k' w' hp _ ih =>
    have hfine : w.res ≠ .fine := by simp [hr]
    have hu : (k.ms - (w.commit k.ms).last).toNat = 0 := by rw [Stopwatch.commit_unpolled _ hfine, hr]; rfl
    rw [Nat.add_assoc, ih ((w.commit_res _).trans hr) (hin.of_poll hp hfine), hu, Nat.zero_add, wrapDelta_eq, wsub32,
      Clock.advances_other _ _ _ hp.ne_tick]
  | passes ht hp _ ih =>
    rw [ih hr ((Clock.polledInTime_other _ _ _ _ _ ht hp).mp hin), Clock.advances_other _ _ _ ht]

/-- Polled in time, a `SECOND` stopwatch whose accumulator does not wrap has accumulated or has unpolled every advance. -/
theorem Stopwatch.Course.seconds_add_unpolled (h : Stopwatch.Course c j is k w d k' w') (hr : w.res = .second)
    (hin : Clock.PolledInTime c j w.res is k (k.ms - w.last).toNat)
    (hacc : w.acc.toNat * 1000 + (k.ms - w.last).toNat + Clock.advances c is k < 2 ^ 32 * 1000) :
    w'.acc.toNat * 1000 + (k'.ms - w'.last).toNat =
      w.acc.toNat * 1000 + (k.ms - w.last).toNat + Clock.advances c is k := by
  induction h with
  | done => exact (Nat.add_zero _).symm
  | @ticks is k w d k' w' _ ih =>
    obtain ⟨hu, hin⟩ := hin.of_tick
    rw [Clock.advances_tick, ← Nat.add_assoc, Nat.add_assoc (w.acc.toNat * 1000), ← hu] at hacc ⊢
    exact ih hr hin hacc
  | @polls i is k w d k' w' hp _ ih =>
    rw [Clock.advances_other _ _ _ hp.ne_tick] at hacc ⊢
    have hfine : w.res ≠ .fine := by simp [hr]
    have hfit : w.acc.toNat * 1000 + (k.ms - w.last).toNat < 2 ^ 32 * 1000 :=
      Nat.lt_of_le_of_lt (Nat.le_add_right _ _) hacc
    rw [← Stopwatch.commit_second_keeps k.ms hr hfit] at hacc ⊢
    exact ih ((w.commit_res _).trans hr) (hin.of_poll hp hfine) hacc
  | passes ht hp _ ih =>
    rw [Clock.advances_other _ _ _ ht] at hacc ⊢
    exact ih hr ((Clock.polledInTime_other _ _ _ _ _ ht hp).mp hin) hacc

end

/-- Settles O43: the run is a course, along which the time kept moves by the advances. -/
theorem polledStopwatchLosesNoMillisecond : Obligations.PolledStopwatchLosesNoMillisecond := by
  intro s t j w is hw hrun hres hl hset h
  obtain ⟨w', hw', hc⟩ := State.completeAll_course hw hrun hres hl hset h
  have htime := hc.time
  simp only [Stopwatch.time, hc.res] at htime
  refine ⟨w', hw', hc.running.trans hrun, hc.res, fun hr => ⟨hc.acc hr, ?_⟩, fun hr => ?_,
    fun hin => ⟨fun hr => hc.deltas_add_unpolled hr hin, fun hr => hc.seconds_add_unpolled hr hin⟩⟩
  · simpa [hr, Resolution.unit, trunc32] using htime
  · simpa [hr, Resolution.unit, trunc32] using htime

end Sys2Proof.Machine
end

section
/-! PROOFS. The family 43_context.md: IRQ_SUPPRESS and IRQ_RESTORE (O45), and properly nested critical sections (O46). O46 has
two halves. The flags the normal context works with are a fold of the effects of its lines, which a properly nested sequence
leaves as they were and which no other context's step touches; and a run through such a sequence has a measure that each of
its steps lowers. -/

namespace Sys2Proof

/-! ## A word is the word of one instruction only (30_encoding.md R57) -/

/-- The reference configuration has every instruction. -/
theorem Instr.wf_reference (i : Instr) : i.wf Config.reference = true := by
  cases i with
  | isEmpty k | peek k | remove k | add k _ | count k | free k => exact decide_eq_true k.isLt
  | swStart j | swStop j | swPoll j | swElapsed j | swReset j => exact decide_eq_true j.isLt
  | swInit j r => cases r <;> exact (Bool.and_eq_true _ _).mpr ⟨decide_eq_true j.isLt, rfl⟩
  | tick | millis | micros | irqSuppress | irqRestore => rfl

theorem encode_injective : Function.Injective encode := by
  intro i j h
  have hj : decode Config.reference (encode i) = .ok j := h ▸ decode_encode j.wf_reference
  exact Except.ok.inj ((decode_encode i.wf_reference).symm.trans hj)

theorem decode_encode_eq {c : Config} {i j : Instr} (h : decode c (encode i) = .ok j) : j = i :=
  encode_injective (encode_of_decode h)

end Sys2Proof

namespace Sys2Proof.Machine

/-! ## The two operations (43_context.md R112, R113, R116) -/

theorem exec_irqRestore_eq {s : State} {f : Bool} (h : s.ctx.inHandler = true → f = true) :
    exec (.irqRestore f) s = .next ((s.setSuppressed f).respond 0) :=
  if_neg (by simpa using h)

/-- Settles O45: each command is one write of the flag and one answer; in a handler IRQ_RESTORE 0 is the fault of R116. -/
theorem suppressAndRestoreTheInterruptFlag : Obligations.SuppressAndRestoreTheInterruptFlag := by
  intro s
  refine ⟨decode_encode (i := .irqSuppress) rfl, decode_encode (i := .irqRestore false) rfl,
    decode_encode (i := .irqRestore true) rfl, rfl, exec_irqRestore_eq fun _ => rfl, fun hh => ?_, fun hh => ?_⟩
  · exact exec_irqRestore_eq (by simp [hh])
  · exact if_pos (by simp [hh])

/-! ## The flag and the flags kept for the open critical sections (43_context.md R114) -/

/-- The suppression flag as the normal context finds it when it goes on (a handler leaves it cleared, 60_exceptions.md R127),
and the flags its open critical sections will put back. -/
structure FlagStack where
  flag  : Bool
  saved : List Bool

def State.flagStack (s : State) : FlagStack where
  flag  := !s.ctx.inHandler && s.ctx.irqSuppressed
  saved := s.normal.saved

/-- What a line of the normal context does to the flags, once answered. -/
def Line.effect (m : FlagStack) : Line → FlagStack
  | .openCritical => ⟨true, m.flag :: m.saved⟩
  | .closeCritical => ⟨m.saved.headD m.flag, m.saved.tail⟩
  | _ => m

/-- R115 of the lines alone: each closing line puts back what its opening line found. -/
theorem Nested.foldl_effect {ls : List Line} (h : Nested ls) (m : FlagStack) : ls.foldl Line.effect m = m := by
  induction h generalizing m with
  | empty => rfl
  | body w hw => rfl
  | critical ls _ ih => simp [Line.effect, ih]
  | append ls ms _ _ ihl ihm => rw [List.foldl_append, ihl, ihm]

/-- The line is not a word of the CONTEXT unit issued by hand. -/
def Line.NoRawContext (l : Line) : Prop := ∀ w, l = .command w → w.unit ≠ 3

/-- A line of a properly nested sequence. -/
inductive Line.Nestable : Line → Prop where
  | command (w : CmdWord) : w.unit ≠ 3 → Line.Nestable (.command w)
  | opens : Line.Nestable .openCritical
  | closes : Line.Nestable .closeCritical

theorem Nested.nestable {ls : List Line} (h : Nested ls) : ∀ l ∈ ls, l.Nestable := by
  induction h with
  | empty => simp
  | body w hw => simpa using .command w hw
  | critical ls _ ih => simpa [or_imp, forall_and] using ⟨.opens, ih, .closes⟩
  | append ls ms _ _ ihl ihm => simpa [or_imp, forall_and] using ⟨ihl, ihm⟩

theorem Line.Nestable.noRawContext {l : Line} (h : l.Nestable) : l.NoRawContext := by
  rintro w rfl
  cases h with
  | command _ hw => exact hw

theorem Line.Nestable.rest {l : Line} (h : l.Nestable) (tol : Nat) (r : Response) : l.rest tol r = [] := by
  cases h <;> rfl

/-! ## Lines that leave the flags alone -/

section
variable {l : Line} (ho : l ≠ .openCritical) (hc : l ≠ .closeCritical)
include ho hc

theorem Line.effect_of_ne (m : FlagStack) : l.effect m = m := by
  cases l with
  | openCritical => exact absurd rfl ho
  | closeCritical => exact absurd rfl hc
  | command | delay | delayPoll | delayFine | delayFinePoll | tovTick | rxcAdd | dreTest | drePeek | dreRemove => rfl

theorem Line.keep_of_ne (r : Response) (saved : List Bool) : l.keep r saved = saved := by
  cases l with
  | openCritical => exact absurd rfl ho
  | closeCritical => exact absurd rfl hc
  | command | delay | delayPoll | delayFine | delayFinePoll | tovTick | rxcAdd | dreTest | drePeek | dreRemove => rfl

/-- The line's command is of another unit than CONTEXT. -/
theorem Line.not_context {c : Config} {t : Thread} {w : CmdWord} {i : Instr} (hl : l.NoRawContext) (hw : l.word t = some w)
    (hd : decode c w = .ok i) : i ≠ .irqSuppress ∧ ∀ f, i ≠ .irqRestore f := by
  cases l with
  | openCritical => exact absurd rfl ho
  | closeCritical => exact absurd rfl hc
  | command =>
    cases hw
    have hunit : (encode i).unit ≠ 3 := encode_of_decode hd ▸ hl w rfl
    refine ⟨?_, fun f => ?_⟩
    · rintro rfl; exact hunit rfl
    · rintro rfl; cases f <;> exact hunit rfl
  | delay | delayPoll | delayFine | delayFinePoll | tovTick | rxcAdd | dreTest | drePeek | dreRemove =>
    simp only [Line.word, Option.some.injEq] at hw
    subst hw
    simp [decode_encode_eq hd]

end

/-! ## One step of the normal context -/

theorem State.goOn_flagStack {s : State} (hh : s.ctx.inHandler = false) (l : Line) (rest : List Line) (r : Response) :
    (s.goOn l rest r).flagStack = ⟨s.ctx.irqSuppressed, l.keep r s.normal.saved⟩ := by
  simp [State.flagStack, State.goOn_normal, hh, State.thread_of_not_inHandler hh]

theorem State.flagStack_of_not_inHandler {s : State} (hh : s.ctx.inHandler = false) :
    s.flagStack = ⟨s.ctx.irqSuppressed, s.normal.saved⟩ := by
  simp [State.flagStack, hh]

theorem ExecFrame.normal_saved {s t : State} (h : ExecFrame s t) : t.normal.saved = s.normal.saved := by
  rw [h.normal]; split <;> rfl

/-- A line whose command has answered has its effect on the flags (R112, R113). -/
theorem State.goOn_effect {s u : State} {l : Line} {w : CmdWord} {i : Instr} {r : Response}
    (hh : s.ctx.inHandler = false) (hl : l.NoRawContext) (hw : l.word s.normal = some w) (hd : decode s.cfg w = .ok i)
    (he : exec i s = .next u) (hr : u.resp = some r) (rest : List Line) :
    (u.goOn l rest r).flagStack = l.effect s.flagStack := by
  have hf := exec_frame he
  rw [State.goOn_flagStack (hf.inHandler.trans hh), State.flagStack_of_not_inHandler hh, hf.normal_saved]
  by_cases ho : l = .openCritical
  · subst ho; cases hw
    cases decode_encode_eq hd
    cases he; cases hr
    cases hflag : s.ctx.irqSuppressed <;> simp [Line.keep, Line.effect, boolWord]
  by_cases hc : l = .closeCritical
  · subst hc
    cases hsaved : s.normal.saved with
    | nil => simp [Line.word, hsaved] at hw
    | cons g saved =>
      simp only [Line.word, hsaved, List.head?_cons, Option.map_some, Option.some.injEq] at hw
      subst hw
      cases decode_encode_eq hd
      cases (exec_irqRestore_eq (by simp [hh])).symm.trans he
      rfl
  · obtain ⟨hsuppress, hrestore⟩ := Line.not_context ho hc hl hw hd
    rw [Line.keep_of_ne ho hc, Line.effect_of_ne ho hc, exec_ctx he hsuppress hrestore]

/-- Only a closing line with nothing to close issues no command (assumption log 18). -/
theorem Line.word_eq_none {t : Thread} {l : Line} (hw : l.word t = none) : l = .closeCritical ∧ t.saved = [] := by
  cases l with
  | closeCritical => exact ⟨rfl, by simpa [Line.word] using hw⟩
  | command | delay | delayPoll | delayFine | delayFinePoll | openCritical | tovTick | rxcAdd | dreTest | drePeek | dreRemove =>
    cases hw

/-- The lines of a critical section issue no reserved word. -/
theorem Line.ne_of_reserved {c : Config} {t : Thread} {l : Line} {w : CmdWord} {e : Reserved} (hw : l.word t = some w)
    (hd : decode c w = .error e) : l ≠ .openCritical ∧ l ≠ .closeCritical := by
  constructor
  · rintro rfl
    cases hw
    cases hd.symm.trans (decode_encode (i := .irqSuppress) rfl)
  · rintro rfl
    obtain ⟨g, -, rfl⟩ := Option.map_eq_some_iff.mp hw
    cases hd.symm.trans (decode_encode (i := .irqRestore g) rfl)

/-- The line's command can be issued in `s` as a phase B: it answers, and nothing is carried any more (41_clock.md R86). -/
def Line.Completes (s : State) (l : Line) : Prop :=
  ∃ w i, l.word s.normal = some w ∧ decode s.cfg w = .ok i ∧ ∀ u : State, u.cfg = s.cfg → u.sws.length = s.sws.length →
    u.latch ≠ none → ∃ u', exec i u = .next u' ∧ u'.latch = none ∧ u'.resp ≠ none

theorem Line.Completes.congr {s t : State} {l : Line} (h : l.Completes s) (hn : t.normal = s.normal)
    (hi : SameInstances s t) : l.Completes t := by
  obtain ⟨w, i, hw, hd, hB⟩ := h
  exact ⟨w, i, hn ▸ hw, hi.cfg ▸ hd, fun u hc hs => hB u (hc.trans hi.cfg) (hs.trans hi.sws)⟩

/-- What a step of the normal context does to its program, its flags and its overflow count. -/
inductive NormalStep (s : State) : State → Prop where
  /-- nothing left to issue -/
  | waits : s.normal.todo = [] → NormalStep s s
  /-- a phase A: the line stays -/
  | halfway (l rest t) : s.normal.todo = l :: rest → t.normal.todo = l :: rest → t.flagStack = s.flagStack →
      s.normal.latch = none → t.normal.latch ≠ none → l.Completes t → NormalStep s t
  /-- the context goes on past the line -/
  | goesOn (l rest r t) : s.normal.todo = l :: rest → t.normal.todo = l.rest s.cfg.delayFineTol r ++ rest →
      (l.NoRawContext → t.flagStack = l.effect s.flagStack) →
      (s.normal.latch = none ∨ l.Completes s → t.normal.latch = none) → NormalStep s t

theorem State.goOn_normal_todo {s : State} (hh : s.ctx.inHandler = false) (l : Line) (rest : List Line) (r : Response) :
    (s.goOn l rest r).normal.todo = l.rest s.cfg.delayFineTol r ++ rest := by
  simp [State.goOn_normal, hh]

theorem State.goOn_normal_latch {s : State} (hh : s.ctx.inHandler = false) (l : Line) (rest : List Line) (r : Response) :
    (s.goOn l rest r).normal.latch = s.latch := by
  simp [State.goOn_normal, hh, State.latch]

theorem State.latch_of_not_inHandler {s : State} (hh : s.ctx.inHandler = false) : s.latch = s.normal.latch := by
  rw [State.latch, State.thread_of_not_inHandler hh]

theorem ContextStep.normalStep {s t : State} (hc : ContextStep s t) (hh : s.ctx.inHandler = false) : NormalStep s t := by
  have hthread := State.thread_of_not_inHandler hh
  have hlatch := State.latch_of_not_inHandler hh
  cases hc with
  | waits ht => exact .waits (hthread ▸ ht)
  | returns _ h => exact absurd (hh.symm.trans h) (by decide)
  | skips l rest ht hw =>
    rw [hthread] at ht hw
    obtain ⟨rfl, hsaved⟩ := Line.word_eq_none hw
    refine .goesOn _ rest ⟨.ok, 0⟩ _ ht ?_ (fun _ => ?_) ?_
    · simp [State.skipLine, hh, Line.rest]
    · simp [State.skipLine, State.flagStack, hh, Line.effect, hthread, hsaved]
    · rintro (hn | ⟨w, i, hw', -⟩)
      · simpa [State.skipLine, hh, hthread] using hn
      · simp [Line.word, hsaved] at hw'
  | refuses l rest w e ht hw hd =>
    rw [hthread] at ht hw
    refine .goesOn l rest _ _ ht (State.goOn_normal_todo (s := s.refuseCommand) hh l rest _) (fun hl => ?_) ?_
    · obtain ⟨ho, hc⟩ := Line.ne_of_reserved hw hd
      rw [State.goOn_flagStack (s := s.refuseCommand) hh, Line.keep_of_ne ho hc, Line.effect_of_ne ho hc,
        State.flagStack_of_not_inHandler hh]
      rfl
    · rintro (hn | ⟨w', i, hw', hd', -⟩)
      · exact (State.goOn_normal_latch (s := s.refuseCommand) hh l rest _).trans (hlatch.trans hn)
      · cases hw.symm.trans hw'; cases hd.symm.trans hd'
  | answers l rest w i u r ht hw hd he hr =>
    rw [hthread] at ht hw
    have hf := exec_frame he
    have hu := hf.inHandler.trans hh
    refine .goesOn l rest r _ ht (hf.cfg ▸ State.goOn_normal_todo hu l rest r)
      (fun hl => State.goOn_effect hh hl hw hd he hr rest) fun h => ?_
    rw [State.goOn_normal_latch hu]
    by_cases hn : s.latch = none
    · exact exec_answer_latch he (by simp [hr]) hn
    · obtain ⟨w', i', hw', hd', hB⟩ := h.resolve_left (hlatch ▸ hn)
      cases hw.symm.trans hw'; cases hd.symm.trans hd'
      obtain ⟨u', he', hl', -⟩ := hB s rfl rfl hn
      cases he.symm.trans he'
      exact hl'
  | halfway l rest w i _ ht hw hd he hr =>
    rw [hthread] at ht hw
    obtain ⟨rfl, hn, -, hB⟩ := exec_phaseA he hr
    refine .halfway l rest _ ht (by simp [hh, ht]) (by simp [State.flagStack, hh]) (hlatch ▸ hn) (by simp [hh])
      ⟨w, i, ?_, hd, hB⟩
    rw [State.finePhaseA_normal, hh, if_neg (by decide), Line.word_latch, hw]

/-! ## The first half of O46: the flag wherever the run reaches the end of the sequence -/

/-- Bounds how many lines a line can still issue, a poll counted once for all its repetitions. -/
def Line.weight : Line → Nat
  | .delay _ => 2
  | .delayFine _ => 2
  | .dreTest => 3
  | _ => 1

def programWeight (ls : List Line) : Nat := (ls.map Line.weight).sum

@[simp] theorem programWeight_cons (l : Line) (ls : List Line) : programWeight (l :: ls) = l.weight + programWeight ls := by
  simp [programWeight]

@[simp] theorem programWeight_append (ls ms : List Line) :
    programWeight (ls ++ ms) = programWeight ls + programWeight ms := by
  simp [programWeight]

theorem Line.weight_pos (l : Line) : 0 < l.weight := by
  cases l <;> exact Nat.succ_pos _

/-- An answered line stays, as a poll does, or leaves less to issue. -/
theorem Line.rest_cases (tol : Nat) (r : Response) (l : Line) :
    (l.rest tol r = [l] ∧ l.NoRawContext ∧ ∀ m, l.effect m = m) ∨ programWeight (l.rest tol r) < l.weight := by
  cases l with
  | delayPoll target | delayFinePoll target =>
    simp only [Line.rest]
    split
    · exact .inl ⟨rfl, nofun, fun _ => rfl⟩
    · exact .inr (Line.weight_pos _)
  | delay | delayFine | dreTest =>
    right
    simp only [Line.rest]
    split
    · exact Nat.lt_succ_self _
    · exact Line.weight_pos _
  | command | openCritical | closeCritical | tovTick | rxcAdd | drePeek | dreRemove => exact .inr (Line.weight_pos _)

/-- Where a run is that set out to issue `ls ++ rest` with the flags `m`: inside `ls`, with the flags that bring it back to
`m`, or past the beginning of `rest`. -/
inductive State.OnTheWay (rest : List Line) (m : FlagStack) (t : State) : Prop where
  | inside (ls) : t.normal.todo = ls ++ rest → (∀ l ∈ ls, l.Nestable) → ls.foldl Line.effect t.flagStack = m →
      State.OnTheWay rest m t
  | past : programWeight t.normal.todo < programWeight rest → State.OnTheWay rest m t

section
variable {rest : List Line} {m : FlagStack} {s t : State}

theorem State.OnTheWay.congr (h : s.OnTheWay rest m) (htodo : t.normal.todo = s.normal.todo)
    (hflags : t.flagStack = s.flagStack) : t.OnTheWay rest m := by
  cases h with
  | inside ls ht hl hm => exact .inside ls (htodo.trans ht) hl (hflags ▸ hm)
  | past hw => exact .past (htodo ▸ hw)

theorem State.OnTheWay.flagStack_eq (h : t.OnTheWay rest m) (ht : t.normal.todo = rest) : t.flagStack = m := by
  cases h with
  | inside ls htodo _ hm =>
    obtain rfl : ls = [] := by simpa using htodo.symm.trans ht
    exact hm
  | past hw => exact absurd (ht ▸ hw) (lt_irrefl _)

theorem State.OnTheWay.of_normalStep (h : s.OnTheWay rest m) (hs : NormalStep s t) : t.OnTheWay rest m := by
  cases hs with
  | waits => exact h
  | halfway l ls _ hs' ht' hflags => exact h.congr (ht'.trans hs'.symm) hflags
  | goesOn l lines r _ hs' ht' hflags =>
    cases h with
    | past hw =>
      refine .past ?_
      rw [hs', programWeight_cons] at hw
      rw [ht', programWeight_append]
      rcases Line.rest_cases s.cfg.delayFineTol r l with ⟨he, -⟩ | hlt
      · rw [he]; simpa [programWeight] using hw
      · omega
    | inside ls htodo hl hm =>
      cases ls with
      | cons k ls =>
        obtain ⟨rfl, rfl⟩ : l = k ∧ lines = ls ++ rest := List.cons.inj (hs'.symm.trans htodo)
        have hk : l.Nestable := hl l (by simp)
        refine .inside ls (by rw [ht', hk.rest]; rfl) (fun x hx => hl x (by simp [hx])) ?_
        rw [hflags hk.noRawContext]
        exact hm
      | nil =>
        obtain rfl : rest = l :: lines := htodo.symm.trans hs'
        rcases Line.rest_cases s.cfg.delayFineTol r l with ⟨he, hraw, heff⟩ | hlt
        · exact .inside [] (by rw [ht', he]; rfl) (by simp) (by rw [hflags hraw, heff]; exact hm)
        · exact .past (by rw [ht', programWeight_append, programWeight_cons]; omega)

end

theorem ContextStep.sched {s t : State} (h : ContextStep s t) : t.sched = s.sched := by
  cases h with
  | answers l rest w i u r _ _ _ he => exact (exec_frame he).sched
  | halfway l rest w i _ _ _ _ he => exact (exec_frame he).sched
  | _ => rfl

theorem ContextStep.inHandler {s t : State} (h : ContextStep s t) (hh : s.ctx.inHandler = false) :
    t.ctx.inHandler = false := by
  cases h with
  | returns => rfl
  | answers l rest w i u r _ _ _ he => exact (exec_frame he).inHandler.trans hh
  | halfway l rest w i _ _ _ _ he => exact (exec_frame he).inHandler.trans hh
  | _ => exact hh

theorem ContextStep.pending {s t : State} (h : ContextStep s t) : t.ctx.pending = s.ctx.pending := by
  cases h with
  | answers l rest w i u r _ _ _ he => exact (exec_frame he).pending
  | halfway l rest w i _ _ _ _ he => exact (exec_frame he).pending
  | _ => rfl

/-! ## Steps and runs without a reset -/

theorem step_sched {s t : State} (h : step s = .next t) : t.sched = s.sched.tail := by
  obtain ⟨-, ⟨ms, hs, hc⟩ | ⟨e, ms, hs, rfl⟩ | ⟨ms, hs, rfl⟩ | ⟨src, ms, hs, rfl⟩ | ⟨d, p, ms, hs, rfl⟩⟩ :=
    step_next_cases h
  · rw [hc.sched]
    rcases hs with ⟨hs, rfl⟩ | hs <;> rw [hs] <;> rfl
  · simp [hs]
  · simp [hs]
  · rcases (s.beginStep ms).enterHandler_cases src with e | ⟨-, -, -, e⟩ <;> rw [e, hs] <;> rfl
  · rw [hs]; rfl

/-- No reset is scheduled. -/
def State.NoReset (s : State) : Prop := ∀ d p, Move.reset d p ∉ s.sched

theorem State.NoReset.of_step {s t : State} (hr : s.NoReset) (h : step s = .next t) : t.NoReset :=
  fun d p hm => hr d p (List.mem_of_mem_tail (step_sched h ▸ hm))

theorem State.enterHandler_flagStack (src : Source) (s : State) : (s.enterHandler src).flagStack = s.flagStack := by
  rcases s.enterHandler_cases src with e | ⟨hflag, -, -, e⟩ <;> rw [e]
  simp [State.flagStack, hflag]

/-- A handler's step leaves the flags alone: it returns with the flag cleared, as its entry found it (R123, R127). -/
theorem ContextStep.flagStack_of_inHandler {s t : State} (hc : ContextStep s t) (hh : s.ctx.inHandler = true) :
    t.flagStack = s.flagStack := by
  have hsaved : t.normal.saved = s.normal.saved := by rw [hc.normal_of_inHandler hh]
  have hflag : t.ctx.inHandler = true ∨ t.ctx.irqSuppressed = false := by
    cases hc with
    | returns => exact .inr rfl
    | answers l rest w i u r _ _ _ he => exact .inl ((exec_frame he).inHandler.trans hh)
    | halfway l rest w i _ _ _ _ he => exact .inl ((exec_frame he).inHandler.trans hh)
    | _ => exact .inl hh
  rcases hflag with hflag | hflag <;> simp [State.flagStack, hsaved, hh, hflag]

theorem State.OnTheWay.of_step {rest : List Line} {m : FlagStack} {s t : State} (h : s.OnTheWay rest m) (hr : s.NoReset)
    (hstep : step s = .next t) : t.OnTheWay rest m := by
  obtain ⟨-, ⟨ms, -, hc⟩ | ⟨e, ms, -, rfl⟩ | ⟨ms, -, rfl⟩ | ⟨src, ms, -, rfl⟩ | ⟨d, p, ms, hs, rfl⟩⟩ :=
    step_next_cases hstep
  · have hb : (s.beginStep ms).OnTheWay rest m := h.congr rfl rfl
    cases hh : s.ctx.inHandler with
    | false => exact hb.of_normalStep (hc.normalStep hh)
    | true => exact hb.congr (by rw [hc.normal_of_inHandler hh]) (hc.flagStack_of_inHandler hh)
  · exact h.congr (by simp) (by simp [State.flagStack])
  · exact h.congr (by simp) (by simp [State.flagStack])
  · exact h.congr (by simp) (State.enterHandler_flagStack src _)
  · exact absurd (by simp [hs]) (hr d p)

/-- What every step keeps holds wherever a run arrives. -/
theorem State.steps_induction {P : State → Prop} (hP : ∀ s t, P s → step s = .next t → P t) {k : Nat} {s t : State}
    (hs : P s) (h : State.steps k s = .next t) : P t := by
  induction k generalizing s with
  | zero => cases h; exact hs
  | succ k ih =>
    cases hstep : step s with
    | next u => exact ih (hP s u hs hstep) (State.steps_succ k hstep ▸ h)
    | fault e => simp [State.steps, hstep] at h
    | refused e => simp [State.steps, hstep] at h

theorem State.OnTheWay.of_steps {rest : List Line} {m : FlagStack} {s t : State} {k : Nat} (h : s.OnTheWay rest m)
    (hr : s.NoReset) (hrun : State.steps k s = .next t) : t.OnTheWay rest m :=
  (State.steps_induction (P := fun s => s.OnTheWay rest m ∧ s.NoReset)
    (fun _ _ ⟨hw, hr⟩ hstep => ⟨hw.of_step hr hstep, hr.of_step hstep⟩) ⟨h, hr⟩ hrun).1

/-- With nothing scheduled, no handler runs and nothing becomes pending. -/
structure State.Quiet (p : Pending) (s : State) : Prop where
  sched     : s.sched = []
  inHandler : s.ctx.inHandler = false
  pending   : s.ctx.pending = p

theorem State.Quiet.of_step {p : Pending} {s t : State} (h : s.Quiet p) (hstep : step s = .next t) : t.Quiet p := by
  have hsched := h.sched
  obtain ⟨-, ⟨ms, -, hc⟩ | ⟨e, ms, hs, -⟩ | ⟨ms, hs, -⟩ | ⟨src, ms, hs, -⟩ | ⟨d, p, ms, hs, -⟩⟩ := step_next_cases hstep
  · exact ⟨by rw [step_sched hstep, hsched]; rfl, hc.inHandler h.inHandler, hc.pending.trans h.pending⟩
  all_goals rw [hsched] at hs; cases hs

/-! ## The handlers' bodies run to their end (60_exceptions.md R124 to R126) -/

/-- What is left of a handler's body: PEEK comes only after an ISEMPTY that has found a byte. -/
inductive State.Serves (s : State) : List Line → Prop where
  | done : s.Serves []
  | tick : s.Serves [.tovTick]
  | add (b) : s.Serves [.rxcAdd b]
  | test : s.Serves [.dreTest]
  | send : (∀ n f, s.FifoAt 1 n f → f.head ≠ f.tail) → s.Serves [.drePeek, .dreRemove]
  | remove : s.Serves [.dreRemove]

/-- While a handler runs, what it has left to issue is the end of a body. -/
def State.Serving (s : State) : Prop := s.ctx.inHandler = true → s.Serves s.handler.todo

theorem State.Serves.congr {s t : State} {ls : List Line} (h : s.Serves ls) (hc : t.cfg = s.cfg) (hf : t.fifos = s.fifos) :
    t.Serves ls := by
  cases h with
  | send hne => exact .send fun n f hat => hne n f ⟨hc ▸ hat.cap, hf ▸ hat.fifo⟩
  | done => exact .done
  | tick => exact .tick
  | add b => exact .add b
  | test => exact .test
  | remove => exact .remove

theorem State.serves_body (s : State) (rx : Byte) (src : Source) : s.Serves (src.body rx) := by
  cases src with
  | tov => exact .tick
  | rxc => exact .add rx
  | dre => exact .test

theorem programWeight_body_le (rx : Byte) (src : Source) : programWeight (src.body rx) ≤ 3 := by
  cases src with
  | tov | rxc => exact Nat.le_add_left 1 2
  | dre => exact le_rfl

/-- A line of a body issues a command of one phase, which does not stop the machine. -/
theorem State.Serves.issues {s : State} {l : Line} {rest : List Line} (h : s.Serves (l :: rest)) :
    ∃ i, (∀ t, l.word t = some (encode i)) ∧ i.twoPhase = false ∧ ∀ e, exec i s ≠ .fault e := by
  have safe {i : Instr} (hr : i ≠ .irqRestore false) (hp : ∀ k n f, i = .peek k → s.FifoAt k n f → f.head ≠ f.tail)
      (e : Fault) : exec i s ≠ .fault e := by
    intro he
    rcases exec_fault_cases he with ⟨-, k, n, f, hi, hat, heq⟩ | ⟨-, hi, -⟩
    · exact hp k n f hi hat heq
    · exact hr hi
  cases h with
  | tick => exact ⟨.tick, fun _ => rfl, rfl, safe nofun nofun⟩
  | add b => exact ⟨.add 0 b, fun _ => rfl, rfl, safe nofun nofun⟩
  | test => exact ⟨.isEmpty 1, fun _ => rfl, rfl, safe nofun nofun⟩
  | send hne => exact ⟨.peek 1, fun _ => rfl, rfl, safe nofun fun k n f hk => by cases hk; exact hne n f⟩
  | remove => exact ⟨.remove 1, fun _ => rfl, rfl, safe nofun nofun⟩

/-- An ISEMPTY that answers 0 has found a byte (40_fifo.md R68). -/
theorem exec_isEmpty_found {s t : State} {k : BitVec 2} {r : Response} (he : exec (.isEmpty k) s = .next t)
    (hr : t.resp = some r) (h0 : r.word = 0) {n : Nat} {f : Fifo} (hat : t.FifoAt k n f) : f.head ≠ f.tail := by
  intro heq
  have hats : s.FifoAt k n f := ⟨(exec_frame he).cfg ▸ hat.cap, exec_fifos_eq he nofun nofun ▸ hat.fifo⟩
  cases (exec_isEmpty_eq hats).symm.trans he
  cases hr
  simp [heq] at h0

/-- What is left of a body after a line's answer, where an ISEMPTY that has answered 0 has found a byte. -/
theorem State.Serves.goesOn {s t : State} {l : Line} {rest : List Line} (h : s.Serves (l :: rest)) (tol : Nat) (r : Response)
    (hfound : l = .dreTest → r.status = .ok → r.word = 0 → ∀ n f, t.FifoAt 1 n f → f.head ≠ f.tail) :
    t.Serves (l.rest tol r ++ rest) ∧ programWeight (l.rest tol r ++ rest) < programWeight (l :: rest) := by
  cases h with
  | test =>
    simp only [Line.rest]
    split
    next hok => exact ⟨.send (hfound rfl hok.1 hok.2), by decide⟩
    next => exact ⟨.done, by decide⟩
  | send => exact ⟨.remove, Nat.lt_succ_self _⟩
  | tick | add | remove => exact ⟨.done, Nat.zero_lt_one⟩

/-- How many steps a running handler can still take. -/
def State.handlerWork (s : State) : Nat := if s.ctx.inHandler then 1 + programWeight s.handler.todo else 0

/-- A handler's step leaves the rest of its body, or returns. -/
theorem ContextStep.serving {s t : State} (hc : ContextStep s t) (hh : s.ctx.inHandler = true)
    (h : s.Serves s.handler.todo) : t.Serving ∧ t.handlerWork < s.handlerWork := by
  have hthread : s.thread = s.handler := by simp [State.thread, hh]
  have goesOn {u : State} {l : Line} {rest : List Line} {r : Response} (hu : u.ctx.inHandler = true)
      (ht : s.handler.todo = l :: rest)
      (hfound : l = .dreTest → r.status = .ok → r.word = 0 → ∀ n f, u.FifoAt 1 n f → f.head ≠ f.tail) :
      (u.goOn l rest r).Serving ∧ (u.goOn l rest r).handlerWork < s.handlerWork := by
    have htodo : (u.goOn l rest r).handler.todo = l.rest u.cfg.delayFineTol r ++ rest := by simp [State.goOn_handler, hu]
    obtain ⟨hs, hw⟩ := (ht ▸ h).goesOn u.cfg.delayFineTol r hfound
    refine ⟨fun _ => htodo ▸ hs.congr rfl rfl, ?_⟩
    simpa [State.handlerWork, hu, hh, htodo, ht] using hw
  cases hc with
  | waits _ hin => exact absurd (hh.symm.trans hin) nofun
  | returns => exact ⟨nofun, by simp [State.handlerWork, hh]⟩
  | skips l rest ht hw =>
    rw [hthread] at ht
    obtain ⟨i, hi, -⟩ := (ht ▸ h).issues
    cases (hi _).symm.trans hw
  | refuses l rest w e ht => exact goesOn (u := s.refuseCommand) hh (hthread ▸ ht) nofun
  | answers l rest w i u r ht hw hd he hr =>
    refine goesOn ((exec_frame he).inHandler.trans hh) (hthread ▸ ht) fun hl _ h0 n f hat => ?_
    subst hl
    simp only [Line.word, Option.some.injEq] at hw
    subst hw
    rw [decode_encode_eq hd] at he
    exact exec_isEmpty_found he hr h0 hat
  | halfway l rest w i _ ht hw hd he hr =>
    rw [hthread] at ht
    obtain ⟨j, hj, hphase, -⟩ := (ht ▸ h).issues
    cases (hj _).symm.trans hw
    obtain ⟨-, -, htwo, -⟩ := exec_phaseA he hr
    rw [decode_encode_eq hd, hphase] at htwo
    cases htwo

/-! ## The second half of O46: every run reaches the end of the sequence -/

/-- A run on its way through `ls`, with the commands of its contexts sure to be answered. -/
structure State.Underway (ls rest : List Line) (s : State) : Prop where
  legal   : s.cfg.legal = true
  noReset : s.NoReset
  todo    : s.normal.todo = ls ++ rest
  lines   : ∀ l ∈ ls, l.Nestable
  latch   : s.normal.latch = none ∨ ∃ l ls', ls = l :: ls' ∧ l.Completes s
  serving : s.Serving

/-- How many steps a context's program can take at most, where no line is repeated: each line one, and its phase A another. -/
def Thread.work (t : Thread) : Nat := 2 * t.todo.length + t.latch.isNone.toNat

/-- How many steps a run underway can still take; an entry gives a handler up to four. -/
def State.work (s : State) : Nat := 5 * s.sched.length + s.handlerWork + s.normal.work

/-- The step keeps the run on its way, and there is less to do after it. -/
def State.Advances (ls rest : List Line) (s t : State) : Prop :=
  t.cfg = s.cfg ∧ t.work < s.work ∧ ∃ ls', ls' ⊆ ls ∧ t.Underway ls' rest

section
variable {ls rest : List Line} {s t : State}

theorem State.work_lt (hstep : step s = .next t) (h : t.handlerWork + t.normal.work < s.handlerWork + s.normal.work) :
    t.work < s.work := by
  have hlen : t.sched.length ≤ s.sched.length := by rw [step_sched hstep, List.length_tail]; omega
  unfold State.work
  omega

theorem State.work_lt_of_sched (hstep : step s = .next t) (hs : s.sched ≠ []) (hn : t.normal = s.normal)
    (h : t.handlerWork < s.handlerWork + 5) : t.work < s.work := by
  have hlen : t.sched.length + 1 = s.sched.length := by
    rw [step_sched hstep, List.length_tail, Nat.sub_add_cancel (List.length_pos_of_ne_nil hs)]
  unfold State.work
  rw [hn]
  omega

/-- A step that leaves the normal context alone. -/
theorem State.Underway.advances (h : s.Underway ls rest) (hstep : step s = .next t) (hn : t.normal = s.normal)
    (hi : SameInstances s t) (hs : t.Serving) (hw : t.work < s.work) : s.Advances ls rest t := by
  refine ⟨hi.cfg, hw, ls, List.Subset.refl _, hi.cfg ▸ h.legal, h.noReset.of_step hstep, hn ▸ h.todo, h.lines, ?_, hs⟩
  rw [hn]
  exact h.latch.imp_right fun ⟨l, ls', hl, hc⟩ => ⟨l, ls', hl, hc.congr hn hi⟩

/-- A step that touches neither the contexts nor the FIFOs. -/
theorem State.Underway.advances_of_environment (h : s.Underway ls rest) (hstep : step s = .next t) (hs : s.sched ≠ [])
    (hi : SameInstances s t) (hn : t.normal = s.normal) (hhandler : t.handler = s.handler)
    (hin : t.ctx.inHandler = s.ctx.inHandler) (hf : t.fifos = s.fifos) : s.Advances ls rest t := by
  refine h.advances hstep hn hi (fun hh => ?_) (State.work_lt_of_sched hstep hs hn ?_)
  · exact hhandler ▸ (h.serving (hin ▸ hh)).congr hi.cfg hf
  · simp [State.handlerWork, hin, hhandler]

theorem State.Underway.advances_enter (h : s.Underway ls rest) {src : Source} {ms : List Move}
    (hs : s.sched = .enter src :: ms) (hstep : step s = .next ((s.beginStep ms).enterHandler src)) :
    s.Advances ls rest ((s.beginStep ms).enterHandler src) := by
  have hne : s.sched ≠ [] := by simp [hs]
  rcases (s.beginStep ms).enterHandler_cases src with e | ⟨-, -, -, e⟩ <;> rw [e] at hstep ⊢
  · exact h.advances_of_environment hstep hne ⟨rfl, rfl, rfl⟩ rfl rfl rfl rfl
  · refine h.advances hstep rfl ⟨rfl, rfl, rfl⟩ (fun _ => State.serves_body _ _ src) ?_
    refine State.work_lt_of_sched hstep hne rfl ?_
    have hbody := programWeight_body_le s.uartRx src
    show 1 + programWeight (src.body s.uartRx) < _
    omega

/-- A step of the normal context inside the sequence. -/
theorem State.Underway.advances_normalStep (h : s.Underway ls rest) (hne : ls ≠ []) {ms : List Move}
    (hstep : step s = .next t) (hc : ContextStep (s.beginStep ms) t) (hh : s.ctx.inHandler = false) :
    s.Advances ls rest t := by
  have hi : SameInstances s t := { hc.sameInstances with }
  have hth : t.ctx.inHandler = false := hc.inHandler hh
  have hserving : t.Serving := fun hin => absurd (hth.symm.trans hin) nofun
  have hhandler : t.handlerWork = s.handlerWork := by simp [State.handlerWork, hh, hth]
  obtain ⟨k, ls', rfl⟩ := List.exists_cons_of_ne_nil hne
  have htodo : s.normal.todo = k :: (ls' ++ rest) := h.todo
  cases hc.normalStep hh with
  | waits ht => simp [htodo] at ht
  | halfway l lines _ hs ht _ hl0 hl1 hcompletes =>
    obtain ⟨rfl, rfl⟩ : k = l ∧ ls' ++ rest = lines := List.cons.inj (htodo.symm.trans hs)
    refine ⟨hi.cfg, State.work_lt hstep ?_, k :: ls', List.Subset.refl _, hi.cfg ▸ h.legal, h.noReset.of_step hstep, ht,
      h.lines, .inr ⟨k, ls', rfl, hcompletes⟩, hserving⟩
    have hl0' : s.normal.latch = none := hl0
    simp [hhandler, Thread.work, htodo, ht, hl0', Option.isNone_eq_false_iff.mpr (Option.isSome_iff_ne_none.mpr hl1)]
  | goesOn l lines r _ hs ht _ hlatch =>
    obtain ⟨rfl, rfl⟩ : k = l ∧ ls' ++ rest = lines := List.cons.inj (htodo.symm.trans hs)
    have ht' : t.normal.todo = ls' ++ rest := by rw [ht, (h.lines k List.mem_cons_self).rest]; rfl
    have hl : t.normal.latch = none := by
      refine hlatch (h.latch.imp_right fun ⟨l, _, hl, hc⟩ => ?_)
      cases hl
      exact hc.congr rfl ⟨rfl, rfl, rfl⟩
    refine ⟨hi.cfg, State.work_lt hstep ?_, ls', List.subset_cons_self _ _, hi.cfg ▸ h.legal, h.noReset.of_step hstep,
      ht', fun l hl => h.lines l (List.mem_cons_of_mem _ hl), .inl hl, hserving⟩
    simp only [hhandler, Thread.work, htodo, ht', hl, List.length_cons, Option.isNone_none, Bool.toNat_true]
    omega

/-- A machine underway stops only at an empty PEEK of the sequence. -/
theorem State.Underway.fault_eq_peekEmpty (h : s.Underway ls rest) (hgo : ls = [] → s.ctx.inHandler = true) {ms : List Move} {l : Line}
    {rest' : List Line} {w : CmdWord} {i : Instr} {e : Fault} (ht : s.thread.todo = l :: rest')
    (hw : l.word s.thread = some w) (hd : decode s.cfg w = .ok i) (he : exec i (s.beginStep ms) = .fault e) :
    e = .peekEmpty ∧ ∃ k, .command w ∈ ls ∧ i = .peek k := by
  cases hh : s.ctx.inHandler with
  | true =>
    have hserves : (s.beginStep ms).Serves (l :: rest') := by
      rw [← ht, State.thread, if_pos hh]
      exact (h.serving hh).congr rfl rfl
    obtain ⟨j, hj, -, hsafe⟩ := hserves.issues
    cases (hj _).symm.trans hw
    rw [decode_encode_eq hd] at he
    exact absurd he (hsafe e)
  | false =>
    rw [State.thread_of_not_inHandler hh] at ht hw
    obtain ⟨ls', rfl⟩ : ∃ ls', ls = l :: ls' := by
      cases ls with
      | nil => exact absurd (hh.symm.trans (hgo rfl)) nofun
      | cons k ls' => exact ⟨ls', by rw [(List.cons.inj (ht.symm.trans h.todo)).1]⟩
    rcases exec_fault_cases he with ⟨rfl, k, -, -, rfl, -⟩ | ⟨-, -, hin⟩
    · refine ⟨rfl, k, ?_, rfl⟩
      cases h.lines l List.mem_cons_self with
      | command v => cases hw; exact List.mem_cons_self
      | opens => cases hw; cases decode_encode_eq hd
      | closes =>
        obtain ⟨g, -, rfl⟩ := Option.map_eq_some_iff.mp hw
        cases decode_encode_eq hd
    · exact absurd (hh.symm.trans hin) nofun

theorem State.Underway.advances_of_step (h : s.Underway ls rest) (hgo : ls = [] → s.ctx.inHandler = true)
    (hstep : step s = .next t) : s.Advances ls rest t := by
  obtain ⟨-, ⟨ms, -, hc⟩ | ⟨e, ms, hs, rfl⟩ | ⟨ms, hs, rfl⟩ | ⟨src, ms, hs, rfl⟩ | ⟨d, p, ms, hs, rfl⟩⟩ :=
    step_next_cases hstep
  · cases hh : s.ctx.inHandler with
    | true =>
      obtain ⟨hserving, hwork⟩ := hc.serving hh ((h.serving hh).congr rfl rfl)
      have hn : t.normal = s.normal := hc.normal_of_inHandler hh
      exact h.advances hstep hn { hc.sameInstances with } hserving
        (State.work_lt hstep (by rw [hn]; exact Nat.add_lt_add_right hwork _))
    | false => exact h.advances_normalStep (fun hls => absurd (hh.symm.trans (hgo hls)) nofun) hstep hc hh
  · exact h.advances_of_environment hstep (by simp [hs]) ⟨by simp, by simp, by simp⟩ (by simp) (by simp) (by simp) (by simp)
  · exact h.advances_of_environment hstep (by simp [hs]) ⟨by simp, by simp, by simp⟩ (by simp) (by simp) (by simp) (by simp)
  · exact h.advances_enter hs hstep
  · exact absurd (by simp [hs]) (h.noReset d p)

/-- The run through a sequence comes to its end, or stops at an empty PEEK of the sequence. -/
theorem State.Underway.arrives (h : s.Underway ls rest) :
    (∃ k t, State.steps k s = .next t ∧ t.ctx.inHandler = false ∧ t.normal.todo = rest ∧ t.normal.latch = none) ∨
    ((∃ k, State.steps k s = .fault .peekEmpty) ∧ ∃ w i, .command w ∈ ls ∧ decode s.cfg w = .ok (.peek i)) := by
  induction hn : s.work using Nat.strong_induction_on generalizing s ls with
  | _ n ih =>
    by_cases hgo : ls = [] → s.ctx.inHandler = true
    · rcases step_stop h.legal with ⟨t, hstep⟩ | ⟨ms, l, rest', w, i, e, -, ht, hw, hd, he, hstep⟩
      · obtain ⟨hcfg, hwork, ls', hsub, ht⟩ := h.advances_of_step hgo hstep
        rcases ih t.work (hn ▸ hwork) ht rfl with ⟨k, u, hrun, hu⟩ | ⟨⟨k, hrun⟩, w, i, hw, hd⟩
        · exact .inl ⟨k + 1, u, (State.steps_succ k hstep).trans hrun, hu⟩
        · exact .inr ⟨⟨k + 1, (State.steps_succ k hstep).trans hrun⟩, w, i, hsub hw, hcfg ▸ hd⟩
      · obtain ⟨rfl, k, hmem, rfl⟩ := h.fault_eq_peekEmpty hgo ht hw hd he
        exact .inr ⟨⟨1, by simp [State.steps, hstep]⟩, w, k, hmem, hd⟩
    · simp only [Classical.not_imp, Bool.not_eq_true] at hgo
      obtain ⟨rfl, hh⟩ := hgo
      exact .inl ⟨0, s, rfl, hh, h.todo, h.latch.resolve_right (by simp)⟩

end

/-- Settles O46: each closing line puts back what its opening line found, whatever moves fall between; and each step of a run
through the sequence leaves less to do, until the sequence is issued or a PEEK of it finds its FIFO empty. -/
theorem nestedCriticalSectionsRestoreTheFlag : Obligations.NestedCriticalSectionsRestoreTheFlag := by
  intro s ls rest hnested hlegal hreset hh hlatch htodo
  have hlines := hnested.nestable
  have hflags {k : Nat} {t : State} (hrun : State.steps k s = .next t) (hth : t.ctx.inHandler = false)
      (ht : t.normal.todo = rest) : t.ctx.irqSuppressed = s.ctx.irqSuppressed ∧ t.normal.saved = s.normal.saved := by
    have hway : s.OnTheWay rest s.flagStack := .inside ls htodo hlines (hnested.foldl_effect _)
    have heq := (hway.of_steps hreset hrun).flagStack_eq ht
    rw [State.flagStack_of_not_inHandler hth, State.flagStack_of_not_inHandler hh] at heq
    simpa using heq
  refine ⟨fun k t hrun hth ht => hflags hrun hth ht, ?_⟩
  have hunder : s.Underway ls rest := ⟨hlegal, hreset, htodo, hlines, .inl hlatch, fun hs => absurd (hh.symm.trans hs) nofun⟩
  refine hunder.arrives.imp_left fun ⟨k, t, hrun, hth, ht, hl⟩ => ?_
  obtain ⟨hflag, hsaved⟩ := hflags hrun hth ht
  refine ⟨k, t, hrun, hth, hflag, ?_, fun hs => ?_⟩
  · show t.normal = ⟨rest, s.normal.latch, s.normal.saved⟩
    rw [hlatch, ← ht, ← hl, ← hsaved]
  · have hq : t.Quiet s.ctx.pending := State.steps_induction (fun _ _ hq => hq.of_step) ⟨hs, hh, rfl⟩ hrun
    show (⟨t.ctx.irqSuppressed, t.ctx.inHandler, t.ctx.pending⟩ : Ctx) = s.ctx
    rw [hflag, hth, hq.pending, ← hh]

end Sys2Proof.Machine
end

section
/-! PROOFS. The family 60_exceptions.md: the counter's wrap (O56), events (O50), handler entry (O48, O49) and return (O51), and
each source served from its entry to its return (O53, O54, O55). A service is said once for the three sources: what lies
between entry and return is a run of the handler's body on a machine whose block is as it was. -/

namespace Sys2Proof.Machine

/-! ## The moves that are not a context's step (60_exceptions.md R129) -/

section
variable {s : State} {ms : List Move} (hl : s.cfg.legal = true)
include hl

theorem step_eq_move : step s = s.move := if_pos hl

theorem step_event {e : Event} (hs : s.sched = .event e :: ms) : step s = .next ((s.beginStep ms).signal e) := by
  simp only [step_eq_move hl, State.move, hs]

theorem step_increment (hs : s.sched = .increment :: ms) : step s = .next (s.beginStep ms).counterIncrement := by
  simp only [step_eq_move hl, State.move, hs]

theorem step_enter {src : Source} (hs : s.sched = .enter src :: ms) :
    step s = .next ((s.beginStep ms).enterHandler src) := by
  simp only [step_eq_move hl, State.move, hs]

end

/-! ## The counter (R133) -/

theorem State.counterIncrement_of_eq {s : State} (h : s.tmrCnt = s.cfg.period - 1) :
    s.counterIncrement = { s.setPending .tov true with tmrCnt := 0 } := if_pos h

theorem State.counterIncrement_of_ne {s : State} (h : s.tmrCnt ≠ s.cfg.period - 1) :
    s.counterIncrement = { s with tmrCnt := s.tmrCnt + 1 } := if_neg h

/-- Settles O56: the two cases of R133 on the machine as the step begins. -/
theorem counterIncrementWrapsAndSignals : Obligations.CounterIncrementWrapsAndSignals := by
  intro s ms hl hs
  rw [step_increment hl hs]
  exact ⟨fun h => congrArg _ (State.counterIncrement_of_eq (s := s.beginStep ms) h),
    fun h => congrArg _ (State.counterIncrement_of_ne (s := s.beginStep ms) h)⟩

/-! ## Events (R121) -/

/-- The source an event is of (R119). -/
def Event.source : Event → Source
  | .tov => .tov
  | .rxc _ => .rxc
  | .dre => .dre

@[simp] theorem State.receive_ctx (b : Byte) (s : State) : (s.receive b).ctx = s.ctx := by
  unfold State.receive; split_ifs <;> rfl

theorem State.receive_uartRx_of_not_pending {s : State} (b : Byte) (h : s.ctx.pending.rxc = false) :
    (s.receive b).uartRx = b := by
  simp [State.receive, h]

/-- A merge leaves one of the two bytes (assumption log 13). -/
theorem State.receive_uartRx_cases (b : Byte) (s : State) : (s.receive b).uartRx = b ∨ (s.receive b).uartRx = s.uartRx := by
  cases hp : s.ctx.pending.rxc with
  | false => exact .inl (State.receive_uartRx_of_not_pending b hp)
  | true =>
    simp only [State.receive, hp, if_true]
    exact ite_eq_or_eq _ b s.uartRx

theorem State.signal_pending_eq (e : Event) (s : State) :
    (s.signal e).ctx.pending = s.ctx.pending.put true e.source := by
  cases e with
  | tov | dre => rfl
  | rxc b => simp only [State.signal, State.setPending_ctx, State.receive_ctx, Event.source]

theorem State.signal_uartRx_of_ne_rxc {e : Event} (s : State) (he : ∀ b, e ≠ .rxc b) : (s.signal e).uartRx = s.uartRx := by
  cases e with
  | tov | dre => rfl
  | rxc b => exact absurd rfl (he b)

/-- Entry clears no pending bit but its source's, and that only under R123's condition. -/
theorem State.enterHandler_clears {s : State} {src src' : Source} (h : s.ctx.pending.get src' = true)
    (hclear : (s.enterHandler src).ctx.pending.get src' = false) :
    src' = src ∧ s.ctx.irqSuppressed = false ∧ s.ctx.inHandler = false ∧ s.ctx.pending.get src = true := by
  rcases s.enterHandler_cases src with e | ⟨hm, hh, hp, e⟩ <;> rw [e] at hclear
  · cases h.symm.trans hclear
  · refine ⟨?_, hm, hh, hp⟩
    by_contra hne
    cases h.symm.trans ((Pending.get_put_other _ false hne).symm.trans hclear)

/-- Settles O50: of the moves of R129 only entry and reset clear a pending bit, and an event only sets one. -/
theorem eventsBecomePendingAndOnlyEntryClears : Obligations.EventsBecomePendingAndOnlyEntryClears := by
  refine ⟨fun s t src hstep hset hclear => ?_, fun s e ms hl hs => ?_⟩
  · obtain ⟨-, ⟨ms, -, hc⟩ | ⟨e, ms, -, rfl⟩ | ⟨ms, -, rfl⟩ | ⟨src', ms, hs, rfl⟩ | ⟨d, p, ms, hs, rfl⟩⟩ :=
      step_next_cases hstep
    · cases hset.symm.trans (hc.pending ▸ hclear)
    · cases (State.signal_pending (s := s.beginStep ms) e hset).symm.trans hclear
    · cases (State.counterIncrement_pending (s := s.beginStep ms) hset).symm.trans hclear
    · obtain ⟨rfl, hm, hh, hp⟩ := State.enterHandler_clears (s := s.beginStep ms) hset hclear
      rw [State.enterHandler_eq hm hh hp]
      exact .inl ⟨⟨ms, hs⟩, hm, hh, rfl, rfl, rfl⟩
    · exact .inr ⟨d, p, ms, hs⟩
  · refine ⟨_, step_event hl hs, State.signal_pending_eq e _, State.signal_inHandler e _, State.signal_irqSuppressed e _,
      State.signal_fifos e _, State.signal_clk e _, State.signal_sws e _, State.signal_normal e _, State.signal_handler e _,
      State.signal_outputs e _, fun b he hp => ?_, fun b he => ?_, State.signal_uartRx_of_ne_rxc (s.beginStep ms)⟩
    · subst he; exact State.receive_uartRx_of_not_pending (s := s.beginStep ms) b hp
    · subst he; exact State.receive_uartRx_cases b (s.beginStep ms)

/-! ## Handler entry (R123) -/

/-- Settles O49: no other move of R129 begins a handler, and where R123's condition fails the entry move leaves the machine
as the step found it (assumption log 23). -/
theorem handlersAreEnteredOnlyUnmaskedAndPending : Obligations.HandlersAreEnteredOnlyUnmaskedAndPending := by
  refine ⟨fun s t hstep hout hin => ?_, fun s src ms hl hs hnot => ?_⟩
  · obtain ⟨-, ⟨ms, -, hc⟩ | ⟨e, ms, -, rfl⟩ | ⟨ms, -, rfl⟩ | ⟨src, ms, hs, rfl⟩ | ⟨d, p, ms, hs, rfl⟩⟩ :=
      step_next_cases hstep
    · cases (hc.inHandler hout).symm.trans hin
    · cases hout.symm.trans ((State.signal_inHandler e (s.beginStep ms)).symm.trans hin)
    · cases hout.symm.trans ((State.counterIncrement_inHandler (s.beginStep ms)).symm.trans hin)
    · rcases (s.beginStep ms).enterHandler_cases src with e | ⟨hm, -, hp, -⟩
      · rw [e] at hin
        cases hout.symm.trans hin
      · exact ⟨src, ms, hs, hm, hp⟩
    · cases hin
  · rw [step_enter hl hs]
    rcases (s.beginStep ms).enterHandler_cases src with e | ⟨hm, hh, hp, -⟩
    · rw [e]; rfl
    · rcases hnot with h | h | h
      · cases hm.symm.trans h
      · cases hh.symm.trans h
      · cases hp.symm.trans h

/-- The machine `s` while the handler of `src` runs and has `ls` left to issue, with `ms` still to come and the response `r`:
the flags set, the source's bit cleared (R123), everything else that of `s`. -/
def State.handling (src : Source) (ls : List Line) (ms : List Move) (r : Option Response) (s : State) : State :=
  { s with ctx := { irqSuppressed := true, inHandler := true, pending := s.ctx.pending.put false src }
           handler := Thread.fresh ls, sched := ms, resp := r }

/-- An entry move under R123's condition. -/
theorem step_enter_handling {s : State} {src : Source} {ms : List Move} (hl : s.cfg.legal = true)
    (hs : s.sched = .enter src :: ms) (hm : s.ctx.irqSuppressed = false) (hh : s.ctx.inHandler = false)
    (hp : s.ctx.pending.get src = true) : step s = .next (s.handling src (src.body s.uartRx) ms none) := by
  rw [step_enter hl hs, State.enterHandler_eq (s := s.beginStep ms) hm hh hp]
  rfl

/-- Settles O48: entry sets the flags, clears one bit and begins the body. -/
theorem handlerEntryMasksAndClearsPending : Obligations.HandlerEntryMasksAndClearsPending := by
  intro s src ms hl hs hm hh hp
  exact ⟨_, step_enter_handling hl hs hm hh hp, rfl, rfl, Pending.get_put_same _ false src,
    fun _ hne => Pending.get_put_other _ false hne, rfl, rfl, rfl, rfl, rfl, rfl, rfl, rfl, rfl, rfl, rfl, rfl⟩

/-! ## Handler return (R127) -/

/-- A handler with nothing left to issue returns. -/
theorem State.contextStep_return {s : State} (hh : s.ctx.inHandler = true) (ht : s.handler.todo = []) :
    s.contextStep = .next s.leaveHandler := by
  simp [State.contextStep, State.thread, State.idle, hh, ht]

/-- Settles O51: a handler's context step with nothing left to issue is its return. -/
theorem handlerReturnUnmasks : Obligations.HandlerReturnUnmasks := by
  intro s ms hl hs hh ht
  rw [step_context hl hs, State.contextStep_return (s := s.beginStep ms) hh ht]
  rfl

/-! ## A source served, from entry to return (R123 to R127) -/

/-- A line of a handler's body, and the instruction whose command it issues (R124 to R126). -/
inductive Line.OfBody : Instr → Line → Prop where
  | tick : Line.OfBody .tick .tovTick
  | add (b) : Line.OfBody (.add 0 b) (.rxcAdd b)
  | test : Line.OfBody (.isEmpty 1) .dreTest
  | peek : Line.OfBody (.peek 1) .drePeek
  | remove : Line.OfBody (.remove 1) .dreRemove

theorem Line.OfBody.word {i : Instr} {l : Line} (h : Line.OfBody i l) (t : Thread) : l.word t = some (encode i) := by
  cases h <;> rfl

theorem Line.OfBody.keep {i : Instr} {l : Line} (h : Line.OfBody i l) (r : Response) (saved : List Bool) :
    l.keep r saved = saved := by
  cases h <;> rfl

/-- One step of a body: the line's command answers, its output is put out, and the handler goes on with what is left. -/
theorem Line.OfBody.step_handling {i : Instr} {l : Line} (h : Line.OfBody i l) {s u : State} {src : Source}
    {rest ls : List Line} {ms : List Move} {r : Option Response} {q : Response} {outs : List Output}
    (hl : s.cfg.legal = true) (hi : i.wf s.cfg = true)
    (he : exec i (s.handling src (l :: rest) ms none) = .next (u.handling src (l :: rest) ms (some q)))
    (hrest : l.rest u.cfg.delayFineTol q ++ rest = ls) (hout : u.outputs ++ l.output q = outs) :
    step (s.handling src (l :: rest) (.context :: ms) r) =
      .next (State.handling src ls ms (some q) { u with outputs := outs }) := by
  have hissue := step_issue (s := s.handling src (l :: rest) (.context :: ms) r) hl (.inl rfl) rfl (h.word _)
    (decode_encode hi)
  refine (hissue.trans (congrArg _ he)).trans (congrArg Host.Outcome.next ?_)
  subst hrest hout
  simp only [State.goOn, h.keep]
  rfl

/-- Entry, a run of the body to its end, and return: what the body has done to the block stays, the source's bit is cleared,
and the flags are as they were. -/
theorem State.steps_serve {s u : State} {src : Source} {ms' ms : List Move} {r : Option Response} {k : Nat}
    (hrun : State.steps k (s.handling src (src.body s.uartRx) ms' none) = .next (u.handling src [] (.context :: ms) r))
    (hl : s.cfg.legal = true) (hs : s.sched = .enter src :: ms') (hm : s.ctx.irqSuppressed = false)
    (hh : s.ctx.inHandler = false) (hp : s.ctx.pending.get src = true) (hc : u.cfg = s.cfg) (hctx : u.ctx = s.ctx) :
    State.steps (k + 2) s = .next { u with
      ctx := { s.ctx with pending := s.ctx.pending.put false src }
      handler := { todo := [], latch := none, saved := [] }, sched := ms, resp := none } := by
  have hreturn := handlerReturnUnmasks (u.handling src [] (.context :: ms) r) ms (hc ▸ hl) (.inl rfl) rfl rfl
  rw [State.steps_succ (k + 1) (step_enter_handling hl hs hm hh hp), State.steps_add, hrun, Result.andThen_next,
    State.steps_succ 0 hreturn, State.steps_zero]
  simp [State.handling, hctx, hm, hh]

/-- Settles O53: the body is one TICK. -/
theorem servedTimerOverflowTicksOnce : Obligations.ServedTimerOverflowTicksOnce := by
  intro s ms hl hm hh hp hs
  have htick : step (s.handling .tov [.tovTick] (.context :: .context :: ms) none) =
      .next ((s.setClock (s.clk.tick s.cfg)).handling .tov [] (.context :: ms) (some { status := .ok, word := 0 })) :=
    Line.OfBody.tick.step_handling (u := s.setClock (s.clk.tick s.cfg)) hl rfl rfl rfl (List.append_nil _)
  exact State.steps_serve (State.steps_succ 0 htick) hl hs hm hh hp rfl rfl

/-- Settles O54: the body is one ADD, of the byte that stands in its line since entry. -/
theorem servedReceiveEventAddsTheByte : Obligations.ServedReceiveEventAddsTheByte := by
  intro s ms n f hl hm hh hp hs hf
  have hadd : step (s.handling .rxc [.rxcAdd s.uartRx] (.context :: .context :: ms) none) =
      .next ((s.setFifo 0 (f.add n s.uartRx)).handling .rxc [] (.context :: ms) (some { status := .ok, word := 0 })) :=
    (Line.OfBody.add s.uartRx).step_handling (u := s.setFifo 0 (f.add n s.uartRx)) hl (decide_eq_true hf.lt_nFifo)
      (exec_add_eq (s := s.handling ..) ⟨hf.cap, hf.fifo⟩ s.uartRx) rfl (List.append_nil _)
  exact State.steps_serve (State.steps_succ 0 hadd) hl hs hm hh hp rfl rfl

section
variable {s : State} {n : Nat} {f : Fifo} (hl : s.cfg.legal = true) (hf : s.FifoAt 1 n f) (ms : List Move)
  (r : Option Response)
include hl hf

/-- ISEMPTY of FIFO 1 that finds it empty disables the source, and H_DRE has nothing left to issue (R125). -/
theorem step_dreTest_of_eq (heq : f.head = f.tail) : step (s.handling .dre [.dreTest] (.context :: ms) r) =
    .next (State.handling .dre [] ms (some { status := .ok, word := 1 })
      { s with outputs := s.outputs ++ [.dreDisabled] }) := by
  refine Line.OfBody.test.step_handling (u := s) hl (decide_eq_true hf.lt_nFifo) ?_ rfl rfl
  rw [exec_isEmpty_eq (s := s.handling ..) ⟨hf.cap, hf.fifo⟩, if_pos heq]
  rfl

/-- ISEMPTY of FIFO 1 that finds a byte leaves PEEK and REMOVE to issue (R125). -/
theorem step_dreTest_of_ne (hne : f.head ≠ f.tail) : step (s.handling .dre [.dreTest] (.context :: ms) r) =
    .next (s.handling .dre [.drePeek, .dreRemove] ms (some { status := .ok, word := 0 })) := by
  refine Line.OfBody.test.step_handling (u := s) hl (decide_eq_true hf.lt_nFifo) ?_ rfl (List.append_nil _)
  rw [exec_isEmpty_eq (s := s.handling ..) ⟨hf.cap, hf.fifo⟩, if_neg hne]
  rfl

/-- PEEK's byte goes to the UART's data register (R125). -/
theorem step_drePeek (hne : f.head ≠ f.tail) : ∃ q, step (s.handling .dre [.drePeek, .dreRemove] (.context :: ms) r) =
    .next (State.handling .dre [.dreRemove] ms (some q)
      { s with outputs := s.outputs ++ [.sent (f.storage.read f.tail.toNat)] }) := by
  refine ⟨_, Line.OfBody.peek.step_handling (u := s) hl (decide_eq_true hf.lt_nFifo)
    (exec_peek_of_ne (s := s.handling ..) ⟨hf.cap, hf.fifo⟩ hne) rfl ?_⟩
  simp [Line.output, zext32]

/-- REMOVE gives up the byte sent, and H_DRE has nothing left to issue (R125). -/
theorem step_dreRemove : ∃ q, step (s.handling .dre [.dreRemove] (.context :: ms) r) =
    .next ((s.setFifo 1 (f.remove n)).handling .dre [] ms (some q)) :=
  ⟨_, Line.OfBody.remove.step_handling (u := s.setFifo 1 (f.remove n)) hl (decide_eq_true hf.lt_nFifo)
    (exec_remove_eq (s := s.handling ..) ⟨hf.cap, hf.fifo⟩) rfl (List.append_nil _)⟩

end

/-- Settles O55: what ISEMPTY answers decides whether the body is PEEK and REMOVE of one byte or the disabling of the source. -/
theorem servedTransmitEventSendsTheOldestByte : Obligations.ServedTransmitEventSendsTheOldestByte := by
  intro s ms n f hl hm hh hp hf
  refine ⟨fun hne hs => ?_, fun heq hs => ?_⟩
  · have htest := step_dreTest_of_ne hl hf (.context :: .context :: .context :: ms) none hne
    obtain ⟨q, hpeek⟩ := step_drePeek hl hf (.context :: .context :: ms) (some { status := .ok, word := 0 }) hne
    obtain ⟨q', hremove⟩ := step_dreRemove (s := { s with outputs := s.outputs ++ [.sent (f.storage.read f.tail.toNat)] })
      hl ⟨hf.cap, hf.fifo⟩ (.context :: ms) (some q)
    rw [Fifo.remove_of_ne n hne] at hremove
    exact State.steps_serve ((State.steps_succ 2 htest).trans ((State.steps_succ 1 hpeek).trans (State.steps_succ 0 hremove)))
      hl hs hm hh hp rfl rfl
  · have htest := step_dreTest_of_eq hl hf (.context :: ms) none heq
    exact State.steps_serve (State.steps_succ 0 htest) hl hs hm hh hp rfl rfl

end Sys2Proof.Machine
end

section
/-! PROOFS. The family 70_reset_and_hazards.md: the reset move (O8). -/

namespace Sys2Proof.Machine

/-- The reset move leaves the schedule and the machine is reset (70_reset_and_hazards.md R141). -/
theorem step_reset {s : State} {d : ResetDraw} {p : List Line} {ms : List Move} (hl : s.cfg.legal = true)
    (hs : s.sched = .reset d p :: ms) : step s = .next ((s.beginStep ms).resetEvent d p) := by
  simp only [step_eq_move hl, State.move, hs]

/-- What a reset keeps of the state its step began in: the configuration, and what the environment owns (assumption log 24). -/
theorem State.beginStep_resetEvent (s : State) (d : ResetDraw) (p : List Line) (ms : List Move) :
    (s.beginStep ms).resetEvent d p =
      { State.resetWith s.cfg (d.clean s.cfg) p with outputs := s.outputs, sched := ms, draws := s.draws } := rfl

/-- Settles O8: the step is the reset move's, and beginning the step changes nothing that reset keeps but the schedule. -/
theorem resetMoveResetsTheMachine : Obligations.ResetMoveResetsTheMachine := by
  intro s d p ms hl hs
  rw [step_reset hl hs, State.beginStep_resetEvent]

end Sys2Proof.Machine
end
